-- ==== Sys2Proof/Word.lean ====
section
/-! DEFINITION. The plain value types of the SDR-DSP block: 32-bit words, bytes, binary32 values held as their
encodings, complex samples and the four demodulation modes (spec/00_scope.md R8, R9; spec/41_demod.md R120). -/

namespace Sys2Proof

/-- A 32-bit word: the width of every register, window word and command (R8, R52). -/
abbrev Word := BitVec 32

/-- One byte lane of a word (R52). -/
abbrev Byte := BitVec 8

/-- A byte offset inside the block's 23-bit address space (R50). -/
abbrev Offset := BitVec 23

/-- A binary32 value, held as its IEEE 754 encoding: `bits(x)` and `f32(w)` of R8 are the identity on it. -/
abbrev F32 := BitVec 32

/-- A complex sample: I then Q (R9, R52). -/
structure Sample where
  re : F32
  im : F32
deriving DecidableEq, Repr

/-- The demodulation modes (R120). -/
inductive Mode where
  | am
  | fm
  | usb
  | lsb
deriving DecidableEq, Repr

end Sys2Proof
end

