-- ==== Sys2Proof/Config.lean ====
section
/-! DEFINITION. What an implementation of the block fixes: the parameters of R5 and R6 with the reference
instance's values, the form of the numeric function set `NUM` of R7, the free draw of R47, and the binary32 constants
of R12. `Config.num`, the free `NUM` itself, stands in Machine/Instance.lean. -/

namespace Sys2Proof

/-- The implementation parameters (R5), the reset configuration (R6) and the platform's base address (R50).
`Params.isInstance` (Machine/Instance.lean) says which values are instances at all. -/
structure Params where
  /-- input sample rate in Hz -/
  pFs : Nat
  /-- FIR tap count N -/
  pNtaps : Nat
  /-- decimation factor D -/
  pDecim : Nat
  /-- capacity of `IN_BUF` in complex samples -/
  pMaxBatch : Nat
  /-- largest FFT size -/
  pFftMax : Nat
  /-- waterfall depth in rows -/
  pWfDepth : Nat
  /-- audio FIFO capacity in samples -/
  pAudioCap : Nat
  /-- unread-sample limit above which the oldest samples are dropped -/
  pAudioLimit : Nat
  /-- where the platform puts offset 0 of the block -/
  pBase : Nat
  pRstBw : Word
  pRstSqDb : F32
  pRstMode : Mode
  pRstAgcTarget : F32
  pRstAgcAttack : F32
  pRstAgcDecay : F32
  pRstFftSize : Word
  pRstAlpha : F32
deriving DecidableEq, Repr

/-- The five numeric functions `NUM` (R7), before R13's NaN rules are laid over them (Machine/Numeric.lean). -/
structure Numerics where
  sin : F32 → F32
  cos : F32 → F32
  /-- `atan2 y x` -/
  atan2 : F32 → F32 → F32
  log10 : F32 → F32
  pow10 : F32 → F32

namespace Config

/-- The reference instance: the default column of R5 and R6. `P_BASE` has no default in the spec: DESIGN CHOICE 0
(log entry 2). -/
def reference : Params :=
  { pFs := 2048000, pNtaps := 64, pDecim := 42, pMaxBatch := 16384, pFftMax := 8192, pWfDepth := 100,
    pAudioCap := 8192, pAudioLimit := 8192, pBase := 0,
    pRstBw := 100000, pRstSqDb := 0xC2C80000, pRstMode := .fm, pRstAgcTarget := 0x3F000000,
    pRstAgcAttack := 0x3DCCCCCD, pRstAgcDecay := 0x3C23D70A, pRstFftSize := 1024, pRstAlpha := 0x3DCCCCCD }

/-- The bits a host read of an IN word that was never written returns (R47, spec/93 U2): free for every draw number
and offset (log entry 4). -/
opaque freeWord : Nat → Nat → Word

/-! The constants of R12, and −1.0 of `clamp1` (R11). -/

def TWO_PI : F32 := 0x40C90FDB
def PI : F32 := 0x40490FDB
def C054 : F32 := 0x3F0A3D71
def C046 : F32 := 0x3EEB851F
def GMIN : F32 := 0x3DCCCCCD
def GMAX : F32 := 0x41200000
def FLOOR : F32 := 0x2EDBE6FF
def HALF : F32 := 0x3F000000
def ONE : F32 := 0x3F800000
def TWO : F32 := 0x40000000
def TEN : F32 := 0x41200000
def TWENTY : F32 := 0x41A00000
def MINUS_ONE : F32 := 0xBF800000

/-- `ID` and `VERSION` (R22). -/
def idWord : Word := 0x53445231
def versionWord : Word := 0x00010000

end Config
end Sys2Proof
end

