-- ==== Sys2Proof/Machine/Numeric.lean ====
section
/-! DEFINITION. Binary32 arithmetic on encodings (spec/00_scope.md R10, R11, R13): each operation computes its
exact result in integers and rounds once, to nearest, ties to even. Subnormals are produced and consumed. -/

namespace Sys2Proof

/-! ## Fields of an encoding -/

/-- The sign bit. -/
def signf (a : F32) : Bool := decide (2 ^ 31 ≤ a.toNat)

/-- The encoding without its sign bit. It orders the magnitudes. -/
def magf (a : F32) : Nat := a.toNat % 2 ^ 31

def isNaN (a : F32) : Bool := decide (0x7F800000 < magf a)
def isInf (a : F32) : Bool := decide (magf a = 0x7F800000)
def isZero (a : F32) : Bool := decide (magf a = 0)
def isFinite (a : F32) : Bool := decide (magf a < 0x7F800000)

/-- The encoding with sign `s` and magnitude bits `m`. -/
def packf (s : Bool) (m : Nat) : F32 := BitVec.ofNat 32 (m + if s then 2 ^ 31 else 0)

/-- A finite value is `±mantf · 2^expof`. -/
def mantf (a : F32) : Nat :=
  if magf a / 2 ^ 23 = 0 then magf a else 2 ^ 23 + magf a % 2 ^ 23

def expof (a : F32) : Int := (max (magf a / 2 ^ 23) 1 : Nat) - 150

/-- The finite value of `a` in units of `2^e`, for `e ≤ expof a`. -/
def scaledf (a : F32) (e : Int) : Int :=
  (if signf a then -1 else 1) * (mantf a * 2 ^ (expof a - e).toNat : Nat)

/-! ## NaN rules (R13) -/

/-- The NaN an operation creates from operands that are none (R13). -/
def canonNaN : F32 := 0x7FC00000

/-- A NaN made quiet, its sign and payload kept (R13). -/
def quietf (a : F32) : F32 := a ||| 0x00400000

/-- R13 for one operand: a NaN operand is propagated; a created NaN is the canonical one. -/
def nan1 (a r : F32) : F32 :=
  if isNaN a then quietf a else if isNaN r then canonNaN else r

/-- R13 for two operands: the first operand's NaN wins. -/
def nan2 (a b r : F32) : F32 :=
  if isNaN a then quietf a else if isNaN b then quietf b else if isNaN r then canonNaN else r

/-! ## Rounding -/

/-- `m / 2^d` to the nearest integer, ties to even. -/
def roundEven (m d : Nat) : Nat :=
  let q := m / 2 ^ d
  let r := m % 2 ^ d
  if 2 ^ d < 2 * r ∨ (2 * r = 2 ^ d ∧ q % 2 = 1) then q + 1 else q

/-- The magnitude bits of the binary32 value nearest `m · 2^e`, ties to even, with gradual underflow and overflow to
infinity. `q` is the unit of the last place kept: 24 significant bits, and never below `2^-149`. The sum with the
exponent field lets a carry out of the significand move into the exponent. -/
def roundMag (m : Nat) (e : Int) : Nat :=
  if m = 0 then 0
  else
    let q : Int := max (e + m.log2 - 23) (-149)
    let sig := if q ≤ e then m * 2 ^ (e - q).toNat else roundEven m (q - e).toNat
    min ((q + 149).toNat * 2 ^ 23 + sig) 0x7F800000

/-- The binary32 value nearest `±m · 2^e`. -/
def roundf (s : Bool) (m : Nat) (e : Int) : F32 := packf s (roundMag m e)

/-! ## The operations of R10 -/

/-- `negf`: flips the sign bit (R10), and passes a NaN through unchanged, a signalling one too (R13). -/
def negf (a : F32) : F32 := if isNaN a then a else a ^^^ 0x80000000

/-- The sum of two operands that are no NaN. -/
def addCore (a b : F32) : F32 :=
  if isInf a then (if isInf b ∧ signf a ≠ signf b then canonNaN else a)
  else if isInf b then b
  else
    let e := min (expof a) (expof b)
    let x := scaledf a e + scaledf b e
    if x = 0 then packf (signf a && signf b) 0 else roundf (decide (x < 0)) x.natAbs e

/-- `a +f b`. -/
def addf (a b : F32) : F32 := nan2 a b (addCore a b)

/-- `a −f b`. A NaN `b` is propagated with its own sign. -/
def subf (a b : F32) : F32 := nan2 a b (addCore a (negf b))

/-- `a ×f b`. -/
def mulf (a b : F32) : F32 :=
  let s := signf a != signf b
  nan2 a b <|
    if isInf a ∨ isInf b then
      (if isZero a ∨ isZero b then canonNaN else packf s 0x7F800000)
    else roundf s (mantf a * mantf b) (expof a + expof b)

/-- `a /f b`. The quotient is taken to more than 26 bits, its last bit telling whether a remainder was left. -/
def divf (a b : F32) : F32 :=
  let s := signf a != signf b
  nan2 a b <|
    if isInf a then (if isInf b then canonNaN else packf s 0x7F800000)
    else if isInf b then packf s 0
    else if isZero b then (if isZero a then canonNaN else packf s 0x7F800000)
    else
      let n := mantf a * 2 ^ 50
      roundf s (2 * (n / mantf b) + if n % mantf b = 0 then 0 else 1) (expof a - expof b - 51)

/-- The largest `r` built from `r0` by adding powers `2^(k-1) … 2^0` with `r² ≤ n`. -/
def isqrtFrom (n : Nat) : Nat → Nat → Nat
  | 0, r => r
  | k + 1, r => if (r + 2 ^ k) * (r + 2 ^ k) ≤ n then isqrtFrom n k (r + 2 ^ k) else isqrtFrom n k r

/-- The integer square root of `n < 2^80`. -/
def isqrt (n : Nat) : Nat := isqrtFrom n 40 0

/-- `sqrtf a`. The root is taken to more than 26 bits, its last bit telling whether a remainder was left. -/
def sqrtf (a : F32) : F32 :=
  nan1 a <|
    if isZero a then a
    else if signf a then canonNaN
    else if isInf a then a
    else
      let k : Nat := if expof a % 2 = 0 then 54 else 55
      let n := mantf a * 2 ^ k
      let r := isqrt n
      roundf false (2 * r + if r * r = n then 0 else 1) ((expof a - k) / 2 - 1)

/-- `u2f n`. -/
def u2f (n : Nat) : F32 := roundf false n 0

/-- `i2f n`. -/
def i2f (n : Int) : F32 := roundf (decide (n < 0)) n.natAbs 0

/-! ## Comparisons (R10): false with a NaN operand, and −0.0 equals +0.0 -/

/-- The position of a value that is no NaN in the order of the reals; both zeros stand at 0. -/
def keyf (a : F32) : Int := if signf a then -(magf a : Int) else magf a

def ltf (a b : F32) : Bool := !isNaN a && !isNaN b && decide (keyf a < keyf b)
def lef (a b : F32) : Bool := !isNaN a && !isNaN b && decide (keyf a ≤ keyf b)

/-- `clamp(x, lo, hi)` (R11); a NaN passes through. -/
def clampf (x lo hi : F32) : F32 := if ltf x lo then lo else if ltf hi x then hi else x

/-- `clamp1(x)` (R11). -/
def clamp1 (x : F32) : F32 := clampf x Config.MINUS_ONE Config.ONE

/-! ## `NUM` under the NaN rules of R13 -/

def Numerics.fSin (num : Numerics) (x : F32) : F32 := nan1 x (num.sin x)
def Numerics.fCos (num : Numerics) (x : F32) : F32 := nan1 x (num.cos x)
def Numerics.fAtan2 (num : Numerics) (y x : F32) : F32 := nan2 y x (num.atan2 y x)
def Numerics.fLog10 (num : Numerics) (x : F32) : F32 := nan1 x (num.log10 x)
def Numerics.fPow10 (num : Numerics) (x : F32) : F32 := nan1 x (num.pow10 x)

end Sys2Proof
end

