-- ==== Sys2Proof/Machine/Tables.lean ====
section
/-! DEFINITION. The tables the block builds from its configuration: FIR taps (spec/40_filter.md R100, R101), FFT
window and twiddles and the power-of-two rounding (spec/44_spectrum.md R180-R182), and the squelch threshold
(spec/42_agc_squelch.md R146). -/

namespace Sys2Proof

/-- The Hamming term at index `i` of an `M`-point window (R100, R180). -/
def hamming (num : Numerics) (M i : Nat) : F32 :=
  subf Config.C054 (mulf Config.C046 (num.fCos (divf (mulf Config.TWO_PI (i2f i)) (i2f ((M : Int) - 1)))))

/-- The sinc factor `t` of tap `i` of N, for cutoff fraction `c`; the centre is at `floor(N/2)` (R100). -/
def sincTap (num : Numerics) (N : Nat) (c : F32) (i : Nat) : F32 :=
  let n : Int := (i : Int) - (N / 2 : Nat)
  if n = 0 then mulf Config.TWO c
  else divf (num.fSin (mulf (mulf Config.TWO_PI c) (i2f n))) (mulf Config.PI (i2f n))

/-- The unnormalised taps `Hp[0..N-1]` (R100). -/
def rawTaps (num : Numerics) (p : Params) (bw : Word) : List F32 :=
  let c := divf (u2f bw.toNat) (u2f p.pFs)
  (List.range p.pNtaps).map fun i => mulf (sincTap num p.pNtaps c i) (hamming num p.pNtaps i)

/-- The sum `S` of the unnormalised taps, in index order from +0.0 (R100). -/
def tapSum (num : Numerics) (p : Params) (bw : Word) : F32 := (rawTaps num p bw).foldl addf 0

/-- TAPGEN's coefficients `Hn[0..N-1]` (R100). -/
def tapGen (num : Numerics) (p : Params) (bw : Word) : List F32 :=
  (rawTaps num p bw).map fun h => divf h (tapSum num p bw)

/-- R101: a tap sum that is NaN, ±∞ or ≤ 0 is not used. -/
def badTapSum (S : F32) : Bool := isNaN S || isInf S || lef S 0

/-- WINGEN(F) (R180). -/
def winGen (num : Numerics) (F : Nat) : List F32 := (List.range F).map (hamming num F)

/-- TWGEN(F) (R181). -/
def twGen (num : Numerics) (F : Nat) : List Sample :=
  (List.range (F / 2)).map fun (k : Nat) =>
    let ang := divf (mulf Config.TWO_PI (i2f k)) (i2f F)
    { re := num.fCos ang, im := negf (num.fSin ang) }

/-- NEXTPOW2(n): the smallest power of two that is at least `n`, for `n ≥ 1` (R182). -/
def nextPow2 (n : Nat) : Nat := if n ≤ 1 then 1 else 2 ^ ((n - 1).log2 + 1)

/-- The squelch threshold of a level in dB (R146). -/
def sqThreshold (num : Numerics) (db : F32) : F32 := num.fPow10 (divf db Config.TWENTY)

end Sys2Proof
end

