-- ==== Sys2Proof/Machine/Ranges.lean ====
section
/-! DEFINITION. The legal values of the configuration registers, as the SET commands check them
(spec/10_state.md R28; spec/60_exceptions.md R234), and the constraints on an instance (spec/00_scope.md R5). -/

namespace Sys2Proof

/-- `n` is a power of two. -/
def isPow2 (n : Nat) : Bool := decide (n ≠ 0 ∧ 2 ^ n.log2 = n)

/-- A bandwidth SET_BW accepts: 1 ≤ bw < P_FS (R106). -/
def legalBw (p : Params) (bw : Word) : Bool := decide (1 ≤ bw.toNat ∧ bw.toNat < p.pFs)

/-- A squelch level SET_SQUELCH accepts: finite (R148). -/
def legalSquelch (v : F32) : Bool := !(isNaN v || isInf v)

/-- A target SET_AGC_TARGET accepts: `v >= 0.0` and not +∞ (R149). -/
def legalTarget (v : F32) : Bool := lef 0 v && !isInf v

/-- A fraction SET_AGC_ATTACK, SET_AGC_DECAY and SET_AVG accept: `v >= 0.0 and v <= 1.0` (R150, R151, R198). -/
def legalFraction (v : F32) : Bool := lef 0 v && lef v Config.ONE

/-- A size SET_FFT_SIZE accepts: 2 ≤ n ≤ P_FFT_MAX (R197). -/
def legalFftRequest (p : Params) (n : Word) : Bool := decide (2 ≤ n.toNat ∧ n.toNat ≤ p.pFftMax)

/-- A value CFG_FFT_SIZE may hold (R28). -/
def legalFftSize (p : Params) (F : Word) : Bool := isPow2 F.toNat && legalFftRequest p F

/-! The constraint column of R5, one check a row. -/

def Params.fsOk (p : Params) : Bool := decide (2 ≤ p.pFs ∧ p.pFs ≤ 2 ^ 24)
def Params.ntapsOk (p : Params) : Bool := decide (32 ≤ p.pNtaps ∧ p.pNtaps ≤ 1024)
def Params.decimOk (p : Params) : Bool := decide (1 ≤ p.pDecim ∧ p.pDecim ≤ 65535)
def Params.maxBatchOk (p : Params) : Bool := decide (p.pFftMax ≤ p.pMaxBatch ∧ p.pMaxBatch ≤ 131072)
def Params.fftMaxOk (p : Params) : Bool :=
  isPow2 p.pFftMax && decide (2 ≤ p.pFftMax ∧ p.pFftMax ≤ 131072 ∧ p.pWfDepth * (p.pFftMax / 2) ≤ 1048576)
def Params.wfDepthOk (p : Params) : Bool := decide (1 ≤ p.pWfDepth ∧ p.pWfDepth ≤ 65535)
def Params.audioCapOk (p : Params) : Bool := decide (1 ≤ p.pAudioCap ∧ p.pAudioCap ≤ 2 ^ 20)
def Params.audioLimitOk (p : Params) : Bool := decide (1 ≤ p.pAudioLimit ∧ p.pAudioLimit ≤ p.pAudioCap)

/-- R6: each reset value passes the range check of its SET command; the reset FFT size is a power of two no larger
than P_FFT_MAX. Every P_RST_MODE is legal (R129). -/
def Params.rstOk (p : Params) : Bool :=
  legalBw p p.pRstBw && legalSquelch p.pRstSqDb && legalTarget p.pRstAgcTarget && legalFraction p.pRstAgcAttack
    && legalFraction p.pRstAgcDecay && legalFftSize p p.pRstFftSize && legalFraction p.pRstAlpha

/-- R261: the reset bandwidth's tap sum is one R101 accepts. It depends on `NUM`. -/
def Params.rstTapSumOk (num : Numerics) (p : Params) : Bool := !badTapSum (tapSum num p p.pRstBw)

end Sys2Proof
end

