-- ==== Sys2Proof/Syntax.lean ====
section
/-! DEFINITION. The command set: one constructor per row of the opcode map (spec/30_encoding.md R83). -/

namespace Sys2Proof

/-- The twelve commands (R83). Only SET_MODE carries an operand in its word (R81); every other operand is read
from `CMD_ARG` or `BATCH_LEN` when the command runs. -/
inductive Instr where
  | nop
  | reset
  | process
  | spectrum
  | setBw
  | setSquelch
  | setMode (m : Mode)
  | setAgcTarget
  | setAgcAttack
  | setAgcDecay
  | setFftSize
  | setAvg
deriving DecidableEq, Repr

end Sys2Proof
end

