-- ==== Sys2Proof/WellFormed.lean ====
section
/-! DEFINITION. Well-formed instructions, and the parameter sets that are instances of the block
(spec/00_scope.md R5, R6). -/

namespace Sys2Proof

/-- Every term of `Instr` is a command: SET_MODE's operand is one of the four modes by its type, and no other
command word holds an operand (R81, R129). -/
def Instr.wellFormed : Instr → Bool
  | .nop => true
  | .reset => true
  | .process => true
  | .spectrum => true
  | .setBw => true
  | .setSquelch => true
  | .setMode _ => true
  | .setAgcTarget => true
  | .setAgcAttack => true
  | .setAgcDecay => true
  | .setFftSize => true
  | .setAvg => true

/-- The parameters are those of an SDR-DSP block: R5's constraints and R6's range checks hold. A set that breaks one
is refused (R5, R251, spec/93 U8). What R261 asks beside, of the reset tap sum, depends on `NUM`: `Params.isInstance`
of Machine/Instance.lean asks both. -/
def Params.wellFormed (p : Params) : Bool :=
  p.fsOk && p.ntapsOk && p.decimOk && p.maxBatchOk && p.fftMaxOk && p.wfDepthOk && p.audioCapOk && p.audioLimitOk
    && p.rstOk

end Sys2Proof
end

