-- ==== Sys2Proof/Decode.lean ====
section
/-! DEFINITION. Command decoding and encoding (spec/30_encoding.md R80-R88). -/

namespace Sys2Proof

/-! ## Fields -/

/-- `OP`, bits 7:0 (R80). -/
def opField (w : Word) : BitVec 8 := w.extractLsb' 0 8

/-- `MODE`, bits 9:8 (R80). -/
def modeField (w : Word) : BitVec 2 := w.extractLsb' 8 2

/-- The mode a two-bit field names (R120). -/
def Mode.ofBits (b : BitVec 2) : Mode :=
  if b = 0 then .am else if b = 1 then .fm else if b = 2 then .usb else .lsb

/-- The number of a mode (R120). -/
def Mode.bits : Mode → BitVec 2
  | .am => 0
  | .fm => 1
  | .usb => 2
  | .lsb => 3

/-! ## Decoding -/

/-- Why a word is no command (R85). -/
inductive IllegalWord where
  /-- OP is none of the twelve opcodes -/
  | unknownOpcode
  /-- a reserved bit is set -/
  | reservedBits
  /-- not exactly one 32-bit word (R88) -/
  | notOneWord
deriving DecidableEq, Repr

/-- A command of an opcode without an immediate: bits 31:8 must be 0 (R84). -/
def plainCommand (w : Word) (i : Instr) : Except IllegalWord Instr :=
  if w.extractLsb' 8 24 = 0 then .ok i else .error .reservedBits

/-- Decoding is total on every 32-bit word (R84). -/
def decode (w : Word) : Except IllegalWord Instr :=
  let op := opField w
  if op = 0x22 then
    if w.extractLsb' 10 22 = 0 then .ok (.setMode (Mode.ofBits (modeField w))) else .error .reservedBits
  else if op = 0x00 then plainCommand w .nop
  else if op = 0x01 then plainCommand w .reset
  else if op = 0x10 then plainCommand w .process
  else if op = 0x11 then plainCommand w .spectrum
  else if op = 0x20 then plainCommand w .setBw
  else if op = 0x21 then plainCommand w .setSquelch
  else if op = 0x23 then plainCommand w .setAgcTarget
  else if op = 0x24 then plainCommand w .setAgcAttack
  else if op = 0x25 then plainCommand w .setAgcDecay
  else if op = 0x26 then plainCommand w .setFftSize
  else if op = 0x27 then plainCommand w .setAvg
  else .error .unknownOpcode

/-- A word from its four byte lanes, lane 0 the least significant (R52). -/
def wordOfBytes (b0 b1 b2 b3 : Byte) : Word := b3 ++ b2 ++ b1 ++ b0

/-- Byte lane `n` of a word (R52). -/
def laneOf (w : Word) (n : Nat) : Byte := w.extractLsb' (8 * n) 8

/-- Decoding of the bytes of a `CMD` write: a command is exactly one 32-bit word (R88). -/
def decodeBytes : List Byte → Except IllegalWord Instr
  | [b0, b1, b2, b3] => decode (wordOfBytes b0 b1 b2 b3)
  | _ => .error .notOneWord

/-- The bytes of a word on the port's lanes, lane 0 first (R52). -/
def lanes (w : Word) : List Byte := [laneOf w 0, laneOf w 1, laneOf w 2, laneOf w 3]

/-- What the decoder reads from a table word of `nbits` bits: the bits above `nbits` are 0. -/
def decodeTableWord (nbits w : Nat) : Option Instr :=
  (decodeBytes (lanes (BitVec.ofNat 32 (w % 2 ^ nbits)))).toOption

/-! ## Encoding -/

/-- The word of a command (R83): the opcode, and SET_MODE's mode in bits 9:8. -/
def encode : Instr → Word
  | .nop => 0x00000000
  | .reset => 0x00000001
  | .process => 0x00000010
  | .spectrum => 0x00000011
  | .setBw => 0x00000020
  | .setSquelch => 0x00000021
  | .setMode m => 0x00000022 ||| (m.bits.zeroExtend 32 <<< 8)
  | .setAgcTarget => 0x00000023
  | .setAgcAttack => 0x00000024
  | .setAgcDecay => 0x00000025
  | .setFftSize => 0x00000026
  | .setAvg => 0x00000027

/-! ## The opcode map of R83, as the spec lists it -/

/-- One row of R83. -/
structure OpcodeRow where
  mnemonic : String
  matchBits : Word
  mask : Word
deriving DecidableEq, Repr

/-- R83's rows, in its order. -/
def opcodeMap : List OpcodeRow :=
  [ ⟨"NOP", 0x00000000, 0xFFFFFFFF⟩, ⟨"RESET", 0x00000001, 0xFFFFFFFF⟩, ⟨"PROCESS", 0x00000010, 0xFFFFFFFF⟩,
    ⟨"SPECTRUM", 0x00000011, 0xFFFFFFFF⟩, ⟨"SET_BW", 0x00000020, 0xFFFFFFFF⟩,
    ⟨"SET_SQUELCH", 0x00000021, 0xFFFFFFFF⟩, ⟨"SET_MODE", 0x00000022, 0xFFFFFCFF⟩,
    ⟨"SET_AGC_TARGET", 0x00000023, 0xFFFFFFFF⟩, ⟨"SET_AGC_ATTACK", 0x00000024, 0xFFFFFFFF⟩,
    ⟨"SET_AGC_DECAY", 0x00000025, 0xFFFFFFFF⟩, ⟨"SET_FFT_SIZE", 0x00000026, 0xFFFFFFFF⟩,
    ⟨"SET_AVG", 0x00000027, 0xFFFFFFFF⟩ ]

/-- The row of a command. -/
def Instr.mnemonic : Instr → String
  | .nop => "NOP"
  | .reset => "RESET"
  | .process => "PROCESS"
  | .spectrum => "SPECTRUM"
  | .setBw => "SET_BW"
  | .setSquelch => "SET_SQUELCH"
  | .setMode _ => "SET_MODE"
  | .setAgcTarget => "SET_AGC_TARGET"
  | .setAgcAttack => "SET_AGC_ATTACK"
  | .setAgcDecay => "SET_AGC_DECAY"
  | .setFftSize => "SET_FFT_SIZE"
  | .setAvg => "SET_AVG"

end Sys2Proof
end

