-- ==== Sys2Proof/Machine/Instance.lean ====
section
/-! DEFINITION. The instance of the block: its `NUM` (spec/00_scope.md R7), free among those under which the
reference instance is one at all, and the test that parameters are those of an instance (R5, R6;
spec/70_reset_and_hazards.md R261; spec/93 U8). -/

namespace Sys2Proof

/-- A `NUM` under which the reference instance is an SDR-DSP block: its reset tap sum is one R101 accepts (R261). The
defaults only show that there is such a `NUM`; no rule uses them. -/
structure Launch where
  num : Numerics :=
    { sin := fun _ => 0, cos := fun _ => Config.ONE, atan2 := fun _ _ => 0, log10 := fun _ => 0, pow10 := fun _ => 0 }
  tapSumOk : Config.reference.rstTapSumOk num = true := by decide +kernel
deriving Inhabited

/-- The instance's `NUM`, a free constant: nothing is known of it but what `Launch` says (log entries 3 and 5). -/
opaque Config.launch : Launch

/-- The instance's `NUM` (R7). -/
def Config.num : Numerics := Config.launch.num

/-- The parameters are those of an SDR-DSP block under this `NUM`: they keep R5 and R6, and the reset bandwidth's tap
sum is one R101 accepts (R261). For the reference instance `Config.launch` says so already, and nothing is left to
compute. -/
def Params.isInstance (p : Params) : Bool :=
  p.wellFormed && (decide (p = Config.reference) || p.rstTapSumOk Config.num)

end Sys2Proof
end

