-- ==== Sys2Proof/Machine/State.lean ====
section
/-! DEFINITION. The state of the block (spec/10_state.md R20-R45), the accesses waiting at its slave port, why a step
can stop, and the state after power-on reset. -/

namespace Sys2Proof.Machine

/-- The host's two execution contexts (R247). The block cannot tell them apart; the launch rules of R266 can. -/
inductive Agent where
  | feed
  | reader
deriving DecidableEq, Repr

/-- The width of an access in bytes; only four bytes are legal (R53). -/
inductive Width where
  | b1
  | b2
  | b4
  | b8
deriving DecidableEq, Repr

/-- One event at the block's boundary: `MemRead(addr, size)` or `MemWrite(addr, size, v)` of an agent at a host
address (R50, R67, R68), or the platform's reset input (R260). A write of a width other than four bytes is dropped
whatever its data (R53), so only 32 bits of data are carried. -/
inductive Request where
  | read (agent : Agent) (addr : Nat) (width : Width)
  | write (agent : Agent) (addr : Nat) (width : Width) (data : Word)
  | powerOn
deriving DecidableEq, Repr

/-- The words of the IN_BUF window that hold a value (R35, R47), as byte lanes: (offset, byte), offsets strictly
rising. An offset that is not listed holds no value. -/
abbrev Memory := List Host.Cell

structure State where
  /-- the instance: R5, R6 and P_BASE (R50). Read-only (R22) -/
  params : Params
  /-- CMD_ARG (R24) -/
  cmdArg : Word
  /-- STATUS (R25) -/
  status : Word
  /-- ERR_CODE bits 7:0; bits 31:8 read 0 (R26) -/
  errCode : BitVec 8
  /-- ERR_INFO (R26) -/
  errInfo : Word
  /-- BATCH_LEN (R27) -/
  batchLen : Word
  /-- CFG_BW (R28) -/
  cfgBw : Word
  /-- CFG_SQ_DB (R28) -/
  cfgSqDb : F32
  /-- CFG_SQ_THR (R28, R38) -/
  cfgSqThr : F32
  /-- CFG_MODE bits 1:0 (R28, R120) -/
  cfgMode : Mode
  /-- CFG_AGC_TARGET (R28) -/
  cfgAgcTarget : F32
  /-- CFG_AGC_ATTACK (R28) -/
  cfgAgcAttack : F32
  /-- CFG_AGC_DECAY (R28) -/
  cfgAgcDecay : F32
  /-- CFG_FFT_SIZE (R28); WIN and TW are functions of it (R40) -/
  cfgFftSize : Word
  /-- CFG_AVG_ALPHA (R28) -/
  cfgAvgAlpha : F32
  /-- H, the tap file (R33) -/
  taps : List F32
  /-- DL, the delay line, newest first (R34) -/
  delay : List Sample
  /-- IN, the input batch buffer (R35, R47) -/
  inBuf : Memory
  /-- CNT (R36) -/
  cnt : Word
  /-- FM_VALID (R36) -/
  fmValid : Bool
  /-- FM_PREV (R36) -/
  fmPrev : Sample
  /-- G, the AGC gain (R37) -/
  gain : F32
  /-- FIFO, oldest first (R39) -/
  fifo : List F32
  /-- AVG (R41) -/
  avg : List F32
  /-- WF, the valid rows only, row 0 first (R42); WF_ROWS is its length -/
  wf : List (List F32)
  /-- SNAP_SPEC (R43) -/
  snapSpec : List F32
  /-- SNAP_WF (R43) -/
  snapWf : List F32
  /-- SNAP_BINS_V (R43) -/
  snapBins : Word
  /-- SNAP_ROWS_V (R43) -/
  snapRows : Word
  /-- the model's own: the events that have arrived and wait, in arrival order (R60, R61) -/
  pending : List Request
  /-- the model's own: the words the port has returned to reads, and to whom, newest first (R68) -/
  responses : List (Agent × Word)
  /-- the model's own: the number of the next free draw for IN words without a value (R47) -/
  draws : Nat
deriving DecidableEq, Repr

/-- Why a step stops without a meaning for what the machine would do. -/
inductive Fault where
  /-- Raised by PROCESS and SPECTRUM when they read an IN word that holds no value: R47, R251 and spec/93 U1 make
  this read a fault of the launch. Safe: the hardware goes on with unspecified bits. -/
  | unwrittenInput
deriving DecidableEq, Repr

/-- Why a step is not taken. -/
inductive Refusal where
  /-- Raised by `exec` for a command that has no meaning yet. Safe. -/
  | notModelled (mnemonic : String)
  /-- Raised by `step` when the parameters break R5 or R6, or give a reset tap sum R101 rejects (R251, R261, spec/93
  U8): such an instance is not an SDR-DSP block. Safe. -/
  | invalidInstance
  /-- Raised by `step` for a READER write to CMD, CMD_ARG, BATCH_LEN or IN_BUF: the spec gives the READER no such
  move (R266, spec/93 U5). Safe: the hardware would perform the write. -/
  | readerWritesFeedLocation
  /-- Raised by `step` for an access whose host address is not in the block's 8 MiB from P_BASE (R50): it is no
  access to the block, so no move of it (R251). Safe. -/
  | outsideBlock
deriving DecidableEq, Repr

/-- The state right after power-on reset of the instance `p` (R45, R261): IN holds no value. -/
def State.powerOn (num : Numerics) (p : Params) : State :=
  { params := p
    cmdArg := 0, status := 0, errCode := 0, errInfo := 0, batchLen := 0
    cfgBw := p.pRstBw, cfgSqDb := p.pRstSqDb, cfgSqThr := sqThreshold num p.pRstSqDb, cfgMode := p.pRstMode
    cfgAgcTarget := p.pRstAgcTarget, cfgAgcAttack := p.pRstAgcAttack, cfgAgcDecay := p.pRstAgcDecay
    cfgFftSize := p.pRstFftSize, cfgAvgAlpha := p.pRstAlpha
    taps := tapGen num p p.pRstBw
    delay := List.replicate p.pNtaps ⟨0, 0⟩
    inBuf := []
    cnt := 0, fmValid := false, fmPrev := ⟨0, 0⟩
    gain := Config.ONE
    fifo := []
    avg := List.replicate (p.pRstFftSize.toNat / 2) 0
    wf := []
    snapSpec := List.replicate (p.pFftMax / 2) 0
    snapWf := List.replicate (p.pWfDepth * (p.pFftMax / 2)) 0
    snapBins := BitVec.ofNat 32 (p.pRstFftSize.toNat / 2), snapRows := 0
    pending := [], responses := [], draws := 0 }

/-- The machine right after reset: the reference instance (R5, R6) after power-on reset (R45), idle, with no access
waiting (R263). The model's own fields start empty and at 0 (DESIGN CHOICE, log entries 1 and 4). -/
def State.reset : State := State.powerOn Config.num Config.reference

end Sys2Proof.Machine
end

