-- ==== Sys2Proof/Machine/Flags.lean ====
section
/-! DEFINITION. STATUS and the error codes (spec/10_state.md R25, R26; spec/60_exceptions.md R231, R236). -/

namespace Sys2Proof.Machine

/-! The bits of STATUS (R25). -/

def CMD_ERR : Word := 0x00000001
def CFG_ERR : Word := 0x00000002
def BUS_ERR : Word := 0x00000004
def AUDIO_OVF : Word := 0x00000100
def AUDIO_UDF : Word := 0x00000200

/-- STATUS[2:0], the error class bits (R25, R232). -/
def errorBits : Word := 0x00000007

/-- The defined bits of STATUS, which are its W1C bits (R212). -/
def definedBits : Word := 0x00000307

/-- The error codes of R236. -/
inductive ErrCode where
  | illegalCmd
  | badBatchLen
  | badBw
  | badTapsum
  | badSquelch
  | badAgcTarget
  | badAgcAttack
  | badAgcDecay
  | badFftSize
  | badAlpha
  | busUnmapped
  | busMisaligned
  | busWidth
  | busRoWrite
deriving DecidableEq, Repr

/-- The number ERR_CODE holds for a code (R236). -/
def ErrCode.num : ErrCode → BitVec 8
  | .illegalCmd => 1
  | .badBatchLen => 2
  | .badBw => 3
  | .badTapsum => 4
  | .badSquelch => 5
  | .badAgcTarget => 6
  | .badAgcAttack => 7
  | .badAgcDecay => 8
  | .badFftSize => 9
  | .badAlpha => 10
  | .busUnmapped => 16
  | .busMisaligned => 17
  | .busWidth => 18
  | .busRoWrite => 19

/-- The STATUS bit of a code's class (R231, R236). -/
def ErrCode.classBit : ErrCode → Word
  | .illegalCmd => CMD_ERR
  | .badBatchLen => CFG_ERR
  | .badBw => CFG_ERR
  | .badTapsum => CFG_ERR
  | .badSquelch => CFG_ERR
  | .badAgcTarget => CFG_ERR
  | .badAgcAttack => CFG_ERR
  | .badAgcDecay => CFG_ERR
  | .badFftSize => CFG_ERR
  | .badAlpha => CFG_ERR
  | .busUnmapped => BUS_ERR
  | .busMisaligned => BUS_ERR
  | .busWidth => BUS_ERR
  | .busRoWrite => BUS_ERR

/-- No error is pending: STATUS[2:0] is zero (R232). -/
def State.noError (s : State) : Bool := decide (s.status &&& errorBits = 0)

/-- What STATUS reads: its reserved bits read 0 (R25). -/
def State.statusWord (s : State) : Word := s.status &&& definedBits

end Sys2Proof.Machine
end

