-- ==== Sys2Proof/Machine/Ops.lean ====
section
/-! DEFINITION. The operations the commands and the port share: the byte lanes of IN (spec/10_state.md R35, R47),
recording an error and clearing it (spec/60_exceptions.md R232, R242), reset (spec/70_reset_and_hazards.md R261), the
audio FIFO (spec/43_process.md R163, R165) and the snapshot (spec/44_spectrum.md R193). -/

namespace Sys2Proof.Machine

/-! ## IN: a list of (offset, byte), offsets strictly rising -/

/-- The canonical form: offsets strictly rising. An unlisted offset holds no value, so every listed one differs. -/
abbrev Memory.wf (m : Memory) : Prop := m.Pairwise fun a b => a.1 < b.1

/-- The byte at offset `a`, if it holds a value. -/
def Memory.readByte : Memory → Nat → Option Byte
  | [], _ => none
  | c :: m, a => if c.1 = a then some c.2 else Memory.readByte m a

/-- The memory with the byte at offset `a` set to `b`. -/
def Memory.writeByte : Memory → Nat → Byte → Memory
  | [], a, b => [(a, b)]
  | c :: m, a, b =>
    if a < c.1 then (a, b) :: c :: m
    else if c.1 = a then (a, b) :: m
    else c :: Memory.writeByte m a b

/-- The word at offset `a`, byte lane `n` at `a + n` (R52), if it holds a value. -/
def Memory.readWord (m : Memory) (a : Nat) : Option Word :=
  match m.readByte a, m.readByte (a + 1), m.readByte (a + 2), m.readByte (a + 3) with
  | some b0, some b1, some b2, some b3 => some (wordOfBytes b0 b1 b2 b3)
  | _, _, _, _ => none

/-- The memory with the whole word at offset `a` replaced (R52, R60). -/
def Memory.writeWord (m : Memory) (a : Nat) (w : Word) : Memory :=
  (((m.writeByte a (laneOf w 0)).writeByte (a + 1) (laneOf w 1)).writeByte (a + 2) (laneOf w 2)).writeByte (a + 3)
    (laneOf w 3)

/-- The offset of `IN[j].re`; `IN[j].im` stands 4 above it (R35). -/
def inOffset (j : Nat) : Nat := 0x100000 + 8 * j

/-! ## Errors: recording (R232) and the clearing that ends one (R212, R242) -/

/-- Record an error event: the first one since STATUS[2:0] was zero is captured (R232). This is all a rejected
command or access does (R230, R241). -/
def State.record (s : State) (c : ErrCode) (info : Word) : State :=
  { s with
    status := s.status ||| c.classBit
    errCode := if s.noError then c.num else s.errCode
    errInfo := if s.noError then info else s.errInfo }

/-- CLEAR: the W1C write of `v` to STATUS (R212). -/
def State.clear (s : State) (v : Word) : State :=
  let st := s.status &&& ~~~(v &&& definedBits)
  { s with
    status := st
    errCode := if st &&& errorBits = 0 then 0 else s.errCode
    errInfo := if st &&& errorBits = 0 then 0 else s.errInfo }

/-! ## Reset -/

/-- RESET_SEQUENCE (R261) for a caller that keeps IN or not. The model's own fields are kept. -/
def State.resetSequence (num : Numerics) (keepIn : Bool) (s : State) : State :=
  { State.powerOn num s.params with
    inBuf := if keepIn then s.inBuf else []
    pending := s.pending
    responses := s.responses
    draws := s.draws }

/-! ## The audio FIFO -/

/-- FIFO_APPEND(a): append, then cut to the newest P_AUDIO_LIMIT samples (R163); AUDIO_OVF is set if a sample was
dropped (R164). -/
def State.fifoAppend (s : State) (a : List F32) : State :=
  let all := s.fifo ++ a
  { s with
    fifo := all.drop (all.length - s.params.pAudioLimit)
    status := if s.params.pAudioLimit < all.length then s.status ||| AUDIO_OVF else s.status }

/-- What POP leaves: the FIFO without its oldest sample, or AUDIO_UDF set if it was empty (R165). -/
def State.popped (s : State) : State :=
  { s with
    fifo := s.fifo.tail
    status := if s.fifo = [] then s.status ||| AUDIO_UDF else s.status }

/-- What POP returns: the oldest sample, or +0.0 (R165). -/
def State.popWord (s : State) : Word := s.fifo.headD 0

/-! ## The spectrum's views -/

/-- F = CFG_FFT_SIZE and B = F/2 (spec/44_spectrum.md, preamble). -/
def State.fftSize (s : State) : Nat := s.cfgFftSize.toNat
def State.bins (s : State) : Nat := s.fftSize / 2

/-- WIN and TW, functions of CFG_FFT_SIZE and `NUM` (R40). -/
def State.win (num : Numerics) (s : State) : List F32 := winGen num s.fftSize
def State.tw (num : Numerics) (s : State) : List Sample := twGen num s.fftSize

/-- WF_ROWS (R42). -/
def State.wfRows (s : State) : Nat := s.wf.length

/-- `dst` with its first words replaced by `src`. -/
def overwrite (src dst : List F32) : List F32 := src ++ dst.drop src.length

/-- SNAP: one atomic copy of AVG and the valid waterfall rows (R193). Words past the copy keep what they held. -/
def State.snapshot (s : State) : State :=
  { s with
    snapBins := BitVec.ofNat 32 s.bins
    snapRows := BitVec.ofNat 32 s.wfRows
    snapSpec := overwrite s.avg s.snapSpec
    snapWf := overwrite s.wf.flatten s.snapWf }

/-- The next free draw (R47, spec/93 U2). -/
def State.nextDraw (s : State) : State := { s with draws := s.draws + 1 }

end Sys2Proof.Machine
end

