-- ==== Sys2Proof/Machine/Operands.lean ====
section
/-! DEFINITION. The operand forms of R81: CMD_ARG as an unsigned integer or as a binary32 value, BATCH_LEN, and the
samples IN[start], IN[start+1], … a data-path command consumes. -/

namespace Sys2Proof.Machine

/-- `CMD_ARG` as a u32 (R81). -/
def State.argU32 (s : State) : Nat := s.cmdArg.toNat

/-- `f32(CMD_ARG)` (R81). -/
def State.argF32 (s : State) : F32 := s.cmdArg

/-- The batch length L (R81). -/
def State.batch (s : State) : Nat := s.batchLen.toNat

/-- `IN[j]`, if both of its words hold a value (R35, R47). -/
def Memory.sample (m : Memory) (j : Nat) : Option Sample :=
  match m.readWord (inOffset j), m.readWord (inOffset j + 4) with
  | some re, some im => some ⟨re, im⟩
  | _, _ => none

/-- `IN[start .. start+n-1]`, if every word of them holds a value (R47). -/
def Memory.samples (m : Memory) : Nat → Nat → Option (List Sample)
  | _, 0 => some []
  | start, n + 1 =>
    match m.sample start, Memory.samples m (start + 1) n with
    | some x, some xs => some (x :: xs)
    | _, _ => none

end Sys2Proof.Machine
end

