-- ==== Sys2Proof/Machine/Control.lean ====
section
/-! DEFINITION. NOP and RESET (spec/45_control.md R210, R211). -/

namespace Sys2Proof.Machine

/-- NOP: nothing (R210). -/
def execNop (s : State) : Host.Outcome State Fault Refusal := .next s

/-- RESET: the reset sequence, keeping IN (R211, R261). -/
def execReset (s : State) : Host.Outcome State Fault Refusal := .next (s.resetSequence Config.num true)

end Sys2Proof.Machine
end

