-- ==== Sys2Proof/Machine/AgcSquelch.lean ====
section
/-! DEFINITION. AGC, squelch and their SET commands (spec/42_agc_squelch.md R140-R152). -/

namespace Sys2Proof.Machine

/-- BATCH_RMS(a, k) with k = |a| ≥ 1 (R140). -/
def batchRms (a : List F32) : F32 :=
  sqrtf (divf (a.foldl (fun s x => addf s (mulf x x)) 0) (u2f a.length))

/-- AGC_CLAMP(gn) for the present gain `g` (R142). -/
def agcClamp (g gn : F32) : F32 := if isNaN gn then g else clampf gn Config.GMIN Config.GMAX

/-- The gain AGC_UPDATE moves `g` to for a batch of RMS `r` (R141); unchanged unless `r > 0` (R144). -/
def agcGain (target attack decay g r : F32) : F32 :=
  if ltf 0 r then
    let tg := divf target r
    let fraction := if ltf g tg then attack else decay
    agcClamp g (addf g (mulf fraction (subf tg g)))
  else g

/-- AGC_UPDATE(a, k) (R141): it writes G only. -/
def State.agcUpdate (s : State) (a : List F32) : State :=
  { s with gain := agcGain s.cfgAgcTarget s.cfgAgcAttack s.cfgAgcDecay s.gain (batchRms a) }

/-- AGC_SCALE(a, k) with the gain `g` (R143). -/
def agcScale (g : F32) (a : List F32) : List F32 := a.map fun x => mulf x g

/-- SQUELCH(a, k) with threshold `thr`, on the scaled batch (R145). -/
def squelch (thr : F32) (a : List F32) : List F32 :=
  if ltf (batchRms a) thr then a.map fun _ => 0 else a

/-- SET_SQUELCH (R148). -/
def setSquelch (num : Numerics) (s : State) : State :=
  let v := s.argF32
  if !legalSquelch v then s.record .badSquelch s.cmdArg
  else { s with cfgSqDb := v, cfgSqThr := sqThreshold num v }

def execSetSquelch (s : State) : Host.Outcome State Fault Refusal := .next (setSquelch Config.num s)

/-- SET_AGC_TARGET (R149). -/
def execSetAgcTarget (s : State) : Host.Outcome State Fault Refusal :=
  .next (if !legalTarget s.argF32 then s.record .badAgcTarget s.cmdArg else { s with cfgAgcTarget := s.argF32 })

/-- SET_AGC_ATTACK (R150). -/
def execSetAgcAttack (s : State) : Host.Outcome State Fault Refusal :=
  .next (if !legalFraction s.argF32 then s.record .badAgcAttack s.cmdArg else { s with cfgAgcAttack := s.argF32 })

/-- SET_AGC_DECAY (R151). -/
def execSetAgcDecay (s : State) : Host.Outcome State Fault Refusal :=
  .next (if !legalFraction s.argF32 then s.record .badAgcDecay s.cmdArg else { s with cfgAgcDecay := s.argF32 })

end Sys2Proof.Machine
end

