-- ==== Sys2Proof/Machine/Demod.lean ====
section
/-! DEFINITION. The demodulator and SET_MODE (spec/41_demod.md R121-R129). -/

namespace Sys2Proof.Machine

/-- AM_OUT, the envelope detector (R123). -/
def amOut (y : Sample) : F32 :=
  let m := sqrtf (addf (mulf y.re y.re) (mulf y.im y.im))
  clamp1 (mulf Config.TWO (subf m Config.HALF))

/-- FM_OUT against the reference `p` (R124). -/
def fmDiscriminate (num : Numerics) (p y : Sample) : F32 :=
  let re := addf (mulf y.re p.re) (mulf y.im p.im)
  let im := subf (mulf y.im p.re) (mulf y.re p.im)
  clamp1 (divf (mulf Config.TEN (num.fAtan2 im re)) Config.TWO_PI)

/-- FM_OUT (R124): +0.0 while no reference exists. -/
def State.fmOut (num : Numerics) (s : State) (y : Sample) : F32 :=
  if s.fmValid then fmDiscriminate num s.fmPrev y else 0

/-- USB_OUT (R126). -/
def usbOut (y : Sample) : F32 := clamp1 (mulf Config.TWO y.re)

/-- LSB_OUT (R127). -/
def lsbOut (y : Sample) : F32 := clamp1 (mulf Config.TWO y.im)

/-- MODE_OUT(CFG_MODE, y) (R122). -/
def State.modeOut (num : Numerics) (s : State) (y : Sample) : F32 :=
  match s.cfgMode with
  | .am => amOut y
  | .fm => s.fmOut num y
  | .usb => usbOut y
  | .lsb => lsbOut y

/-- The next filtered sample is a tick: CNT, once incremented, equals P_DECIM (R121). -/
def State.atTick (s : State) : Bool := decide (s.cnt.toNat + 1 = s.params.pDecim)

/-- What DEMOD_STEP(y) returns: MODE_OUT at a tick, with the FM reference not yet updated (R121). -/
def State.demodOut (num : Numerics) (s : State) (y : Sample) : Option F32 :=
  if s.atTick then some (s.modeOut num y) else none

/-- The state DEMOD_STEP(y) leaves: CNT, and in FM mode the reference (R121, R125). -/
def State.demodNext (s : State) (y : Sample) : State :=
  { s with
    cnt := if s.atTick then 0 else s.cnt + 1
    fmValid := s.fmValid || decide (s.cfgMode = .fm)
    fmPrev := if s.cfgMode = .fm then y else s.fmPrev }

/-- SET_MODE(m) (R129): nothing if the mode is already selected. -/
def State.setMode (s : State) (m : Mode) : State :=
  if m = s.cfgMode then s
  else { s with cfgMode := m, cnt := 0, fmValid := false, fmPrev := ⟨0, 0⟩ }

def execSetMode (m : Mode) (s : State) : Host.Outcome State Fault Refusal := .next (s.setMode m)

end Sys2Proof.Machine
end

