-- ==== Sys2Proof/Machine/Filter.lean ====
section
/-! DEFINITION. The channel FIR filter and SET_BW (spec/40_filter.md R102, R106). -/

namespace Sys2Proof.Machine

/-- DL after a sample enters: every entry one step older, `x` newest (R102). -/
def shiftIn (x : Sample) (dl : List Sample) : List Sample := x :: dl.dropLast

/-- The products summed from the newest sample (k = 0) to the oldest, from +0.0 (R102). -/
def firSum : List F32 → List Sample → Sample → Sample
  | h :: hs, d :: ds, acc => firSum hs ds ⟨addf acc.re (mulf h d.re), addf acc.im (mulf h d.im)⟩
  | _, _, acc => acc

/-- The state FIR_STEP(x) leaves (R102): it writes DL only. -/
def State.firShift (s : State) (x : Sample) : State := { s with delay := shiftIn x s.delay }

/-- What FIR_STEP returns, read after the shift (R102). -/
def State.firOut (s : State) : Sample := firSum s.taps s.delay ⟨0, 0⟩

/-- SET_BW's effect on an accepted bandwidth: H rebuilt, DL zeroed, CFG_BW set (R106). -/
def State.withBw (num : Numerics) (s : State) (bw : Word) : State :=
  { s with
    taps := tapGen num s.params bw
    delay := List.replicate s.params.pNtaps ⟨0, 0⟩
    cfgBw := bw }

/-- SET_BW (R106): the range check, then the tap sum check (R239). -/
def setBw (num : Numerics) (s : State) : State :=
  let bw := s.cmdArg
  if !legalBw s.params bw then s.record .badBw bw
  else
    let S := tapSum num s.params bw
    if badTapSum S then s.record .badTapsum S
    else s.withBw num bw

def execSetBw (s : State) : Host.Outcome State Fault Refusal := .next (setBw Config.num s)

end Sys2Proof.Machine
end

