-- ==== Sys2Proof/Machine/Process.lean ====
section
/-! DEFINITION. PROCESS (spec/43_process.md R160-R162). -/

namespace Sys2Proof.Machine

/-- One turn of PROCESS's sample loop: FIR_STEP then DEMOD_STEP (R160). -/
def State.sampleNext (s : State) (x : Sample) : State :=
  (s.firShift x).demodNext (s.firShift x).firOut

/-- The audio sample of that turn, if it is a tick (R160). -/
def State.sampleOut (num : Numerics) (s : State) (x : Sample) : Option F32 :=
  (s.firShift x).demodOut num (s.firShift x).firOut

/-- The state after the sample loop over a batch (R160). -/
def State.runSamples (s : State) : List Sample → State
  | [] => s
  | x :: xs => State.runSamples (s.sampleNext x) xs

/-- The audio batch of the sample loop: the outputs at the ticks, in sample order (R161). -/
def State.audioBatch (num : Numerics) (s : State) : List Sample → List F32
  | [] => []
  | x :: xs => (s.sampleOut num x).toList ++ State.audioBatch num (s.sampleNext x) xs

/-- AGC_UPDATE, AGC_SCALE, SQUELCH and FIFO_APPEND on a non-empty audio batch; all skipped on an empty one (R160,
R162). -/
def State.deliver (s : State) (a : List F32) : State :=
  if a = [] then s
  else
    let t := s.agcUpdate a
    t.fifoAppend (squelch t.cfgSqThr (agcScale t.gain a))

/-- PROCESS on a batch whose samples hold values (R160). -/
def processSamples (num : Numerics) (xs : List Sample) (s : State) : State :=
  (s.runSamples xs).deliver (s.audioBatch num xs)

/-- PROCESS (R160): the length check, the empty batch, then the batch; an IN word without a value is a fault of the
launch (R47). -/
def process (num : Numerics) (s : State) : Host.Outcome State Fault Refusal :=
  if s.params.pMaxBatch < s.batch then .next (s.record .badBatchLen s.batchLen)
  else
    match s.inBuf.samples 0 s.batch with
    | none => .fault .unwrittenInput
    | some xs => .next (processSamples num xs s)

def execProcess (s : State) : Host.Outcome State Fault Refusal := process Config.num s

end Sys2Proof.Machine
end

