-- ==== Sys2Proof/Machine/Spectrum.lean ====
section
/-! DEFINITION. The spectrum analyser: SPECTRUM, SET_FFT_SIZE and SET_AVG (spec/44_spectrum.md R183-R192, R197,
R198). -/

namespace Sys2Proof.Machine

/-- SEGMENT_WINDOW on the newest F samples (R184). -/
def segmentWindow (win : List F32) (seg : List Sample) : List Sample :=
  List.zipWith (fun s w => ⟨mulf s.re w, mulf s.im w⟩) seg win

/-- `rev_e(i)`: the `e` low bits of `i` reversed (R185). -/
def bitRev : Nat → Nat → Nat
  | 0, _ => 0
  | e + 1, i => (i % 2) * 2 ^ e + bitRev e (i / 2)

/-- The bit-reversed permutation of a list of 2^e samples (R185). -/
def bitReverse (e : Nat) (x : List Sample) : List Sample :=
  (List.range (2 ^ e)).map fun i => x.getD (bitRev e i) ⟨0, 0⟩

/-- `W·v` in the order of R186. -/
def twiddleMul (W v : Sample) : Sample :=
  ⟨subf (mulf W.re v.re) (mulf W.im v.im), addf (mulf W.re v.im) (mulf W.im v.re)⟩

/-- BFLY(u, v, W) (R186). -/
def bfly (u v W : Sample) : Sample × Sample :=
  let t := twiddleMul W v
  (⟨addf u.re t.re, addf u.im t.im⟩, ⟨subf u.re t.re, subf u.im t.im⟩)

/-- The butterflies of one block of `2·h` samples, with twiddle `TW[j·stride]` for pair `j` (R187). Each pair is read
and written by its own butterfly only, so the block may be rebuilt at once. -/
def bflyBlock (tw : List Sample) (stride h : Nat) (blk : List Sample) : List Sample :=
  let pairs := (List.range h).map fun j =>
    bfly (blk.getD j ⟨0, 0⟩) (blk.getD (j + h) ⟨0, 0⟩) (tw.getD (j * stride) ⟨0, 0⟩)
  pairs.map Prod.fst ++ pairs.map Prod.snd

/-- One stage over `n` consecutive blocks of `2·h` samples (R187). -/
def fftStage (tw : List Sample) (stride h : Nat) : Nat → List Sample → List Sample
  | 0, _ => []
  | n + 1, x => bflyBlock tw stride h (x.take (2 * h)) ++ fftStage tw stride h n (x.drop (2 * h))

/-- The stages m = 2^(k+1), 2^(k+2), …, `left` of them, of a transform of 2^e points (R187). -/
def fftStages (tw : List Sample) (e : Nat) : Nat → Nat → List Sample → List Sample
  | _, 0, x => x
  | k, left + 1, x =>
    fftStages tw e (k + 1) left (fftStage tw (2 ^ (e - (k + 1))) (2 ^ k) (2 ^ (e - (k + 1))) x)

/-- FFT(x) on F = 2^e points (R187). -/
def fft (tw : List Sample) (e : Nat) (x : List Sample) : List Sample := fftStages tw e 0 e (bitReverse e x)

/-- The magnitude of a bin, floored (R189). -/
def binMagnitude (X : Sample) : F32 :=
  let mag := sqrtf (addf (mulf X.re X.re) (mulf X.im X.im))
  if ltf mag Config.FLOOR then Config.FLOOR else mag

/-- TO_DB (R190). -/
def toDb (num : Numerics) (X : Sample) : F32 := mulf Config.TWENTY (num.fLog10 (binMagnitude X))

/-- EMA(avg, db) (R191). -/
def ema (alpha avg db : F32) : F32 := addf (mulf (subf Config.ONE alpha) avg) (mulf alpha db)

/-- The row of dB values of a segment of F samples (R183): window, transform, the first F/2 bins in dB. -/
def dbRow (num : Numerics) (F : Nat) (seg : List Sample) : List F32 :=
  ((fft (twGen num F) F.log2 (segmentWindow (winGen num F) seg)).take (F / 2)).map (toDb num)

/-- The averages and the waterfall after one update with the row `db` (R191, R192). -/
def State.spectrumUpdate (s : State) (db : List F32) : State :=
  { s with
    avg := List.zipWith (ema s.cfgAvgAlpha) s.avg db
    wf := (db :: s.wf).take s.params.pWfDepth }

/-- SPECTRUM (R183): the length check, the undersized batch, then the update from IN[L−F .. L−1]; an IN word without
a value is a fault of the launch (R47). -/
def spectrum (num : Numerics) (s : State) : Host.Outcome State Fault Refusal :=
  if s.params.pMaxBatch < s.batch then .next (s.record .badBatchLen s.batchLen)
  else if s.batch < s.fftSize then .next s
  else
    match s.inBuf.samples (s.batch - s.fftSize) s.fftSize with
    | none => .fault .unwrittenInput
    | some seg => .next (s.spectrumUpdate (dbRow num s.fftSize seg))

def execSpectrum (s : State) : Host.Outcome State Fault Refusal := spectrum Config.num s

/-- SET_FFT_SIZE's effect on an accepted request: the size rounded up, AVG zeroed, the waterfall emptied; WIN and TW
follow the size (R197). -/
def State.withFftSize (s : State) (n : Nat) : State :=
  { s with
    cfgFftSize := BitVec.ofNat 32 (nextPow2 n)
    avg := List.replicate (nextPow2 n / 2) 0
    wf := [] }

/-- SET_FFT_SIZE (R197). -/
def execSetFftSize (s : State) : Host.Outcome State Fault Refusal :=
  .next (if !legalFftRequest s.params s.cmdArg then s.record .badFftSize s.cmdArg else s.withFftSize s.argU32)

/-- SET_AVG (R198). -/
def execSetAvg (s : State) : Host.Outcome State Fault Refusal :=
  .next (if !legalFraction s.argF32 then s.record .badAlpha s.cmdArg else { s with cfgAvgAlpha := s.argF32 })

end Sys2Proof.Machine
end

