-- ==== Sys2Proof/Machine/Dispatch.lean ====
section
/-! DEFINITION. The one dispatch from a command to its meaning (spec/30_encoding.md R83). -/

namespace Sys2Proof.Machine

def exec (i : Instr) (s : State) : Host.Outcome State Fault Refusal :=
  match i with
  | .nop => Sys2Proof.Machine.execNop s
  | .reset => Sys2Proof.Machine.execReset s
  | .process => Sys2Proof.Machine.execProcess s
  | .spectrum => Sys2Proof.Machine.execSpectrum s
  | .setBw => Sys2Proof.Machine.execSetBw s
  | .setSquelch => Sys2Proof.Machine.execSetSquelch s
  | .setMode m => Sys2Proof.Machine.execSetMode m s
  | .setAgcTarget => Sys2Proof.Machine.execSetAgcTarget s
  | .setAgcAttack => Sys2Proof.Machine.execSetAgcAttack s
  | .setAgcDecay => Sys2Proof.Machine.execSetAgcDecay s
  | .setFftSize => Sys2Proof.Machine.execSetFftSize s
  | .setAvg => Sys2Proof.Machine.execSetAvg s

end Sys2Proof.Machine
end

