-- ==== Sys2Proof/Machine/Map.lean ====
section
/-! DEFINITION. The address map (spec/20_memory.md R51; spec/10_state.md R22-R32): what stands at each aligned
offset, how it may be accessed, and what a plain read of it returns. -/

namespace Sys2Proof.Machine

/-- The memory-mapped registers, in the order of R22-R32. -/
inductive Reg where
  | id
  | version
  | pNtaps
  | pDecim
  | pFs
  | pMaxBatch
  | pFftMax
  | pWfDepth
  | pAudioCap
  | pAudioLimit
  | cmd
  | cmdArg
  | status
  | errCode
  | errInfo
  | batchLen
  | cfgBw
  | cfgSqDb
  | cfgSqThr
  | cfgMode
  | cfgAgcTarget
  | cfgAgcAttack
  | cfgAgcDecay
  | cfgFftSize
  | cfgAvgAlpha
  | stDemodCnt
  | stFmValid
  | stFmPrevI
  | stFmPrevQ
  | stAgcGain
  | stWfRows
  | audioAvail
  | audioData
  | snap
  | snapBins
  | snapWfRows
deriving DecidableEq, Repr

/-- Identification and parameter registers (R22). -/
def idRegs : List (Nat × Reg) :=
  [(0x000, .id), (0x004, .version), (0x008, .pNtaps), (0x00C, .pDecim), (0x010, .pFs), (0x014, .pMaxBatch),
    (0x018, .pFftMax), (0x01C, .pWfDepth), (0x020, .pAudioCap), (0x024, .pAudioLimit)]

/-- Command, status and batch registers (R23-R27). -/
def commandRegs : List (Nat × Reg) :=
  [(0x040, .cmd), (0x044, .cmdArg), (0x048, .status), (0x04C, .errCode), (0x050, .errInfo), (0x054, .batchLen)]

/-- Configuration registers (R28). -/
def configRegs : List (Nat × Reg) :=
  [(0x080, .cfgBw), (0x084, .cfgSqDb), (0x088, .cfgSqThr), (0x08C, .cfgMode), (0x090, .cfgAgcTarget),
    (0x094, .cfgAgcAttack), (0x098, .cfgAgcDecay), (0x09C, .cfgFftSize), (0x0A0, .cfgAvgAlpha)]

/-- Views of hidden state (R30). -/
def viewRegs : List (Nat × Reg) :=
  [(0x0C0, .stDemodCnt), (0x0C4, .stFmValid), (0x0C8, .stFmPrevI), (0x0CC, .stFmPrevQ), (0x0D0, .stAgcGain),
    (0x0D4, .stWfRows)]

/-- The audio and snapshot ports (R31, R32). -/
def portRegs : List (Nat × Reg) :=
  [(0x100, .audioAvail), (0x104, .audioData), (0x108, .snap), (0x10C, .snapBins), (0x110, .snapWfRows)]

/-- The offset of each register (R22-R32). -/
def regMap : List (Nat × Reg) := idRegs ++ commandRegs ++ configRegs ++ viewRegs ++ portRegs

/-- What an aligned offset addresses (R51, R59). -/
inductive Loc where
  | reg (r : Reg)
  /-- `H[i]` -/
  | tap (i : Nat)
  /-- `DL[k].re` -/
  | delayRe (k : Nat)
  /-- `DL[k].im` -/
  | delayIm (k : Nat)
  /-- the IN word at this offset -/
  | inWord (off : Nat)
  | snapSpec (k : Nat)
  | snapWf (j : Nat)
deriving DecidableEq, Repr

/-- The map of R51 on an aligned offset; `none` is unmapped (R55). -/
def locate (p : Params) (o : Nat) : Option Loc :=
  if o < 0x001000 then (regMap.lookup o).map .reg
  else if o < 0x002000 then
    (if (o - 0x001000) / 4 < p.pNtaps then some (.tap ((o - 0x001000) / 4)) else none)
  else if o < 0x004000 then
    (if (o - 0x002000) / 8 < p.pNtaps then
      some (if o % 8 = 0 then .delayRe ((o - 0x002000) / 8) else .delayIm ((o - 0x002000) / 8))
    else none)
  else if o < 0x100000 then none
  else if o < 0x200000 then (if (o - 0x100000) / 8 < p.pMaxBatch then some (.inWord o) else none)
  else if o < 0x300000 then
    (if (o - 0x200000) / 4 < p.pFftMax / 2 then some (.snapSpec ((o - 0x200000) / 4)) else none)
  else if o < 0x400000 then none
  else (if (o - 0x400000) / 4 < p.pWfDepth * (p.pFftMax / 2) then some (.snapWf ((o - 0x400000) / 4)) else none)

/-- Where a write may land (R24, R25, R27, R32, R35). -/
inductive Target where
  | cmd
  | cmdArg
  | status
  | batchLen
  | snap
  /-- the IN word at this offset -/
  | inWord (off : Nat)
deriving DecidableEq, Repr

/-- What a write to a location reaches; `none` for a read-only location (R56). -/
def Loc.target : Loc → Option Target
  | .reg .cmd => some .cmd
  | .reg .cmdArg => some .cmdArg
  | .reg .status => some .status
  | .reg .batchLen => some .batchLen
  | .reg .snap => some .snap
  | .inWord off => some (.inWord off)
  | _ => none

/-- The locations only FEED may write (R266). -/
def Target.feedOnly : Target → Bool
  | .cmd => true
  | .cmdArg => true
  | .batchLen => true
  | .inWord _ => true
  | .status => false
  | .snap => false

/-- A count as a register word. -/
def natWord (n : Nat) : Word := BitVec.ofNat 32 n

/-- What a plain read of a register returns (R22-R32). The write-only CMD and SNAP read 0 (R57); AUDIO_DATA reads its
oldest sample here, and the pop that goes with the read is in `memRead` (R165). -/
def State.regWord (s : State) : Reg → Word
  | .id => Config.idWord
  | .version => Config.versionWord
  | .pNtaps => natWord s.params.pNtaps
  | .pDecim => natWord s.params.pDecim
  | .pFs => natWord s.params.pFs
  | .pMaxBatch => natWord s.params.pMaxBatch
  | .pFftMax => natWord s.params.pFftMax
  | .pWfDepth => natWord s.params.pWfDepth
  | .pAudioCap => natWord s.params.pAudioCap
  | .pAudioLimit => natWord s.params.pAudioLimit
  | .cmd => 0
  | .cmdArg => s.cmdArg
  | .status => s.statusWord
  | .errCode => s.errCode.zeroExtend 32
  | .errInfo => s.errInfo
  | .batchLen => s.batchLen
  | .cfgBw => s.cfgBw
  | .cfgSqDb => s.cfgSqDb
  | .cfgSqThr => s.cfgSqThr
  | .cfgMode => s.cfgMode.bits.zeroExtend 32
  | .cfgAgcTarget => s.cfgAgcTarget
  | .cfgAgcAttack => s.cfgAgcAttack
  | .cfgAgcDecay => s.cfgAgcDecay
  | .cfgFftSize => s.cfgFftSize
  | .cfgAvgAlpha => s.cfgAvgAlpha
  | .stDemodCnt => s.cnt
  | .stFmValid => if s.fmValid then 1 else 0
  | .stFmPrevI => s.fmPrev.re
  | .stFmPrevQ => s.fmPrev.im
  | .stAgcGain => s.gain
  | .stWfRows => natWord s.wfRows
  | .audioAvail => natWord s.fifo.length
  | .audioData => s.popWord
  | .snap => 0
  | .snapBins => s.snapBins
  | .snapWfRows => s.snapRows

/-- What a read of a location returns (R59, R194, R195). An IN word without a value reads a free draw (R47). -/
def State.locWord (s : State) : Loc → Word
  | .reg r => s.regWord r
  | .tap i => s.taps.getD i 0
  | .delayRe k => (s.delay.getD k ⟨0, 0⟩).re
  | .delayIm k => (s.delay.getD k ⟨0, 0⟩).im
  | .inWord off => (s.inBuf.readWord off).getD (Config.freeWord s.draws off)
  | .snapSpec k => if k < s.snapBins.toNat then s.snapSpec.getD k 0 else 0
  | .snapWf j => if j < s.snapRows.toNat * s.snapBins.toNat then s.snapWf.getD j 0 else 0

end Sys2Proof.Machine
end

