-- ==== Sys2Proof/Machine/Port.lean ====
section
/-! DEFINITION. The slave port: `MemWrite` and `MemRead` with their checks and side effects (spec/20_memory.md
R53-R59, R67, R68), and the serving of one event that has arrived (R60, R61). -/

namespace Sys2Proof.Machine

/-- The checks every access passes first, in the order of R235: width, alignment, mapping. -/
def accessCheck (p : Params) (off : Offset) (w : Width) : Except ErrCode Loc :=
  if w ≠ .b4 then .error .busWidth
  else if off.extractLsb' 0 2 ≠ 0 then .error .busMisaligned
  else match locate p off.toNat with
    | none => .error .busUnmapped
    | some l => .ok l

/-- The checks of a write: those of every access, then that the location is not read-only (R56, R67). -/
def writeCheck (p : Params) (off : Offset) (w : Width) : Except ErrCode Target :=
  match accessCheck p off w with
  | .error c => .error c
  | .ok l => match l.target with
    | none => .error .busRoWrite
    | some t => .ok t

/-- `raise BusErr(c, addr)`: ERR_INFO is the offset as presented (R235). -/
def State.busErr (s : State) (c : ErrCode) (off : Offset) : State := s.record c (off.zeroExtend 32)

/-- `execute(w)`: decode and run the word written to CMD, or raise CmdErr(w) (R84, R85). -/
def execute (w : Word) (s : State) : Host.Outcome State Fault Refusal :=
  match decode w with
  | .ok i => exec i s
  | .error _ => .next (s.record .illegalCmd w)

/-- A write that passed its checks (R67). -/
def writeTarget (t : Target) (v : Word) (s : State) : Host.Outcome State Fault Refusal :=
  match t with
  | .cmd => execute v s
  | .cmdArg => .next { s with cmdArg := v }
  | .status => .next (s.clear v)
  | .batchLen => .next { s with batchLen := v }
  | .snap => .next s.snapshot
  | .inWord off => .next { s with inBuf := s.inBuf.writeWord off v }

/-- `MemWrite(addr, size, v)` (R67). -/
def memWrite (off : Offset) (w : Width) (v : Word) (s : State) : Host.Outcome State Fault Refusal :=
  match writeCheck s.params off w with
  | .error c => .next (s.busErr c off)
  | .ok t => writeTarget t v s

/-- The word `MemRead(addr, size)` returns (R68): 0 for an access that raises. -/
def memReadWord (off : Offset) (w : Width) (s : State) : Word :=
  match accessCheck s.params off w with
  | .error _ => 0
  | .ok l => s.locWord l

/-- The state `MemRead(addr, size)` leaves (R68): only a read of AUDIO_DATA and one that raises have a side effect
(R58). -/
def memReadNext (off : Offset) (w : Width) (s : State) : State :=
  match accessCheck s.params off w with
  | .error c => s.busErr c off
  | .ok l => if l = .reg .audioData then s.popped else s

/-- The offset of a host address in the block's 23-bit space at P_BASE (R50); `none` outside it. -/
def offsetOf (p : Params) (addr : Nat) : Option Offset :=
  if p.pBase ≤ addr ∧ addr < p.pBase + 2 ^ 23 then some (BitVec.ofNat 23 (addr - p.pBase)) else none

/-- A write the launch rules give the READER no move for (R266, spec/93 U5): one that would reach a FEED location. -/
def readerMayNot (p : Params) (a : Agent) (off : Offset) (w : Width) : Bool :=
  match a, writeCheck p off w with
  | .reader, .ok t => t.feedOnly
  | _, _ => false

/-- One event is served as one atomic step (R60); `s` no longer lists it. A write moves on to the next free draw, so
that reads of an IN word without a value agree while no write comes between them (R47, R58). -/
def serve (r : Request) (s : State) : Host.Outcome State Fault Refusal :=
  match r with
  | .read a addr w =>
    match offsetOf s.params addr with
    | none => .refused .outsideBlock
    | some off =>
      .next { memReadNext off w s with responses := (a, memReadWord off w s) :: s.responses }
  | .write a addr w v =>
    match offsetOf s.params addr with
    | none => .refused .outsideBlock
    | some off =>
      if readerMayNot s.params a off w then .refused .readerWritesFeedLocation
      else memWrite off w v s.nextDraw
  | .powerOn => .next (s.nextDraw.resetSequence Config.num false)

/-- The event that arrived first is served and taken off the list; with none waiting the block is idle (R61, R263).
An instance that is no SDR-DSP block takes no step at all (R5, R251, R261). -/
def serveNext (s : State) : Host.Outcome State Fault Refusal :=
  if s.params.isInstance then
    match s.pending with
    | [] => .next s
    | r :: rest => serve r { s with pending := rest }
  else .refused .invalidInstance

/-- The FEED's write of `w` to CMD (R23). -/
def cmdWrite (p : Params) (w : Word) : Request := .write .feed (p.pBase + 0x40) .b4 w

end Sys2Proof.Machine
end

