-- ==== Sys2Proof/Machine/FftInPlace.lean ====
section
/-! DEFINITION. R187's loops word for word, butterfly by butterfly in place: the clear form the block-wise `fft` of
Machine/Spectrum.lean is held to. No command calls it. -/

namespace Sys2Proof.Machine

/-- `(x'[b+j], x'[b+j+h]) <- BFLY(x'[b+j], x'[b+j+h], TW[j·(F/m)])` with h = m/2 (R187). -/
def bflyInPlace (tw : List Sample) (F m b : Nat) (x : List Sample) (j : Nat) : List Sample :=
  let r := bfly (x.getD (b + j) ⟨0, 0⟩) (x.getD (b + j + m / 2) ⟨0, 0⟩) (tw.getD (j * (F / m)) ⟨0, 0⟩)
  (x.set (b + j) r.1).set (b + j + m / 2) r.2

/-- `for j in 0..h−1` (R187). -/
def blockInPlace (tw : List Sample) (F m : Nat) (x : List Sample) (b : Nat) : List Sample :=
  (List.range (m / 2)).foldl (bflyInPlace tw F m b) x

/-- `for b in 0, m, 2m, ..., F−m` (R187). -/
def stageInPlace (tw : List Sample) (F : Nat) (x : List Sample) (m : Nat) : List Sample :=
  ((List.range (F / m)).map (· * m)).foldl (blockInPlace tw F m) x

/-- `m <- 2; while m <= F: …; m <- 2m` after the bit reversal, for F = 2^e (R185, R187). -/
def fftInPlace (tw : List Sample) (e : Nat) (x : List Sample) : List Sample :=
  ((List.range e).map fun k => 2 ^ (k + 1)).foldl (stageInPlace tw (2 ^ e)) (bitReverse e x)

end Sys2Proof.Machine
end

