-- ==== Sys2Proof/Safety.lean ====
section
/-! DEFINITION. The terms claims about the block use: the invariant of its states (spec/10_state.md R44), a loaded
batch (R47), what a rejected command or access leaves (spec/60_exceptions.md R232, R241), and kinds of events. -/

namespace Sys2Proof

/-- The CfgErr codes a command can raise (R237). -/
def Instr.cfgCodes : Instr → List (BitVec 8)
  | .nop => []
  | .reset => []
  | .process => [2]
  | .spectrum => [2]
  | .setBw => [3, 4]
  | .setSquelch => [5]
  | .setMode _ => []
  | .setAgcTarget => [6]
  | .setAgcAttack => [7]
  | .setAgcDecay => [8]
  | .setFftSize => [9]
  | .setAvg => [10]

end Sys2Proof

namespace Sys2Proof.Machine

/-- The well-formedness of a state between two accesses (R44), with what the other rules add to it: the derived
threshold (R146), the sizes of the arrays (R33, R34, R41-R43), the idle FM reference (R125), STATUS and the error
capture (R25, R26, R236), and the form of IN. -/
structure State.Inv (num : Numerics) (s : State) : Prop where
  /-- the parameters are those of an instance (R5, R6) -/
  params : s.params.wellFormed = true
  cnt_lt : s.cnt.toNat < s.params.pDecim
  gain_ge : lef Config.GMIN s.gain = true
  gain_le : lef s.gain Config.GMAX = true
  fifo_le : s.fifo.length ≤ s.params.pAudioLimit
  wf_le : s.wf.length ≤ s.params.pWfDepth
  bw : legalBw s.params s.cfgBw = true
  sqDb : legalSquelch s.cfgSqDb = true
  sqThr : s.cfgSqThr = sqThreshold num s.cfgSqDb
  target : legalTarget s.cfgAgcTarget = true
  attack : legalFraction s.cfgAgcAttack = true
  decay : legalFraction s.cfgAgcDecay = true
  fft : legalFftSize s.params s.cfgFftSize = true
  alpha : legalFraction s.cfgAvgAlpha = true
  /-- H is the output of TAPGEN for CFG_BW (R44) -/
  taps : s.taps = tapGen num s.params s.cfgBw
  delay_len : s.delay.length = s.params.pNtaps
  avg_len : s.avg.length = s.bins
  row_len : ∀ row ∈ s.wf, row.length = s.bins
  spec_len : s.snapSpec.length = s.params.pFftMax / 2
  snapWf_len : s.snapWf.length = s.params.pWfDepth * (s.params.pFftMax / 2)
  bins_le : s.snapBins.toNat ≤ s.params.pFftMax / 2
  rows_le : s.snapRows.toNat ≤ s.params.pWfDepth
  fm_idle : s.cfgMode ≠ .fm → s.fmValid = false ∧ s.fmPrev = ⟨0, 0⟩
  /-- the reserved bits of STATUS are never set (R25) -/
  reserved : s.status &&& ~~~definedBits = 0
  /-- the capture reads 0 while no error is pending, and otherwise holds a code of R236 (R26) -/
  capture : if s.noError then s.errCode = 0 ∧ s.errInfo = 0 else ∃ c : ErrCode, s.errCode = c.num
  in_wf : s.inBuf.wf
  /-- every byte of IN lies in the mapped words of the IN_BUF window (R51) -/
  in_window : ∀ c ∈ s.inBuf, 0x100000 ≤ c.1 ∧ c.1 < 0x100000 + 8 * s.params.pMaxBatch
  /-- a word of IN holds a value whole or not at all (R47) -/
  in_whole : ∀ a, (s.inBuf.readByte a).isSome → (s.inBuf.readWord (a / 4 * 4)).isSome

/-- The host wrote every word of `IN[start .. start+n-1]`: the launch premise of R47. -/
def State.loaded (s : State) (start n : Nat) : Prop :=
  ∀ j, start ≤ j → j < start + n → (s.inBuf.sample j).isSome

/-- `record(K, c, i)` in the words of R232: `bit` is the class bit, `code` the code. -/
def State.recorded (s : State) (bit : Word) (code : BitVec 8) (info : Word) : State :=
  { s with
    status := s.status ||| bit
    errCode := if s.status &&& 0x7 = 0 then code else s.errCode
    errInfo := if s.status &&& 0x7 = 0 then info else s.errInfo }

/-! ## The address map of R51, row by row, for aligned offsets -/

/-- The offsets of the registers (R22-R32). -/
def registerOffsets : List Nat :=
  [0x000, 0x004, 0x008, 0x00C, 0x010, 0x014, 0x018, 0x01C, 0x020, 0x024] ++
  [0x040, 0x044, 0x048, 0x04C, 0x050, 0x054] ++
  [0x080, 0x084, 0x088, 0x08C, 0x090, 0x094, 0x098, 0x09C, 0x0A0] ++
  [0x0C0, 0x0C4, 0x0C8, 0x0CC, 0x0D0, 0x0D4] ++ [0x100, 0x104, 0x108, 0x10C, 0x110]

/-- `o` is a mapped IN word: the first 8 · P_MAX_BATCH bytes of the IN_BUF range. -/
abbrev inBufWord (p : Params) (o : Nat) : Prop := 0x100000 ≤ o ∧ o < 0x200000 ∧ o < 0x100000 + 8 * p.pMaxBatch

/-- `o` lies in a mapped row of R51; every other offset is unmapped. -/
abbrev mappedOffset (p : Params) (o : Nat) : Prop :=
  o ∈ registerOffsets ∨
  (0x001000 ≤ o ∧ o < 0x002000 ∧ o < 0x001000 + 4 * p.pNtaps) ∨
  (0x002000 ≤ o ∧ o < 0x004000 ∧ o < 0x002000 + 8 * p.pNtaps) ∨
  inBufWord p o ∨
  (0x200000 ≤ o ∧ o < 0x300000 ∧ o < 0x200000 + 4 * (p.pFftMax / 2)) ∨
  (0x400000 ≤ o ∧ o < 0x800000 ∧ o < 0x400000 + 4 * (p.pWfDepth * (p.pFftMax / 2)))

/-- `o` may be written: CMD, CMD_ARG, STATUS, BATCH_LEN, SNAP and the IN words (R23-R25, R27, R32, R35); every other
mapped offset is read-only (R56). -/
abbrev writableOffset (p : Params) (o : Nat) : Prop :=
  o ∈ [0x040, 0x044, 0x048, 0x054, 0x108] ∨ inBufWord p o

/-- `o` is a location only FEED may write: CMD, CMD_ARG, BATCH_LEN and the IN words (R266). -/
abbrev feedOnlyOffset (p : Params) (o : Nat) : Prop := o ∈ [0x040, 0x044, 0x054] ∨ inBufWord p o

/-! ## Kinds of events -/

/-- The offset an event addresses, if it is an access to the block. -/
def Request.offset (p : Params) : Request → Option Offset
  | .read _ a _ => offsetOf p a
  | .write _ a _ _ => offsetOf p a
  | .powerOn => none

/-- The event is a 32-bit read of AUDIO_DATA: a POP (R87). -/
def Request.isPop (p : Params) : Request → Bool
  | .read _ a .b4 => decide (offsetOf p a = some 0x104)
  | _ => false

/-- The command an event writes to CMD, if it is a 32-bit write of a legal word there (R23). -/
def Request.command (p : Params) : Request → Option Instr
  | .write _ a .b4 w => if offsetOf p a = some 0x40 then (decode w).toOption else none
  | _ => none

/-- The event resets the block: a power-on reset or the RESET command (R260). -/
def Request.resets (p : Params) (r : Request) : Bool :=
  decide (r = .powerOn) || decide (r.command p = some .reset)

/-- The event may change AVG, the waterfall or the FFT size: SPECTRUM, SET_FFT_SIZE or a reset (R196). -/
def Request.touchesSpectrum (p : Params) (r : Request) : Bool :=
  r.resets p || decide (r.command p = some .spectrum) || decide (r.command p = some .setFftSize)

/-- The event is a write that reaches SNAP (R87). -/
def Request.isSnap (p : Params) : Request → Bool
  | .write _ a .b4 _ => decide (offsetOf p a = some 0x108)
  | _ => false

/-- The issuer of an access. -/
def Request.agent? : Request → Option Agent
  | .read a _ _ => some a
  | .write a _ _ _ => some a
  | .powerOn => none

/-- The observation of R251: no error is pending. -/
def State.clean (s : State) : Prop := s.status &&& 0x7 = 0

end Sys2Proof.Machine
end

