-- ==== Sys2Proof/Certificates/Slice0/Obligations.lean ====
section
/-! DEFINITION. The statements for the provers. Each formalises the rules its docstring names. -/

open Sys2Proof Sys2Proof.Machine

/-! ## Encoding -/

/-- Words written out from R83's patterns decode to their commands, and words of R85 to none. -/
def Obligations.SpecWordsDecode : Prop :=
  decodeTableWord 32 0x00000000 = some .nop ∧ decodeTableWord 32 0x00000001 = some .reset ∧
  decodeTableWord 32 0x00000010 = some .process ∧ decodeTableWord 32 0x00000011 = some .spectrum ∧
  decodeTableWord 32 0x00000020 = some .setBw ∧ decodeTableWord 32 0x00000022 = some (.setMode .am) ∧
  decodeTableWord 32 0x00000122 = some (.setMode .fm) ∧ decodeTableWord 32 0x00000222 = some (.setMode .usb) ∧
  decodeTableWord 32 0x00000322 = some (.setMode .lsb) ∧ decodeTableWord 32 0x00000027 = some .setAvg ∧
  decodeTableWord 32 0x000000FF = none ∧ decodeTableWord 32 0x00000002 = none ∧
  decodeTableWord 32 0x00000028 = none ∧ decodeTableWord 32 0x00000120 = none ∧
  decodeTableWord 32 0x80000010 = none ∧ decodeTableWord 32 0x00000422 = none

/-- Decoding and encoding agree in both directions, on every 32-bit word and every command, over the word and over
its byte lanes (R83, R84, R52). -/
def Obligations.DecodeIffEncode : Prop :=
  ∀ (w : Word) (i : Instr),
    (decode w = .ok i ↔ encode i = w) ∧ (decodeBytes (lanes w) = .ok i ↔ encode i = w)

/-- R83: a word is a command iff `(w & mask) == match` for that command's row, and a word that matches no row is no
command. -/
def Obligations.OpcodeMapSelectsTheCommand : Prop :=
  ∀ w : Word,
    (∀ row ∈ opcodeMap, (w &&& row.mask = row.matchBits) ↔ ∃ i, decode w = .ok i ∧ i.mnemonic = row.mnemonic) ∧
    ((∀ row ∈ opcodeMap, w &&& row.mask ≠ row.matchBits) ↔ ∃ e, decode w = .error e)

/-- R85: the words that are illegal, and what writing one to CMD does. -/
def Obligations.IllegalWordRaisesCmdErr : Prop :=
  ∀ (s : State) (w : Word),
    (w.toNat % 256 ∉ [0x00, 0x01, 0x10, 0x11, 0x20, 0x21, 0x22, 0x23, 0x24, 0x25, 0x26, 0x27] ∨
      (w.toNat % 256 ≠ 0x22 ∧ w.toNat / 256 ≠ 0) ∨ (w.toNat % 256 = 0x22 ∧ w.toNat / 1024 ≠ 0)) →
    memWrite 0x40 .b4 w s = .next (s.recorded 0x1 1 w)

/-! ## The step and the port -/

/-- A step whose event is a write of a legal command word to CMD runs exactly that command; the event is taken off
the list and the free draw moves on (R23, R60, R67; the two bookkeeping fields are the model's own, log entries 1 and
4). -/
def Obligations.StepRunsTheCommandWritten : Prop :=
  ∀ (s : State) (w : Word) (i : Instr) (rest : List Request),
    s.params.isInstance = true → s.pending = cmdWrite s.params w :: rest → decode w = .ok i →
      step s = exec i { s with pending := rest, draws := s.draws + 1 }

/-- With no event waiting the block is idle (R263), and otherwise the oldest event is served (R61): a read, a write,
unless it is the READER's and would reach a FEED location (R266), or a power-on reset. -/
def Obligations.StepServesInArrivalOrder : Prop :=
  ∀ s : State, s.params.isInstance = true →
    (s.pending = [] → step s = .next s) ∧
    (∀ (ag : Agent) (off : Offset) (w : Width) (rest : List Request),
      s.pending = .read ag (s.params.pBase + off.toNat) w :: rest →
        step s = .next { memReadNext off w { s with pending := rest } with
          responses := (ag, memReadWord off w { s with pending := rest }) :: s.responses }) ∧
    (∀ (ag : Agent) (off : Offset) (w : Width) (v : Word) (rest : List Request),
      s.pending = .write ag (s.params.pBase + off.toNat) w v :: rest →
      (ag = .feed ∨ w ≠ .b4 ∨ off.toNat % 4 ≠ 0 ∨ ¬feedOnlyOffset s.params off.toNat) →
        step s = memWrite off w v { s with pending := rest, draws := s.draws + 1 }) ∧
    (∀ rest : List Request, s.pending = .powerOn :: rest → step s = serve .powerOn { s with pending := rest })

/-- R235, R51: the bus checks, in their order, of a write and of a read, with all they record and what they return. -/
def Obligations.BusChecksInOrder : Prop :=
  ∀ (s : State) (off : Offset) (w : Width) (v : Word),
    let raised : BitVec 8 → State := fun code => s.recorded 0x4 code (off.zeroExtend 32)
    let rejected : BitVec 8 → Prop := fun code =>
      memWrite off w v s = .next (raised code) ∧ memReadNext off w s = raised code ∧ memReadWord off w s = 0
    (w ≠ .b4 → rejected 18) ∧
    (w = .b4 → off.toNat % 4 ≠ 0 → rejected 17) ∧
    (w = .b4 → off.toNat % 4 = 0 → ¬mappedOffset s.params off.toNat → rejected 16) ∧
    (w = .b4 → off.toNat % 4 = 0 → mappedOffset s.params off.toNat → ¬writableOffset s.params off.toNat →
      memWrite off w v s = .next (raised 19))

/-- R58, R51: a read of a mapped word that is no pop leaves the state alone, and a second read returns the same
word. -/
def Obligations.PlainReadsHaveNoSideEffect : Prop :=
  ∀ (s : State) (off : Offset),
    off.toNat % 4 = 0 → off ≠ 0x104 → mappedOffset s.params off.toNat →
      memReadNext off .b4 s = s ∧ memReadWord off .b4 (memReadNext off .b4 s) = memReadWord off .b4 s

/-- R22: the identification and parameter registers read their constants, refuse writes, and no step changes them. -/
def Obligations.ParameterRegistersAreConstant : Prop :=
  (∀ s : State,
    memReadWord 0x000 .b4 s = 0x53445231 ∧ memReadWord 0x004 .b4 s = 0x00010000 ∧
    memReadWord 0x008 .b4 s = BitVec.ofNat 32 s.params.pNtaps ∧
    memReadWord 0x00C .b4 s = BitVec.ofNat 32 s.params.pDecim ∧
    memReadWord 0x010 .b4 s = BitVec.ofNat 32 s.params.pFs ∧
    memReadWord 0x014 .b4 s = BitVec.ofNat 32 s.params.pMaxBatch ∧
    memReadWord 0x018 .b4 s = BitVec.ofNat 32 s.params.pFftMax ∧
    memReadWord 0x01C .b4 s = BitVec.ofNat 32 s.params.pWfDepth ∧
    memReadWord 0x020 .b4 s = BitVec.ofNat 32 s.params.pAudioCap ∧
    memReadWord 0x024 .b4 s = BitVec.ofNat 32 s.params.pAudioLimit) ∧
  (∀ (s : State) (off : Offset) (v : Word), off.toNat ≤ 0x024 → off.toNat % 4 = 0 →
    memWrite off .b4 v s = .next (s.recorded 0x4 19 (off.zeroExtend 32))) ∧
  (∀ s t : State, step s = .next t → t.params = s.params)

/-- R24, R27, R213: CMD_ARG and BATCH_LEN store any value as given and start nothing, and read it back. -/
def Obligations.OperandRegistersStoreAnyValue : Prop :=
  ∀ (s : State) (v : Word),
    memWrite 0x044 .b4 v s = .next { s with cmdArg := v } ∧
    memWrite 0x054 .b4 v s = .next { s with batchLen := v } ∧
    memReadWord 0x044 .b4 { s with cmdArg := v } = v ∧
    memReadWord 0x054 .b4 { s with batchLen := v } = v

/-- R59, R213: a write to an IN word stores all 32 bits as given, lane by lane, and changes no other byte of IN and
nothing else. -/
def Obligations.InBufWriteStoresOneWord : Prop :=
  ∀ (s : State) (j : Nat) (half : Nat) (v : Word),
    s.params.wellFormed = true → j < s.params.pMaxBatch → (half = 0 ∨ half = 4) →
    let o := 0x100000 + 8 * j + half
    ∃ m : Memory,
      memWrite (BitVec.ofNat 23 o) .b4 v s = .next { s with inBuf := m } ∧
      memReadWord (BitVec.ofNat 23 o) .b4 { s with inBuf := m } = v ∧
      (∀ n, n < 4 → m.readByte (o + n) = some (v.extractLsb' (8 * n) 8)) ∧
      (∀ a, a < o ∨ o + 4 ≤ a → m.readByte a = s.inBuf.readByte a) ∧
      (s.inBuf.wf → m.wf)

/-- R47, spec/93 U2: a host read of an IN word without a value returns the free draw, the same one until a write
comes between, and records nothing. -/
def Obligations.UnwrittenInWordReadsFreeDraw : Prop :=
  ∀ (s : State) (j half : Nat), s.params.wellFormed = true → j < s.params.pMaxBatch → (half = 0 ∨ half = 4) →
    let o := 0x100000 + 8 * j + half
    s.inBuf.readWord o = none →
    memReadWord (BitVec.ofNat 23 o) .b4 s = Config.freeWord s.draws o ∧ memReadNext (BitVec.ofNat 23 o) .b4 s = s

/-- R29: the configuration is changed only by commands: a write at 0x080-0x0A0 is an RO write, and a step whose event
is neither a write to CMD nor a reset leaves every configuration register alone. -/
def Obligations.ConfigurationChangedOnlyByCommands : Prop :=
  (∀ (s : State) (off : Offset) (v : Word), 0x080 ≤ off.toNat → off.toNat ≤ 0x0A0 → off.toNat % 4 = 0 →
    memWrite off .b4 v s = .next (s.recorded 0x4 19 (off.zeroExtend 32))) ∧
  (∀ (s t : State) (r : Request) (rest : List Request), s.pending = r :: rest → step s = .next t →
    r ≠ .powerOn → r.offset s.params ≠ some 0x40 →
      t.cfgBw = s.cfgBw ∧ t.cfgSqDb = s.cfgSqDb ∧ t.cfgSqThr = s.cfgSqThr ∧ t.cfgMode = s.cfgMode ∧
      t.cfgAgcTarget = s.cfgAgcTarget ∧ t.cfgAgcAttack = s.cfgAgcAttack ∧ t.cfgAgcDecay = s.cfgAgcDecay ∧
      t.cfgFftSize = s.cfgFftSize ∧ t.cfgAvgAlpha = s.cfgAvgAlpha)

/-- R246, R247, R266: whatever the READER does, the stream's state is as it was; and a READER write that would reach
a FEED location is no move of the model (spec/93 U5). -/
def Obligations.ReaderCannotDisturbTheStream : Prop :=
  (∀ (s t : State) (r : Request) (rest : List Request), s.pending = r :: rest → r.agent? = some .reader →
    step s = .next t →
      t = { s with
        fifo := t.fifo, status := t.status, errCode := t.errCode, errInfo := t.errInfo, snapSpec := t.snapSpec
        snapWf := t.snapWf, snapBins := t.snapBins, snapRows := t.snapRows
        pending := rest, responses := t.responses, draws := t.draws }) ∧
  (∀ (s : State) (off : Offset) (v : Word) (rest : List Request), s.params.isInstance = true →
    s.pending = .write .reader (s.params.pBase + off.toNat) .b4 v :: rest →
    off.toNat % 4 = 0 → feedOnlyOffset s.params off.toNat →
    step s = .refused .readerWritesFeedLocation)

/-! ## Errors -/

/-- R212: the W1C write to STATUS. -/
def Obligations.StatusWriteClears : Prop :=
  ∀ (s : State) (v : Word),
    let st := s.status &&& ~~~(v &&& 0x307)
    memWrite 0x048 .b4 v s =
      .next { s with
        status := st
        errCode := if st &&& 0x7 = 0 then 0 else s.errCode
        errInfo := if st &&& 0x7 = 0 then 0 else s.errInfo }

/-- R241, R237: a command that raises a CfgErr has changed nothing else, and raises one of its own codes. -/
def Obligations.RejectedCommandsArePrecise : Prop :=
  ∀ (i : Instr) (s t : State), exec i s = .next t → s.status &&& 0x2 = 0 → t.status &&& 0x2 ≠ 0 →
    ∃ code info, code ∈ i.cfgCodes ∧ t = s.recorded 0x2 code info

/-- R237, R231, R240: no command but RESET changes CMD_ERR, BUS_ERR or AUDIO_UDF, and RESET clears them (R45). -/
def Obligations.CommandsRaiseOnlyCfgErrAndOverflow : Prop :=
  ∀ (i : Instr) (s t : State), exec i s = .next t →
    (i ≠ .reset → t.status &&& 0x205 = s.status &&& 0x205) ∧ (i = .reset → t.status &&& 0x205 = 0)

/-- R232, R243: while an error is pending, no step but a reset or a write to STATUS changes the capture, and the
pending class bits stay set. -/
def Obligations.FirstErrorCaptureIsKept : Prop :=
  ∀ (s t : State) (r : Request) (rest : List Request), s.pending = r :: rest → step s = .next t →
    r.resets s.params = false → r.offset s.params ≠ some 0x48 → s.status &&& 0x7 ≠ 0 →
      t.errCode = s.errCode ∧ t.errInfo = s.errInfo ∧ (s.status &&& 0x7) &&& ~~~t.status = 0

/-! ## Control commands -/

/-- R210: NOP changes nothing. -/
def Obligations.NopChangesNothing : Prop := ∀ s : State, exec .nop s = .next s

/-- R45, R211, R261: what RESET and a power-on reset leave, item by item. IN is kept by the command and emptied by
the power-on reset. -/
def Obligations.ResetGivesTheResetValues : Prop :=
  ∀ s : State,
    let after : Memory → List Request → Nat → State := fun m waiting d =>
      { params := s.params
        cmdArg := 0, status := 0, errCode := 0, errInfo := 0, batchLen := 0
        cfgBw := s.params.pRstBw, taps := tapGen Config.num s.params s.params.pRstBw
        delay := List.replicate s.params.pNtaps ⟨0, 0⟩
        cfgSqDb := s.params.pRstSqDb
        cfgSqThr := Config.num.fPow10 (divf s.params.pRstSqDb 0x41A00000)
        cfgMode := s.params.pRstMode, cnt := 0, fmValid := false, fmPrev := ⟨0, 0⟩
        cfgAgcTarget := s.params.pRstAgcTarget, cfgAgcAttack := s.params.pRstAgcAttack
        cfgAgcDecay := s.params.pRstAgcDecay, gain := 0x3F800000, fifo := []
        cfgFftSize := s.params.pRstFftSize, cfgAvgAlpha := s.params.pRstAlpha
        avg := List.replicate (s.params.pRstFftSize.toNat / 2) 0, wf := []
        snapSpec := List.replicate (s.params.pFftMax / 2) 0
        snapWf := List.replicate (s.params.pWfDepth * (s.params.pFftMax / 2)) 0
        snapBins := BitVec.ofNat 32 (s.params.pRstFftSize.toNat / 2), snapRows := 0
        inBuf := m, pending := waiting, responses := s.responses, draws := d }
    exec .reset s = .next (after s.inBuf s.pending s.draws) ∧
    (∀ rest, s.params.isInstance = true → s.pending = .powerOn :: rest →
      step s = .next (after [] rest (s.draws + 1)))

/-! ## Configuration commands: complete result, accepted and rejected -/

/-- R129: SET_MODE. -/
def Obligations.SetModeResetsTheDemodulator : Prop :=
  ∀ (m : Mode) (s : State),
    (m ≠ s.cfgMode →
      exec (.setMode m) s = .next { s with cfgMode := m, cnt := 0, fmValid := false, fmPrev := ⟨0, 0⟩ }) ∧
    (m = s.cfgMode → exec (.setMode m) s = .next s)

/-- R106, R101: SET_BW. The sum and the taps are R100's, as `TablesFollowTheirFormulas` writes them out. -/
def Obligations.SetBwRebuildsTheFilter : Prop :=
  ∀ s : State,
    (s.cmdArg = 0 ∨ s.params.pFs ≤ s.cmdArg.toNat → exec .setBw s = .next (s.recorded 0x2 3 s.cmdArg)) ∧
    (s.cmdArg ≠ 0 → s.cmdArg.toNat < s.params.pFs →
      let S := tapSum Config.num s.params s.cmdArg
      exec .setBw s = .next
        (if isNaN S ∨ isInf S ∨ keyf S ≤ 0 then s.recorded 0x2 4 S
        else { s with
          taps := tapGen Config.num s.params s.cmdArg
          delay := List.replicate s.params.pNtaps ⟨0, 0⟩
          cfgBw := s.cmdArg }))

/-- R148, R146: SET_SQUELCH accepts exactly the finite levels, whose exponent field is not all ones. -/
def Obligations.SetSquelchAcceptsFiniteLevels : Prop :=
  ∀ s : State,
    (s.cmdArg.extractLsb' 23 8 ≠ 0xFF → exec .setSquelch s = .next { s with
      cfgSqDb := s.cmdArg, cfgSqThr := Config.num.fPow10 (divf s.cmdArg 0x41A00000) }) ∧
    (s.cmdArg.extractLsb' 23 8 = 0xFF → exec .setSquelch s = .next (s.recorded 0x2 5 s.cmdArg))

/-- R149: SET_AGC_TARGET accepts exactly +0.0 to the largest finite value, and −0.0. -/
def Obligations.SetAgcTargetAcceptsNonNegativeFinite : Prop :=
  ∀ s : State,
    (s.cmdArg.toNat < 0x7F800000 ∨ s.cmdArg = 0x80000000 →
      exec .setAgcTarget s = .next { s with cfgAgcTarget := s.cmdArg }) ∧
    (¬(s.cmdArg.toNat < 0x7F800000 ∨ s.cmdArg = 0x80000000) →
      exec .setAgcTarget s = .next (s.recorded 0x2 6 s.cmdArg))

/-- R150, R151, R198: SET_AGC_ATTACK, SET_AGC_DECAY and SET_AVG accept exactly the values from 0 to 1, −0.0 among
them, and write their own register only. -/
def Obligations.FractionSettersAcceptZeroToOne : Prop :=
  ∀ s : State,
    (s.cmdArg.toNat ≤ 0x3F800000 ∨ s.cmdArg = 0x80000000 →
      exec .setAgcAttack s = .next { s with cfgAgcAttack := s.cmdArg } ∧
      exec .setAgcDecay s = .next { s with cfgAgcDecay := s.cmdArg } ∧
      exec .setAvg s = .next { s with cfgAvgAlpha := s.cmdArg }) ∧
    (¬(s.cmdArg.toNat ≤ 0x3F800000 ∨ s.cmdArg = 0x80000000) →
      exec .setAgcAttack s = .next (s.recorded 0x2 7 s.cmdArg) ∧
      exec .setAgcDecay s = .next (s.recorded 0x2 8 s.cmdArg) ∧
      exec .setAvg s = .next (s.recorded 0x2 10 s.cmdArg))

/-- R197, R182: SET_FFT_SIZE takes the smallest power of two that is at least the request, which never exceeds
P_FFT_MAX, and resets the spectrum history; a request out of range is rejected. -/
def Obligations.SetFftSizeRoundsUp : Prop :=
  ∀ s : State, s.params.wellFormed = true →
    (2 ≤ s.cmdArg.toNat → s.cmdArg.toNat ≤ s.params.pFftMax →
      ∃ e : Nat, s.cmdArg.toNat ≤ 2 ^ e ∧ (∀ k, s.cmdArg.toNat ≤ 2 ^ k → e ≤ k) ∧ 2 ^ e ≤ s.params.pFftMax ∧
        ∃ t, exec .setFftSize s = .next t ∧ t.cfgFftSize.toNat = 2 ^ e ∧
          t = { s with cfgFftSize := t.cfgFftSize, avg := List.replicate (2 ^ e / 2) 0, wf := [] }) ∧
    (s.cmdArg.toNat < 2 ∨ s.params.pFftMax < s.cmdArg.toNat →
      exec .setFftSize s = .next (s.recorded 0x2 9 s.cmdArg))

/-- R28: each configuration register is written by its own command and by RESET only. -/
def Obligations.ConfigRegisterWriters : Prop :=
  ∀ (i : Instr) (s t : State), exec i s = .next t → i ≠ .reset →
    (i ≠ .setBw → t.cfgBw = s.cfgBw ∧ t.taps = s.taps) ∧
    (i ≠ .setSquelch → t.cfgSqDb = s.cfgSqDb ∧ t.cfgSqThr = s.cfgSqThr) ∧
    ((∀ m, i ≠ .setMode m) → t.cfgMode = s.cfgMode) ∧
    (i ≠ .setAgcTarget → t.cfgAgcTarget = s.cfgAgcTarget) ∧
    (i ≠ .setAgcAttack → t.cfgAgcAttack = s.cfgAgcAttack) ∧
    (i ≠ .setAgcDecay → t.cfgAgcDecay = s.cfgAgcDecay) ∧
    (i ≠ .setFftSize → t.cfgFftSize = s.cfgFftSize) ∧
    (i ≠ .setAvg → t.cfgAvgAlpha = s.cfgAvgAlpha)

/-- R34, R36, R37, R39, R41-R43, R35: which commands write the carried state; no command writes IN or the snapshot
but RESET, which keeps IN. -/
def Obligations.CarriedStateWriters : Prop :=
  ∀ (i : Instr) (s t : State), exec i s = .next t →
    t.inBuf = s.inBuf ∧ (∀ a, t.inBuf.readByte a = s.inBuf.readByte a) ∧
    (i ≠ .reset →
      t.cmdArg = s.cmdArg ∧ t.batchLen = s.batchLen ∧
      (i ≠ .process → i ≠ .setBw → t.delay = s.delay) ∧
      (i ≠ .process → (∀ m, i ≠ .setMode m) →
        t.cnt = s.cnt ∧ t.fmValid = s.fmValid ∧ t.fmPrev = s.fmPrev) ∧
      (i ≠ .process → t.gain = s.gain ∧ t.fifo = s.fifo) ∧
      (i ≠ .spectrum → i ≠ .setFftSize → t.avg = s.avg ∧ t.wf = s.wf) ∧
      t.snapSpec = s.snapSpec ∧ t.snapWf = s.snapWf ∧ t.snapBins = s.snapBins ∧ t.snapRows = s.snapRows)

/-- R24: commands that take no operand ignore CMD_ARG: from states that differ there only, they end in states that
differ there only. RESET ends in the same state. -/
def Obligations.CmdArgIgnoredWithoutOperand : Prop :=
  ∀ (i : Instr) (s t : State) (v : Word),
    i = .nop ∨ i = .process ∨ i = .spectrum ∨ (∃ m, i = .setMode m) →
    (exec i s = .next t → exec i { s with cmdArg := v } = .next { t with cmdArg := v }) ∧
    exec .reset { s with cmdArg := v } = exec .reset s

/-! ## The filter and the demodulator -/

/-- R107: the impulse response of the filter is its tap file, exactly, for taps that are finite and none of them
−0.0 (a −0.0 tap would answer +0.0). R102: the output is the sum of the products from k = 0 up, in every state. -/
def Obligations.ImpulseResponseIsTheTapFile : Prop :=
  (∀ (s : State) (t : Nat),
    s.delay = List.replicate s.taps.length ⟨0, 0⟩ →
    (∀ h ∈ s.taps, isFinite h = true ∧ h ≠ 0x80000000) →
    ((⟨Config.ONE, 0⟩ :: List.replicate t ⟨0, 0⟩ : List Sample).foldl State.firShift s).firOut =
      ⟨s.taps.getD t 0, 0⟩) ∧
  (∀ s : State, s.firOut = (s.taps.zip s.delay).foldl
    (fun acc e => ⟨addf acc.re (mulf e.1 e.2.re), addf acc.im (mulf e.1 e.2.im)⟩) ⟨0, 0⟩)

/-- R102, R103: after a PROCESS the delay line holds the newest N of the samples seen, newest first, the older ones
those it held before. -/
def Obligations.DelayLineHoldsTheNewestSamples : Prop :=
  ∀ (s t : State) (xs : List Sample),
    s.batch ≤ s.params.pMaxBatch → s.inBuf.samples 0 s.batch = some xs → 1 ≤ s.delay.length →
    exec .process s = .next t →
      t.delay = (xs.reverse ++ s.delay).take s.delay.length ∧ xs.length = s.batch ∧
      ∀ j, j < s.batch → s.inBuf.sample j = xs[j]?

/-- R103: a batch boundary inserts no discontinuity: one PROCESS over a batch, and two over its halves, leave the
same DL, CNT and FM reference. -/
def Obligations.BatchBoundariesDoNotShow : Prop :=
  ∀ (s t t1 t2 : State) (L1 L2 : Word) (xs ys : List Sample) (m : Memory),
    s.batch = L1.toNat + L2.toNat → s.batch ≤ s.params.pMaxBatch →
    s.inBuf.samples 0 L1.toNat = some xs → s.inBuf.samples 0 s.batch = some (xs ++ ys) →
    m.samples 0 L2.toNat = some ys →
    exec .process s = .next t →
    exec .process { s with batchLen := L1 } = .next t1 →
    exec .process { t1 with batchLen := L2, inBuf := m } = .next t2 →
      t2.delay = t.delay ∧ t2.cnt = t.cnt ∧ t2.fmValid = t.fmValid ∧ t2.fmPrev = t.fmPrev

/-- R125: after a non-empty PROCESS in FM mode the reference is the last filtered sample, the filter's output on the
delay line it leaves; in the other modes it is not written. -/
def Obligations.FmReferenceIsTheLastFilteredSample : Prop :=
  ∀ s t : State, s.batch ≤ s.params.pMaxBatch → 1 ≤ s.batch → exec .process s = .next t →
    (s.cfgMode = .fm → t.fmValid = true ∧ t.fmPrev = t.firOut) ∧
    (s.cfgMode ≠ .fm → t.fmValid = s.fmValid ∧ t.fmPrev = s.fmPrev)

/-- R122: every mode's output is clamped to [−1, 1], or is a NaN. -/
def Obligations.ModeOutputIsClamped : Prop :=
  ∀ (num : Numerics) (s : State) (y : Sample),
    isNaN (s.modeOut num y) = true ∨
      (lef 0xBF800000 (s.modeOut num y) = true ∧ lef (s.modeOut num y) 0x3F800000 = true)

/-- R123, R124, R126, R127: the formula of each mode for every sample, and the corner cases the rules work out. -/
def Obligations.DemodulatorCornerCases : Prop :=
  amOut ⟨0, 0⟩ = 0xBF800000 ∧ amOut ⟨0x3F000000, 0⟩ = 0 ∧ amOut ⟨0x3E800000, 0⟩ = 0xBF000000 ∧
  amOut ⟨0x3F19999A, 0x3F4CCCCD⟩ = 0x3F800000 ∧
  usbOut ⟨0x3E99999A, 0⟩ = 0x3F19999A ∧ usbOut ⟨0x80000000, 0⟩ = 0x80000000 ∧
  lsbOut ⟨0, 0xBF19999A⟩ = 0xBF800000 ∧
  (∀ (num : Numerics) (s : State) (y : Sample), s.cfgMode = .fm → s.fmValid = false → s.modeOut num y = 0) ∧
  (∀ (num : Numerics) (s : State) (y : Sample),
    let clamped : F32 → F32 := fun x =>
      if ltf x 0xBF800000 then 0xBF800000 else if ltf 0x3F800000 x then 0x3F800000 else x
    let re := addf (mulf y.re s.fmPrev.re) (mulf y.im s.fmPrev.im)
    let im := subf (mulf y.im s.fmPrev.re) (mulf y.re s.fmPrev.im)
    let m := sqrtf (addf (mulf y.re y.re) (mulf y.im y.im))
    (s.cfgMode = .fm → s.fmValid = true →
      s.modeOut num y = clamped (divf (mulf 0x41200000 (num.fAtan2 im re)) 0x40C90FDB)) ∧
    (s.cfgMode = .am → s.modeOut num y = clamped (mulf 0x40000000 (subf m 0x3F000000))) ∧
    (s.cfgMode = .usb → s.modeOut num y = clamped (mulf 0x40000000 y.re)) ∧
    (s.cfgMode = .lsb → s.modeOut num y = clamped (mulf 0x40000000 y.im)))

/-! ## AGC, squelch and PROCESS -/

/-- R141, R142, R144, R147: one AGC update moves the gain toward `target / r` by the attack fraction when it rises and
by the decay fraction otherwise, clamps it to [GMIN, GMAX], and never moves it away. -/
def Obligations.AgcMovesTowardTheTarget : Prop :=
  ∀ target attack decay g r : F32,
    legalTarget target = true → legalFraction attack = true → legalFraction decay = true →
    lef 0x3DCCCCCD g = true → lef g 0x41200000 = true →
    let g' := agcGain target attack decay g r
    let tg := divf target r
    let gn := if ltf g tg then addf g (mulf attack (subf tg g)) else addf g (mulf decay (subf tg g))
    lef 0x3DCCCCCD g' = true ∧ lef g' 0x41200000 = true ∧
    (ltf 0 r = false → g' = g) ∧
    (ltf 0 r = true →
      (isNaN gn = true → g' = g) ∧
      (ltf gn 0x3DCCCCCD = true → g' = 0x3DCCCCCD) ∧
      (ltf 0x41200000 gn = true → g' = 0x41200000) ∧
      (lef 0x3DCCCCCD gn = true → lef gn 0x41200000 = true → g' = gn) ∧
      (ltf g tg = true → lef g g' = true) ∧
      (ltf g tg = false → lef g' g = true))

/-- R145, R152: a batch below the threshold becomes all +0.0, another is left alone, and a second SQUELCH does
nothing. R140: the RMS the threshold is held to. -/
def Obligations.SquelchMutesAndIsIdempotent : Prop :=
  ∀ (thr : F32) (a : List F32),
    batchRms a = sqrtf (divf (a.foldl (fun s x => addf s (mulf x x)) 0) (u2f a.length)) ∧
    (ltf (batchRms a) thr = true → squelch thr a = List.replicate a.length 0) ∧
    (ltf (batchRms a) thr = false → squelch thr a = a) ∧
    squelch thr (squelch thr a) = squelch thr a

/-- R163, R169: a FIFO that starts empty holds the newest P_AUDIO_LIMIT of the samples appended, oldest first. -/
def Obligations.FifoKeepsTheNewestSamples : Prop :=
  ∀ (s : State) (batches : List (List F32)), s.fifo = [] →
    let t := batches.foldl State.fifoAppend s
    t.fifo = batches.flatten.drop (batches.flatten.length - s.params.pAudioLimit)

/-- R160, R161, R130, R141, R143, R145, R163, R164: PROCESS completes on a loaded batch. It produces
`floor((c + L)/D)` audio samples, leaves CNT at `(c + L) mod D`, and when there are audio samples updates the gain
from their RMS, scales and squelches them, and appends them to the FIFO; it writes nothing else (R160, R272). The
last clause is the sample loop, turn by turn (R102, R121, R125). -/
def Obligations.ProcessCompletes : Prop :=
  (∀ s : State, s.batch ≤ s.params.pMaxBatch → s.loaded 0 s.batch → s.cnt.toNat < s.params.pDecim →
    s.params.pDecim ≤ 65535 →
    ∃ t raw, exec .process s = .next t ∧
      raw.length = (s.cnt.toNat + s.batch) / s.params.pDecim ∧
      t.cnt.toNat = (s.cnt.toNat + s.batch) % s.params.pDecim ∧
      (raw ≠ [] →
        let g := agcGain s.cfgAgcTarget s.cfgAgcAttack s.cfgAgcDecay s.gain (batchRms raw)
        let all := s.fifo ++ squelch s.cfgSqThr (raw.map fun x => mulf x g)
        t.gain = g ∧
        t.fifo = all.drop (all.length - s.params.pAudioLimit) ∧
        t.status = if s.params.pAudioLimit < all.length then s.status ||| 0x100 else s.status) ∧
      (raw = [] → t.gain = s.gain ∧ t.fifo = s.fifo ∧ t.status = s.status) ∧
      (∀ xs, s.inBuf.samples 0 s.batch = some xs → raw = s.audioBatch Config.num xs) ∧
      t = { s with
        delay := t.delay, cnt := t.cnt, fmValid := t.fmValid, fmPrev := t.fmPrev
        gain := t.gain, fifo := t.fifo, status := t.status }) ∧
  (∀ (s : State) (x : Sample) (xs : List Sample),
    let u := { s with delay := x :: s.delay.dropLast }
    let y := u.firOut
    let tick := decide (s.cnt.toNat + 1 = s.params.pDecim)
    s.audioBatch Config.num [] = [] ∧
    s.audioBatch Config.num (x :: xs) = (if tick then [u.modeOut Config.num y] else []) ++
      State.audioBatch Config.num { u with
        cnt := if tick then 0 else s.cnt + 1
        fmValid := if s.cfgMode = .fm then true else s.fmValid
        fmPrev := if s.cfgMode = .fm then y else s.fmPrev } xs)

/-- R162: a PROCESS that reaches no tick leaves G, FIFO and STATUS unchanged, and counts its samples. -/
def Obligations.ProcessWithoutTickProducesNothing : Prop :=
  ∀ s t : State, s.batch ≤ s.params.pMaxBatch → s.cnt.toNat + s.batch < s.params.pDecim →
    s.params.pDecim ≤ 65535 → exec .process s = .next t →
      t.gain = s.gain ∧ t.fifo = s.fifo ∧ t.status = s.status ∧ t.cnt.toNat = s.cnt.toNat + s.batch

/-- R234: PROCESS and SPECTRUM reject a batch length above P_MAX_BATCH; R160, R183: an empty or undersized batch is a
no-op. -/
def Obligations.BatchLengthChecks : Prop :=
  ∀ s : State,
    (s.params.pMaxBatch < s.batchLen.toNat →
      exec .process s = .next (s.recorded 0x2 2 s.batchLen) ∧
      exec .spectrum s = .next (s.recorded 0x2 2 s.batchLen)) ∧
    (s.batchLen = 0 → exec .process s = .next s) ∧
    (s.batchLen.toNat ≤ s.params.pMaxBatch → s.batchLen.toNat < s.cfgFftSize.toNat → exec .spectrum s = .next s)

/-- R47, R251: PROCESS and SPECTRUM fault exactly when a word of a sample they read holds no value. -/
def Obligations.UnwrittenInputFaults : Prop :=
  ∀ s : State, s.batch ≤ s.params.pMaxBatch →
    (exec .process s = .fault .unwrittenInput ↔
      ∃ j, j < s.batch ∧ (s.inBuf.readWord (0x100000 + 8 * j) = none ∨
        s.inBuf.readWord (0x100000 + 8 * j + 4) = none)) ∧
    (s.fftSize ≤ s.batch →
      (exec .spectrum s = .fault .unwrittenInput ↔
        ∃ j, s.batch - s.fftSize ≤ j ∧ j < s.batch ∧ (s.inBuf.readWord (0x100000 + 8 * j) = none ∨
          s.inBuf.readWord (0x100000 + 8 * j + 4) = none)))

/-! ## The audio port -/

/-- R165: POP. -/
def Obligations.PopReturnsTheOldestSample : Prop :=
  ∀ s : State,
    (s.fifo = [] → memReadWord 0x104 .b4 s = 0 ∧ memReadNext 0x104 .b4 s = { s with status := s.status ||| 0x200 }) ∧
    (∀ x rest, s.fifo = x :: rest →
      memReadWord 0x104 .b4 s = x ∧ memReadNext 0x104 .b4 s = { s with fifo := rest })

/-- R167: reading AUDIO_DATA as often as AUDIO_AVAIL said returns the FIFO, oldest first, empties it and raises
nothing. -/
def Obligations.DrainReturnsTheFifoInOrder : Prop :=
  ∀ (s : State), s.params.isInstance = true →
    s.pending = List.replicate s.fifo.length (.read .reader (s.params.pBase + 0x104) .b4) →
    Sys2Proof.core.run s.fifo.length s =
      .next { s with
        pending := [], fifo := [], responses := (s.fifo.map fun x => (Agent.reader, x)).reverse ++ s.responses }

/-- R167, R274: whatever else is interleaved, a run with no more pops than the FIFO held at its start and no reset
never underflows. -/
def Obligations.DrainNeverUnderflows : Prop :=
  ∀ (s t : State), s.params.isInstance = true → s.fifo.length ≤ s.params.pAudioLimit →
    s.pending.countP (Request.isPop s.params) ≤ s.fifo.length →
    (∀ r ∈ s.pending, r.resets s.params = false) → s.status &&& 0x200 = 0 →
    Sys2Proof.core.run s.pending.length s = .next t →
      t.status &&& 0x200 = 0 ∧ s.fifo.length - s.pending.countP (Request.isPop s.params) ≤ t.fifo.length

/-! ## The spectrum -/

/-- R185: the bit reversal of a transform of 2^e points. -/
def Obligations.BitReversalReversesTheLowBits : Prop :=
  (∀ e i k : Nat, k < e → (bitRev e i).testBit k = i.testBit (e - 1 - k)) ∧
  (∀ e i : Nat, bitRev e i < 2 ^ e) ∧
  (∀ (e i : Nat) (x : List Sample), x.length = 2 ^ e → i < 2 ^ e → (bitReverse e x)[i]? = x[bitRev e i]?) ∧
  (List.range 8).map (bitRev 3) = [0, 4, 2, 6, 1, 5, 3, 7]

/-- R187: the block-wise transform the model runs (log entry 13) is the in-place loop of the rule, butterfly by
butterfly. The last clause writes the loop out, with R186's butterfly, over the order of R185. -/
def Obligations.FftIsTheInPlaceLoop : Prop :=
  ∀ (tw : List Sample) (e : Nat) (x : List Sample),
    fft tw e x = fftInPlace tw e x ∧
    fft tw e x = (List.range e).foldl (fun x stage =>
      let m := 2 ^ (stage + 1)
      let h := m / 2
      (List.range (2 ^ e / m)).foldl (fun x block =>
        let b := block * m
        (List.range h).foldl (fun x j =>
          let u := x.getD (b + j) ⟨0, 0⟩
          let v := x.getD (b + j + h) ⟨0, 0⟩
          let W := tw.getD (j * (2 ^ e / m)) ⟨0, 0⟩
          let tr := subf (mulf W.re v.re) (mulf W.im v.im)
          let ti := addf (mulf W.re v.im) (mulf W.im v.re)
          (x.set (b + j) ⟨addf u.re tr, addf u.im ti⟩).set (b + j + h) ⟨subf u.re tr, subf u.im ti⟩) x) x)
      (bitReverse e x)

/-- R191: EMA at the ends of the fraction's range, for finite operands with a non-zero result. -/
def Obligations.EmaAtTheEndsOfItsRange : Prop :=
  ∀ avg db : F32, isFinite avg = true → isFinite db = true →
    (isZero db = false → ema 0x3F800000 avg db = db) ∧ (isZero avg = false → ema 0x00000000 avg db = avg)

/-- R183, R191, R192: SPECTRUM completes on a loaded batch of at least F samples: the row of F/2 dB values of the
newest F raw samples goes to the front of the waterfall, the averages move toward it, and nothing else is written.
The samples are windowed (R184) and transformed (R185-R187), and the first F/2 bins become dB values by their floored
magnitude (R189, R190). `TablesFollowTheirFormulas` writes out WIN and TW, `FftIsTheInPlaceLoop` the transform. -/
def Obligations.SpectrumCompletes : Prop :=
  ∀ s : State, s.batch ≤ s.params.pMaxBatch → s.fftSize ≤ s.batch → isPow2 s.fftSize = true →
    s.loaded (s.batch - s.fftSize) s.fftSize →
    let F := s.fftSize
    ∃ (x : List Sample) (row : List F32),
      x.length = F ∧
      (∀ n, n < F → ∃ v w, s.inBuf.sample (s.batch - F + n) = some v ∧ (winGen Config.num F)[n]? = some w ∧
        x[n]? = some ⟨mulf v.re w, mulf v.im w⟩) ∧
      row.length = F / 2 ∧
      (∀ k, k < F / 2 → ∃ X, (fft (twGen Config.num F) F.log2 x)[k]? = some X ∧
        let mag := sqrtf (addf (mulf X.re X.re) (mulf X.im X.im))
        let v := if ltf mag 0x2EDBE6FF then 0x2EDBE6FF else mag
        row[k]? = some (mulf 0x41A00000 (Config.num.fLog10 v))) ∧
      exec .spectrum s = .next { s with
        avg := List.zipWith (fun a d =>
          addf (mulf (subf 0x3F800000 s.cfgAvgAlpha) a) (mulf s.cfgAvgAlpha d)) s.avg row
        wf := (row :: s.wf).take s.params.pWfDepth }

/-- R199, R192: the waterfall after P_WF_DEPTH + 5 updates of an empty one: every row of it, and the rule's three
observations. -/
def Obligations.WaterfallKeepsTheNewestRows : Prop :=
  ∀ (s : State) (rows : List (List F32)), s.wf = [] → 1 ≤ s.params.pWfDepth →
    rows.length = s.params.pWfDepth + 5 →
    let t := rows.foldl State.spectrumUpdate s
    t.wf = rows.reverse.take s.params.pWfDepth ∧
    t.wfRows = s.params.pWfDepth ∧ t.wf[0]? = rows.getLast? ∧ t.wf[s.params.pWfDepth - 1]? = rows[5]?

/-- R193, R194, R195: a write to SNAP copies, and the windows then read the averaged spectrum and the waterfall, row
0 first, and 0 past the valid words; nothing but the snapshot changes. -/
def Obligations.SnapshotIsAFaithfulCopy : Prop :=
  ∀ (s : State) (v : Word), s.Inv Config.num →
    ∃ t, memWrite 0x108 .b4 v s = .next t ∧
      t = { s with snapSpec := t.snapSpec, snapWf := t.snapWf, snapBins := t.snapBins, snapRows := t.snapRows } ∧
      memReadWord 0x10C .b4 t = BitVec.ofNat 32 s.bins ∧
      memReadWord 0x110 .b4 t = BitVec.ofNat 32 s.wf.length ∧
      (∀ k, k < s.params.pFftMax / 2 →
        memReadWord (BitVec.ofNat 23 (0x200000 + 4 * k)) .b4 t = s.avg.getD k 0) ∧
      (∀ j, j < s.params.pWfDepth * (s.params.pFftMax / 2) →
        memReadWord (BitVec.ofNat 23 (0x400000 + 4 * j)) .b4 t =
          (s.wf.getD (j / s.bins) []).getD (j % s.bins) 0)

/-- R196: between two SNAPs without a SPECTRUM, SET_FFT_SIZE or reset, every read of the snapshot returns the same
word, and the second SNAP copies the same values. -/
def Obligations.SnapshotReadsAreIdempotent : Prop :=
  ∀ (s t : State), (∀ r ∈ s.pending, r.touchesSpectrum s.params = false) →
    Sys2Proof.core.run s.pending.length s.snapshot = .next t →
      (∀ k, t.locWord (.snapSpec k) = s.snapshot.locWord (.snapSpec k)) ∧
      (∀ j, t.locWord (.snapWf j) = s.snapshot.locWord (.snapWf j)) ∧
      memReadWord 0x10C .b4 t = memReadWord 0x10C .b4 s.snapshot ∧
      memReadWord 0x110 .b4 t = memReadWord 0x110 .b4 s.snapshot ∧
      t.snapBins = s.snapshot.snapBins ∧ t.snapRows = s.snapshot.snapRows ∧
      t.snapshot.snapSpec = s.snapshot.snapSpec ∧ t.snapshot.snapWf = s.snapshot.snapWf ∧
      t.snapshot.snapBins = s.snapshot.snapBins ∧ t.snapshot.snapRows = s.snapshot.snapRows

/-! ## The whole machine -/

/-- R272: one batch serves both paths: PROCESS then SPECTRUM and SPECTRUM then PROCESS leave the same state, and each
order completes when the other does. -/
def Obligations.ProcessAndSpectrumCommute : Prop :=
  ∀ s t : State,
    (∃ u, exec .process s = .next u ∧ exec .spectrum u = .next t) ↔
    (∃ u, exec .spectrum s = .next u ∧ exec .process u = .next t)

/-- R265, R45: the state after power-on reset of any instance meets the invariant, and so does the machine's reset
state. -/
def Obligations.InvariantHoldsAtReset : Prop :=
  (∀ (num : Numerics) (p : Params), p.wellFormed = true → (State.powerOn num p).Inv num) ∧
  State.reset.Inv Config.num

/-- R44: every step from a state that meets the invariant ends in one that meets it. `State.Inv` holds CFG_SQ_THR to
F_POW10 of its level; that this is no NaN and not negative is the next statement, which needs a premise on `NUM`. -/
def Obligations.EveryStepKeepsTheInvariant : Prop :=
  ∀ s t : State, s.Inv Config.num → step s = .next t → t.Inv Config.num

/-- R28: the squelch threshold is no NaN and not negative, in every state that meets the invariant. Premise on `NUM`
(R7): F_POW10 of a number is a number and not negative. -/
def Obligations.SquelchThresholdIsLegal : Prop :=
  ∀ (num : Numerics) (s : State), (∀ x : F32, isNaN x = false → lef 0 (num.fPow10 x) = true) → s.Inv num →
    isNaN s.cfgSqThr = false ∧ lef 0 s.cfgSqThr = true

/-- R5, R6, R261, spec/93 U8: parameters that break a constraint of R5, a range check of R6 or R261's requirement on
the reset tap sum are no instance, and take no step. The reference instance is one: that its tap sum is accepted is
what `Launch` says of the free `NUM` (log entry 5). -/
def Obligations.OnlyInstancesTakeSteps : Prop :=
  (∀ s : State,
    let p := s.params
    let S := tapSum Config.num p p.pRstBw
    let fraction : F32 → Prop := fun v => v.toNat ≤ 0x3F800000 ∨ v = 0x80000000
    let valid : Prop :=
      (2 ≤ p.pFs ∧ p.pFs ≤ 2 ^ 24) ∧ (32 ≤ p.pNtaps ∧ p.pNtaps ≤ 1024) ∧ (1 ≤ p.pDecim ∧ p.pDecim ≤ 65535) ∧
      (p.pFftMax ≤ p.pMaxBatch ∧ p.pMaxBatch ≤ 131072) ∧
      ((∃ e, p.pFftMax = 2 ^ e) ∧ 2 ≤ p.pFftMax ∧ p.pFftMax ≤ 131072 ∧ p.pWfDepth * (p.pFftMax / 2) ≤ 1048576) ∧
      (1 ≤ p.pWfDepth ∧ p.pWfDepth ≤ 65535) ∧ (1 ≤ p.pAudioCap ∧ p.pAudioCap ≤ 2 ^ 20) ∧
      (1 ≤ p.pAudioLimit ∧ p.pAudioLimit ≤ p.pAudioCap) ∧
      (1 ≤ p.pRstBw.toNat ∧ p.pRstBw.toNat < p.pFs) ∧ p.pRstSqDb.extractLsb' 23 8 ≠ 0xFF ∧
      (p.pRstAgcTarget.toNat < 0x7F800000 ∨ p.pRstAgcTarget = 0x80000000) ∧ fraction p.pRstAgcAttack ∧
      fraction p.pRstAgcDecay ∧
      ((∃ e, p.pRstFftSize.toNat = 2 ^ e) ∧ 2 ≤ p.pRstFftSize.toNat ∧ p.pRstFftSize.toNat ≤ p.pFftMax) ∧
      fraction p.pRstAlpha ∧ (isNaN S = false ∧ isInf S = false ∧ 0 < keyf S)
    (p.isInstance = true ↔ valid) ∧ (¬valid → step s = .refused .invalidInstance)) ∧
  State.reset.params.isInstance = true

/-! ## What a host reads -/

/-- R23, R25, R26, R28, R30-R32, R57, R166: the word a read of each register returns. -/
def Obligations.RegistersReadTheirState : Prop :=
  ∀ s : State,
    let rd : Offset → Word := fun off => memReadWord off .b4 s
    (rd 0x040 = 0 ∧ rd 0x108 = 0) ∧
    (rd 0x048 = s.status &&& 0x307 ∧ rd 0x04C = s.errCode.zeroExtend 32 ∧ rd 0x050 = s.errInfo) ∧
    (rd 0x080 = s.cfgBw ∧ rd 0x084 = s.cfgSqDb ∧ rd 0x088 = s.cfgSqThr ∧
      rd 0x08C = (match s.cfgMode with | .am => 0 | .fm => 1 | .usb => 2 | .lsb => 3) ∧
      rd 0x090 = s.cfgAgcTarget ∧ rd 0x094 = s.cfgAgcAttack ∧ rd 0x098 = s.cfgAgcDecay ∧
      rd 0x09C = s.cfgFftSize ∧ rd 0x0A0 = s.cfgAvgAlpha) ∧
    (rd 0x0C0 = s.cnt ∧ rd 0x0C4 = (if s.fmValid then 1 else 0) ∧ rd 0x0C8 = s.fmPrev.re ∧
      rd 0x0CC = s.fmPrev.im ∧ rd 0x0D0 = s.gain ∧ rd 0x0D4 = BitVec.ofNat 32 s.wf.length) ∧
    (rd 0x100 = BitVec.ofNat 32 s.fifo.length ∧ rd 0x10C = s.snapBins ∧ rd 0x110 = s.snapRows)

/-- R59, R33, R34: word i of the TAPS window reads H[i], and the two words of entry k of the DELAY window read the
parts of DL[k]. -/
def Obligations.TapsAndDelayWindowsReadTheirArrays : Prop :=
  ∀ (num : Numerics) (s : State) (k : Nat), s.Inv num → k < s.params.pNtaps →
    s.taps[k]? = some (memReadWord (BitVec.ofNat 23 (0x001000 + 4 * k)) .b4 s) ∧
    s.delay[k]? = some ⟨memReadWord (BitVec.ofNat 23 (0x002000 + 8 * k)) .b4 s,
      memReadWord (BitVec.ofNat 23 (0x002004 + 8 * k)) .b4 s⟩

/-! ## The tables -/

/-- R100, R180, R181, R13: the taps and their sum, the window and the twiddle factors, entry by entry, for every
`NUM`, parameters, bandwidth and size. -/
def Obligations.TablesFollowTheirFormulas : Prop :=
  ∀ num : Numerics,
    let hamming : Nat → Nat → F32 := fun M i =>
      subf 0x3F0A3D71 (mulf 0x3EEB851F (num.fCos (divf (mulf 0x40C90FDB (i2f i)) (i2f ((M : Int) - 1)))))
    (∀ (p : Params) (bw : Word),
      let N := p.pNtaps
      let c := divf (u2f bw.toNat) (u2f p.pFs)
      let raw : Nat → F32 := fun i =>
        let n : Int := (i : Int) - (N / 2 : Nat)
        let t := if n = 0 then mulf 0x40000000 c
          else divf (num.fSin (mulf (mulf 0x40C90FDB c) (i2f n))) (mulf 0x40490FDB (i2f n))
        mulf t (hamming N i)
      let S := (List.range N).foldl (fun S i => addf S (raw i)) 0
      tapSum num p bw = S ∧ (tapGen num p bw).length = N ∧
      ∀ i, i < N → (tapGen num p bw)[i]? = some (divf (raw i) S)) ∧
    (∀ F : Nat, (winGen num F).length = F ∧ ∀ n, n < F → (winGen num F)[n]? = some (hamming F n)) ∧
    (∀ F : Nat, (twGen num F).length = F / 2 ∧ ∀ k, k < F / 2 →
      let ang := divf (mulf 0x40C90FDB (i2f k)) (i2f F)
      let s := num.fSin ang
      (twGen num F)[k]? = some ⟨num.fCos ang, if isNaN s then s else s ^^^ 0x80000000⟩)
end

