-- ==== Sys2Proof/Laws/Numeric.lean ====
section
/-! SUPPORT. Binary32: the order of encodings, clamping, and rounding (exact on representable values, monotone). -/

namespace Sys2Proof

/-! ## Sign and magnitude -/

theorem magf_lt (a : F32) : magf a < 2 ^ 31 := Nat.mod_lt _ (by decide)

theorem toNat_eq_of_fields (a : F32) : a.toNat = magf a + if signf a then 2 ^ 31 else 0 := by
  have := a.isLt
  unfold magf signf
  by_cases h : 2 ^ 31 ≤ a.toNat
  · simp only [h, decide_true, if_true]; omega
  · simp only [h, decide_false, Bool.false_eq_true, if_false]; omega

@[simp] theorem magf_packf (s : Bool) {m : Nat} (h : m < 2 ^ 31) : magf (packf s m) = m := by
  unfold magf packf
  cases s <;> simp only [BitVec.toNat_ofNat] <;> simp <;> omega

@[simp] theorem signf_packf (s : Bool) {m : Nat} (h : m < 2 ^ 31) : signf (packf s m) = s := by
  unfold signf packf
  cases s <;> simp only [BitVec.toNat_ofNat] <;> simp <;> omega

@[simp] theorem packf_fields (a : F32) : packf (signf a) (magf a) = a := by
  apply BitVec.eq_of_toNat_eq
  have := a.isLt
  unfold packf
  rw [BitVec.toNat_ofNat, ← toNat_eq_of_fields]
  omega

/-- An encoding is its sign and its magnitude. -/
theorem eq_of_fields {a b : F32} (hs : signf a = signf b) (hm : magf a = magf b) : a = b := by
  rw [← packf_fields a, ← packf_fields b, hs, hm]

@[simp] theorem magf_negf (a : F32) : magf (negf a) = magf a := by
  unfold negf
  split
  · rfl
  unfold magf
  rw [BitVec.toNat_xor, ← Nat.and_two_pow_sub_one_eq_mod, Nat.and_xor_distrib_right,
    Nat.and_two_pow_sub_one_eq_mod]
  have : BitVec.toNat (0x80000000 : F32) &&& 2 ^ 31 - 1 = 0 := by decide
  rw [this, Nat.xor_zero]

/-- R13: `negf` passes a NaN through unchanged. -/
@[simp] theorem negf_of_isNaN {a : F32} (h : isNaN a = true) : negf a = a := by simp [negf, h]

@[simp] theorem signf_negf {a : F32} (h : isNaN a = false) : signf (negf a) = !signf a := by
  have e (a : F32) : signf a = a.getLsbD 31 := by
    have hb := a.isLt
    unfold signf
    rw [BitVec.getLsbD, Nat.testBit, Nat.shiftRight_eq_div_pow]
    by_cases h : 2 ^ 31 ≤ a.toNat
    · have : a.toNat / 2 ^ 31 = 1 := by omega
      simp only [h, this]; decide
    · have : a.toNat / 2 ^ 31 = 0 := by omega
      simp only [h, this]; decide
  rw [e, e, negf, h, if_neg (by decide), BitVec.getLsbD_xor]
  have : BitVec.getLsbD (0x80000000 : F32) 31 = true := by decide
  rw [this, Bool.xor_true]

/-! ## Order -/

theorem ltf_iff {a b : F32} : ltf a b = true ↔ isNaN a = false ∧ isNaN b = false ∧ keyf a < keyf b := by
  simp [ltf, and_assoc]

theorem lef_iff {a b : F32} : lef a b = true ↔ isNaN a = false ∧ isNaN b = false ∧ keyf a ≤ keyf b := by
  simp [lef, and_assoc]

/-- R101 accepts exactly the tap sums that are finite and positive. -/
theorem badTapSum_eq_false {S : F32} : badTapSum S = false ↔ isNaN S = false ∧ isInf S = false ∧ 0 < keyf S := by
  have h0 : keyf 0#32 = 0 := by decide
  have h1 : isNaN 0#32 = false := by decide
  cases hn : isNaN S <;> simp [badTapSum, lef, hn, h0, h1]

/-- On values that are no NaN, "not below" is "at or above". -/
theorem ltf_eq_false {a b : F32} (ha : isNaN a = false) (hb : isNaN b = false) :
    ltf a b = false ↔ keyf b ≤ keyf a := by
  simp [ltf, ha, hb]

theorem lef_trans {a b c : F32} (h1 : lef a b = true) (h2 : lef b c = true) : lef a c = true := by
  rw [lef_iff] at *
  exact ⟨h1.1, h2.2.1, h1.2.2.trans h2.2.2⟩

theorem lef_refl {a : F32} (h : isNaN a = false) : lef a a = true := lef_iff.2 ⟨h, h, le_refl _⟩

/-- clamp lands between its bounds, unless it is given a NaN (R11). -/
theorem clampf_bounds {x lo hi : F32} (hx : isNaN x = false) (h : lef lo hi = true) :
    lef lo (clampf x lo hi) = true ∧ lef (clampf x lo hi) hi = true := by
  have ⟨hl, hh, hk⟩ := lef_iff.1 h
  unfold clampf
  cases h1 : ltf x lo
  · cases h2 : ltf hi x
    · rw [ltf_eq_false hx hl] at h1
      rw [ltf_eq_false hh hx] at h2
      simp [lef_iff, hl, hh, hx, h1, h2]
    · simp [h, lef_refl hh]
  · simp [h, lef_refl hl]

theorem clampf_nan {x lo hi : F32} (hx : isNaN x = true) : clampf x lo hi = x := by
  simp [clampf, ltf, hx]

/-- clamp moves nothing past a value that lies between its bounds. -/
theorem le_clampf {a x lo hi : F32} (ha : lef a hi = true) (h : lef a x = true) :
    lef a (clampf x lo hi) = true := by
  have ⟨na, nx, k⟩ := lef_iff.1 h
  unfold clampf
  split
  · rename_i h1
    have ⟨_, nl, kl⟩ := ltf_iff.1 h1
    exact lef_iff.2 ⟨na, nl, by omega⟩
  · split
    · exact ha
    · exact h

theorem clampf_le {a x lo hi : F32} (ha : lef lo a = true) (h : lef x a = true) :
    lef (clampf x lo hi) a = true := by
  have ⟨nx, na, k⟩ := lef_iff.1 h
  unfold clampf
  split
  · exact ha
  · split
    · rename_i h1
      have ⟨nh, _, kh⟩ := ltf_iff.1 h1
      exact lef_iff.2 ⟨nh, na, by omega⟩
    · exact h

/-! ## Rounding -/

theorem roundEven_mono {m n : Nat} (h : m ≤ n) (d : Nat) : roundEven m d ≤ roundEven n d := by
  unfold roundEven
  have hp : 0 < 2 ^ d := Nat.two_pow_pos d
  have hq := Nat.div_le_div_right (c := 2 ^ d) h
  simp only
  have hm := Nat.div_add_mod m (2 ^ d)
  have hn := Nat.div_add_mod n (2 ^ d)
  rcases Nat.eq_or_lt_of_le hq with he | hl
  · rw [he]
    rw [he] at hm
    have : m % 2 ^ d ≤ n % 2 ^ d := by omega
    split <;> split <;> omega
  · split <;> split <;> omega

theorem roundEven_le_succ (m d : Nat) : roundEven m d ≤ m / 2 ^ d + 1 := by
  unfold roundEven
  simp only
  split <;> omega

theorem div_le_roundEven (m d : Nat) : m / 2 ^ d ≤ roundEven m d := by
  unfold roundEven
  simp only
  split <;> omega

theorem roundEven_exact (m : Nat) {k d : Nat} (h : d ≤ k) : roundEven (m * 2 ^ k) d = m * 2 ^ (k - d) := by
  have : m * 2 ^ k = m * 2 ^ (k - d) * 2 ^ d := by
    rw [Nat.mul_assoc, ← Nat.pow_add, Nat.sub_add_cancel h]
  have hp := Nat.two_pow_pos d
  unfold roundEven
  rw [this, Nat.mul_div_cancel _ hp, Nat.mul_mod_left]
  simp only
  rw [if_neg (by omega)]

theorem roundEven_scale (m k d : Nat) : roundEven (m * 2 ^ k) (d + k) = roundEven m d := by
  unfold roundEven
  have hk : 0 < 2 ^ k := Nat.two_pow_pos k
  rw [Nat.pow_add, Nat.mul_div_mul_right _ _ hk, Nat.mul_mod_mul_right]
  have e1 : 2 ^ d * 2 ^ k < 2 * (m % 2 ^ d * 2 ^ k) ↔ 2 ^ d < 2 * (m % 2 ^ d) := by
    rw [← Nat.mul_assoc]; exact Nat.mul_lt_mul_right hk
  have e2 : 2 * (m % 2 ^ d * 2 ^ k) = 2 ^ d * 2 ^ k ↔ 2 * (m % 2 ^ d) = 2 ^ d := by
    rw [← Nat.mul_assoc]; exact Nat.mul_left_inj hk.ne'
  simp only [e1, e2]

theorem roundMag_le_inf (m : Nat) (e : Int) : roundMag m e ≤ 0x7F800000 := by
  unfold roundMag
  split
  · decide
  · exact Nat.min_le_right _ _

/-- Rounding depends on the value `m · 2^e` alone. -/
theorem roundMag_scale (m k : Nat) (e : Int) : roundMag (m * 2 ^ k) (e - k) = roundMag m e := by
  rcases Nat.eq_zero_or_pos m with rfl | hm
  · simp [roundMag]
  have hne : m ≠ 0 := hm.ne'
  have hne' : m * 2 ^ k ≠ 0 := Nat.mul_ne_zero hne (Nat.two_pow_pos k).ne'
  have hlog : (m * 2 ^ k).log2 = m.log2 + k := by
    rw [Nat.log2_eq_iff hne']
    have h1 := Nat.log2_self_le hne
    have h2 := @Nat.lt_log2_self m
    constructor
    · rw [Nat.pow_add]; exact Nat.mul_le_mul_right _ h1
    · rw [show m.log2 + k + 1 = (m.log2 + 1) + k by omega, Nat.pow_add]
      exact Nat.mul_lt_mul_of_pos_right h2 (Nat.two_pow_pos k)
  unfold roundMag
  rw [if_neg hne, if_neg hne', hlog]
  have hq : e - (k : Int) + ((m.log2 + k : Nat) : Int) - 23 = e + m.log2 - 23 := by push_cast; ring
  simp only [hq]
  congr 2
  generalize max (e + (m.log2 : Int) - 23) (-149) = q
  by_cases h1 : q ≤ e
  · rw [if_pos h1]
    by_cases h2 : q ≤ e - k
    · rw [if_pos h2, Nat.mul_assoc, ← Nat.pow_add]
      congr 2
      omega
    · rw [if_neg h2, roundEven_exact _ (by omega)]
      congr 2
      omega
  · rw [if_neg h1, if_neg (by omega), show (q - (e - (k : Int))).toNat = (q - e).toNat + k by omega,
      roundEven_scale]

/-- Rounding is monotone at a fixed unit. -/
theorem roundMag_mono_left {m n : Nat} (h : m ≤ n) (e : Int) : roundMag m e ≤ roundMag n e := by
  rcases Nat.eq_zero_or_pos m with rfl | hm
  · simp [roundMag]
  have hm' : m ≠ 0 := hm.ne'
  have hn' : n ≠ 0 := by omega
  unfold roundMag
  rw [if_neg hm', if_neg hn']
  have hlog : m.log2 ≤ n.log2 := (Nat.le_log2 hn').2 ((Nat.log2_self_le hm').trans h)
  simp only
  refine min_le_min_right _ ?_
  generalize hq1 : max (e + (m.log2 : Int) - 23) (-149) = q1
  generalize hq2 : max (e + (n.log2 : Int) - 23) (-149) = q2
  have hle : q1 ≤ q2 := by omega
  rcases Int.lt_or_eq_of_le hle with hlt | rfl
  · -- the larger value keeps a coarser unit, and is normalised at it
    have hq2' : q2 = e + n.log2 - 23 := by omega
    have hn2 := Nat.log2_self_le hn'
    have hm2 : m < 2 ^ (m.log2 + 1) := Nat.lt_log2_self
    have hsig2 : 2 ^ 23 ≤ (if q2 ≤ e then n * 2 ^ (e - q2).toNat else roundEven n (q2 - e).toNat) := by
      split
      · calc 2 ^ 23 = 2 ^ n.log2 * 2 ^ (e - q2).toNat := by rw [← Nat.pow_add]; congr 1; omega
          _ ≤ _ := Nat.mul_le_mul_right _ hn2
      · refine le_trans ?_ (div_le_roundEven _ _)
        rw [Nat.le_div_iff_mul_le (Nat.two_pow_pos _), ← Nat.pow_add]
        refine le_trans (Nat.pow_le_pow_right (by decide) (by omega)) hn2
    have hsig1 : (if q1 ≤ e then m * 2 ^ (e - q1).toNat else roundEven m (q1 - e).toNat) ≤ 2 ^ 24 := by
      split
      · calc m * 2 ^ (e - q1).toNat ≤ 2 ^ (m.log2 + 1) * 2 ^ (e - q1).toNat := Nat.mul_le_mul_right _ hm2.le
          _ = 2 ^ (m.log2 + 1 + (e - q1).toNat) := by rw [← Nat.pow_add]
          _ ≤ 2 ^ 24 := Nat.pow_le_pow_right (by decide) (by omega)
      · refine (roundEven_le_succ _ _).trans ?_
        have : m / 2 ^ (q1 - e).toNat < 2 ^ 24 := by
          rw [Nat.div_lt_iff_lt_mul (Nat.two_pow_pos _), ← Nat.pow_add]
          exact hm2.trans_le (Nat.pow_le_pow_right (by decide) (by omega))
        omega
    have : (q1 + 149).toNat + 1 ≤ (q2 + 149).toNat := by omega
    omega
  · refine Nat.add_le_add_left ?_ _
    split
    · exact Nat.mul_le_mul_right _ h
    · exact roundEven_mono h _

/-- Rounding is monotone: `m · 2^e ≤ n · 2^f`, compared at any common unit `2^c`, orders the results. -/
theorem roundMag_mono {m n : Nat} {e f c : Int} (hc : c ≤ e) (hc' : c ≤ f)
    (h : m * 2 ^ (e - c).toNat ≤ n * 2 ^ (f - c).toNat) : roundMag m e ≤ roundMag n f := by
  have h1 := roundMag_scale m (e - c).toNat e
  have h2 := roundMag_scale n (f - c).toNat f
  rw [show e - ((e - c).toNat : Int) = c by omega] at h1
  rw [show f - ((f - c).toNat : Int) = c by omega] at h2
  rw [← h1, ← h2]
  exact roundMag_mono_left h c

/-- Rounding is exact on a finite binary32 value. -/
theorem roundMag_exact {a : F32} (h : isFinite a = true) : roundMag (mantf a) (expof a) = magf a := by
  have hm : magf a < 0x7F800000 := by simpa [isFinite] using h
  unfold mantf expof
  by_cases h0 : magf a / 2 ^ 23 = 0
  · have hlt : magf a < 2 ^ 23 := by omega
    rw [if_pos h0, h0]
    unfold roundMag
    split
    · omega
    · rename_i hne
      have hlog : (magf a).log2 < 23 := (Nat.log2_lt hne).2 hlt
      have hq : max ((((max 0 1 : Nat) : Int) - 150) + ((magf a).log2 : Int) - 23) (-149) = -149 := by
        simp; omega
      rw [hq]
      simp
      omega
  · have hE1 : 1 ≤ magf a / 2 ^ 23 := by omega
    have hE2 : magf a / 2 ^ 23 < 255 := by omega
    rw [if_neg h0, Nat.max_eq_left hE1]
    unfold roundMag
    have hr : magf a % 2 ^ 23 < 2 ^ 23 := Nat.mod_lt _ (by decide)
    have hne : 2 ^ 23 + magf a % 2 ^ 23 ≠ 0 := by omega
    rw [if_neg hne]
    have hlog : (2 ^ 23 + magf a % 2 ^ 23).log2 = 23 := by
      rw [Nat.log2_eq_iff hne]; omega
    rw [hlog]
    have hq : max (((magf a / 2 ^ 23 : Nat) : Int) - 150 + ((23 : Nat) : Int) - 23) (-149)
        = (magf a / 2 ^ 23 : Nat) - 150 := by omega
    simp only [hq, le_refl, if_true]
    have : (((magf a / 2 ^ 23 : Nat) : Int) - 150 + 149).toNat = magf a / 2 ^ 23 - 1 := by omega
    rw [this]
    have := Nat.div_add_mod (magf a) (2 ^ 23)
    simp only [sub_self, Int.toNat_zero, pow_zero, Nat.mul_one]
    rw [Nat.min_eq_left] <;> omega

theorem roundf_exact {a : F32} (h : isFinite a = true) : roundf (signf a) (mantf a) (expof a) = a := by
  rw [roundf, roundMag_exact h, packf_fields]

/-- A value with the significand and unit of `a` scaled rounds to `a`'s magnitude. -/
theorem roundMag_scaled {a : F32} (h : isFinite a = true) {c : Int} (hc : c ≤ expof a) :
    roundMag (mantf a * 2 ^ (expof a - c).toNat) c = magf a := by
  have h1 := roundMag_scale (mantf a) (expof a - c).toNat (expof a)
  rw [show expof a - ((expof a - c).toNat : Int) = c by omega] at h1
  rw [h1, roundMag_exact h]

end Sys2Proof
end

