-- ==== Sys2Proof/Laws/Arith.lean ====
section
/-! SUPPORT. Binary32 sums and products: by one, with zero, and against the order. -/

namespace Sys2Proof

/-! ## Classes of values -/

theorem isNaN_packf (s : Bool) {m : Nat} (h : m ≤ 0x7F800000) : isNaN (packf s m) = false := by
  rw [isNaN, magf_packf s (by omega)]
  simpa using h

theorem isNaN_roundf (s : Bool) (m : Nat) (e : Int) : isNaN (roundf s m e) = false :=
  isNaN_packf s (roundMag_le_inf m e)

theorem keyf_packf (s : Bool) {m : Nat} (h : m < 2 ^ 31) :
    keyf (packf s m) = if s then -(m : Int) else m := by
  rw [keyf, magf_packf s h, signf_packf s h]

theorem keyf_roundf (s : Bool) (m : Nat) (e : Int) :
    keyf (roundf s m e) = if s then -(roundMag m e : Int) else roundMag m e :=
  keyf_packf s (by have := roundMag_le_inf m e; omega)

theorem isFinite_iff {a : F32} : isFinite a = true ↔ isNaN a = false ∧ isInf a = false := by
  simp only [isFinite, isNaN, isInf, decide_eq_true_eq, decide_eq_false_iff_not]
  omega

theorem isZero_iff_mantf {a : F32} : isZero a = true ↔ mantf a = 0 := by
  unfold isZero mantf
  split
  · simp
  · simp only [decide_eq_true_eq]; omega

theorem mantf_of_isZero {a : F32} (h : isZero a = true) : mantf a = 0 := isZero_iff_mantf.1 h

theorem magf_of_isZero {a : F32} (h : isZero a = true) : magf a = 0 := by simpa [isZero] using h

theorem expof_of_isZero {a : F32} (h : isZero a = true) : expof a = -149 := by
  simp [expof, magf_of_isZero h]

theorem le_expof (a : F32) : -149 ≤ expof a := by unfold expof; omega

theorem isFinite_of_isZero {a : F32} (h : isZero a = true) : isFinite a = true := by
  simp [isFinite, magf_of_isZero h]

theorem signf_eq_of_keyf_pos {a : F32} (h : 0 < keyf a) : signf a = false := by
  unfold keyf at h
  cases hs : signf a
  · rfl
  · simp only [hs, if_true] at h; omega

/-- A value whose key is 0 is a zero. -/
theorem isZero_of_keyf {a : F32} (h : keyf a = 0) : isZero a = true := by
  unfold keyf at h
  unfold isZero
  split at h <;> simp <;> omega

theorem isZero_of_signf_of_nonneg {a : F32} (hs : signf a = true) (h : 0 ≤ keyf a) : isZero a = true := by
  simp only [keyf, hs, if_true] at h
  simp [isZero]; omega

theorem isZero_of_signf_of_nonpos {a : F32} (hs : signf a = false) (h : keyf a ≤ 0) : isZero a = true := by
  simp only [keyf, hs, Bool.false_eq_true, if_false] at h
  simp [isZero]; omega

/-! ## Exact sums -/

theorem scaledf_eq_zero_of_isZero {a : F32} (h : isZero a = true) (e : Int) : scaledf a e = 0 := by
  simp [scaledf, mantf_of_isZero h]

theorem scaledf_natAbs (a : F32) (e : Int) : (scaledf a e).natAbs = mantf a * 2 ^ (expof a - e).toNat := by
  unfold scaledf
  split <;> simp [Int.natAbs_mul, Int.natAbs_pow]

theorem scaledf_nonneg {a : F32} (h : signf a = false) (e : Int) : 0 ≤ scaledf a e := by
  simp [scaledf, h]

theorem scaledf_nonpos {a : F32} (h : signf a = true) (e : Int) : scaledf a e ≤ 0 := by
  simp [scaledf, h]

/-- Magnitude bits order the values. -/
theorem scaled_le_of_magf_le {a b : F32} {e : Int} (ha : isFinite a = true) (hb : isFinite b = true)
    (hea : e ≤ expof a) (heb : e ≤ expof b) (h : magf a ≤ magf b) :
    mantf a * 2 ^ (expof a - e).toNat ≤ mantf b * 2 ^ (expof b - e).toNat := by
  by_contra hc
  have hlt := Nat.lt_of_not_le hc
  have h1 := roundMag_mono_left hlt.le e
  rw [roundMag_scaled ha hea, roundMag_scaled hb heb] at h1
  have heq : magf a = magf b := le_antisymm h h1
  have hm : mantf a = mantf b := by simp [mantf, heq]
  have he : expof a = expof b := by simp [expof, heq]
  rw [hm, he] at hlt
  exact lt_irrefl _ hlt

/-- Keys order the values. -/
theorem scaledf_le_of_keyf_le {a b : F32} {e : Int} (ha : isFinite a = true) (hb : isFinite b = true)
    (hea : e ≤ expof a) (heb : e ≤ expof b) (h : keyf a ≤ keyf b) : scaledf a e ≤ scaledf b e := by
  cases hsa : signf a <;> cases hsb : signf b
  · have hm : magf a ≤ magf b := by simpa [keyf, hsa, hsb] using h
    have := scaled_le_of_magf_le ha hb hea heb hm
    simp only [scaledf, hsa, hsb, Bool.false_eq_true, if_false, one_mul]
    exact_mod_cast this
  · have h1 : keyf a = 0 := by
      have : 0 ≤ keyf a := by simp [keyf, hsa]
      have : keyf b ≤ 0 := by simp [keyf, hsb]
      omega
    have h2 : keyf b = 0 := by
      have : keyf b ≤ 0 := by simp [keyf, hsb]
      omega
    rw [scaledf_eq_zero_of_isZero (isZero_of_keyf h1), scaledf_eq_zero_of_isZero (isZero_of_keyf h2)]
  · exact (scaledf_nonpos hsa e).trans (scaledf_nonneg hsb e)
  · have hm : magf b ≤ magf a := by simpa [keyf, hsa, hsb] using h
    have := scaled_le_of_magf_le hb ha heb hea hm
    simp only [scaledf, hsa, hsb, if_true]
    have : ((mantf b * 2 ^ (expof b - e).toNat : Nat) : Int) ≤ (mantf a * 2 ^ (expof a - e).toNat : Nat) := by
      exact_mod_cast this
    omega

/-- The sum of two finite values. -/
theorem addCore_finite {a b : F32} (ha : isFinite a = true) (hb : isFinite b = true) :
    addCore a b =
      let e := min (expof a) (expof b)
      let x := scaledf a e + scaledf b e
      if x = 0 then packf (signf a && signf b) 0 else roundf (decide (x < 0)) x.natAbs e := by
  have ha' := (isFinite_iff.1 ha).2
  have hb' := (isFinite_iff.1 hb).2
  simp [addCore, ha', hb']

theorem addCore_comm {a b : F32} (ha : isFinite a = true) (hb : isFinite b = true) :
    addCore a b = addCore b a := by
  rw [addCore_finite ha hb, addCore_finite hb ha, min_comm (expof b), Bool.and_comm (signf b)]
  simp only [add_comm (scaledf b _)]

theorem isNaN_addCore_finite {a b : F32} (ha : isFinite a = true) (hb : isFinite b = true) :
    isNaN (addCore a b) = false := by
  rw [addCore_finite ha hb]
  simp only
  split
  · exact isNaN_packf _ (by decide)
  · exact isNaN_roundf _ _ _

theorem nan2_of_not_nan {a b r : F32} (ha : isNaN a = false) (hb : isNaN b = false) (hr : isNaN r = false) :
    nan2 a b r = r := by simp [nan2, ha, hb, hr]

theorem addf_finite {a b : F32} (ha : isFinite a = true) (hb : isFinite b = true) : addf a b = addCore a b :=
  nan2_of_not_nan (isFinite_iff.1 ha).1 (isFinite_iff.1 hb).1 (isNaN_addCore_finite ha hb)

/-- `x + ±0 = x` for a finite `x` that is no zero. -/
theorem addf_zero {a z : F32} (ha : isFinite a = true) (hz : isZero z = true) (h0 : isZero a = false) :
    addf a z = a := by
  have hzf := isFinite_of_isZero hz
  rw [addf_finite ha hzf, addCore_finite ha hzf]
  have hle := le_expof a
  have he : min (expof a) (expof z) = -149 := by rw [expof_of_isZero hz]; omega
  simp only [he, scaledf_eq_zero_of_isZero hz, add_zero]
  have hm : mantf a ≠ 0 := fun h => by rw [isZero_iff_mantf.2 h] at h0; cases h0
  have hpos : (0 : Int) < ((mantf a * 2 ^ (expof a - -149).toNat : Nat) : Int) := by
    have := Nat.pos_of_ne_zero hm
    positivity
  have hsgn : decide (scaledf a (-149) < 0) = signf a := by
    unfold scaledf
    cases signf a <;> simp only [Bool.false_eq_true, if_false, if_true] <;> simp only [decide_eq_true_eq,
      decide_eq_false_iff_not] <;> omega
  have hne : scaledf a (-149) ≠ 0 := by
    unfold scaledf
    split <;> omega
  rw [if_neg hne, hsgn, roundf, scaledf_natAbs, roundMag_scaled ha hle, packf_fields]

/-- `±0 + x = x` for a finite `x` that is no zero. -/
theorem zero_addf {a z : F32} (ha : isFinite a = true) (hz : isZero z = true) (h0 : isZero a = false) :
    addf z a = a := by
  have hzf := isFinite_of_isZero hz
  rw [addf_finite hzf ha, addCore_comm hzf ha, ← addf_finite ha hzf, addf_zero ha hz h0]

/-- `+0 + ±0 = +0`. -/
theorem addf_posZero {z : F32} (hz : isZero z = true) : addf 0 z = 0 := by
  have h0 : isFinite (0 : F32) = true := by decide
  have hzf := isFinite_of_isZero hz
  have hz0 : isZero (0 : F32) = true := by decide
  rw [addf_finite h0 hzf, addCore_finite h0 hzf]
  simp only [scaledf_eq_zero_of_isZero hz, scaledf_eq_zero_of_isZero hz0, add_zero, if_true]
  have : signf (0 : F32) = false := by decide
  rw [this, Bool.false_and]
  decide

/-! ## Products -/

theorem mulf_finite {a b : F32} (ha : isFinite a = true) (hb : isFinite b = true) :
    mulf a b = roundf (signf a != signf b) (mantf a * mantf b) (expof a + expof b) := by
  obtain ⟨na, ia⟩ := isFinite_iff.1 ha
  obtain ⟨nb, ib⟩ := isFinite_iff.1 hb
  unfold mulf
  simp only [ia, ib, Bool.false_eq_true, or_self, if_false]
  exact nan2_of_not_nan na nb (isNaN_roundf _ _ _)

/-- `x × 1 = x`. -/
theorem mulf_one {a : F32} (ha : isFinite a = true) : mulf a Config.ONE = a := by
  have h1 : isFinite Config.ONE = true := by decide
  have hs : signf Config.ONE = false := by decide
  have hm : mantf Config.ONE = 2 ^ 23 := by decide
  have he : expof Config.ONE = -23 := by decide
  rw [mulf_finite ha h1, hs, hm, he, roundf, Bool.bne_false]
  have := roundMag_scale (mantf a) 23 (expof a)
  rw [show expof a - ((23 : Nat) : Int) = expof a + -23 by norm_num; ring] at this
  rw [this, roundMag_exact ha, packf_fields]

/-- `1 × x = x`. -/
theorem one_mulf {a : F32} (ha : isFinite a = true) : mulf Config.ONE a = a := by
  have h1 : isFinite Config.ONE = true := by decide
  rw [mulf_finite h1 ha, Nat.mul_comm, add_comm, show (signf Config.ONE != signf a) = (signf a != signf Config.ONE) from bne_comm, ← mulf_finite ha h1, mulf_one ha]

/-- A product of finite values with a zero is a zero. -/
theorem isZero_mulf_right {a z : F32} (ha : isFinite a = true) (hz : isZero z = true) :
    isZero (mulf a z) = true := by
  rw [mulf_finite ha (isFinite_of_isZero hz), mantf_of_isZero hz, Nat.mul_zero]
  simp [roundf, roundMag, isZero]

theorem isZero_mulf_left {a z : F32} (ha : isFinite a = true) (hz : isZero z = true) :
    isZero (mulf z a) = true := by
  rw [mulf_finite (isFinite_of_isZero hz) ha, mantf_of_isZero hz, Nat.zero_mul]
  simp [roundf, roundMag, isZero]

/-! ## Order -/

theorem keyf_of_isZero {a : F32} (h : isZero a = true) : keyf a = 0 := by
  simp [keyf, magf_of_isZero h]

/-- Rounding an exact sum that is at least a representable value does not go below that value. -/
theorem le_addCore {a b : F32} (ha : isFinite a = true) (hb : isFinite b = true) (h : 0 ≤ keyf b) :
    keyf a ≤ keyf (addCore a b) := by
  rw [addCore_finite ha hb]
  simp only
  generalize he : min (expof a) (expof b) = e
  have hea : e ≤ expof a := by omega
  have heb : e ≤ expof b := by omega
  have hbn : 0 ≤ scaledf b e := by
    cases hs : signf b
    · exact scaledf_nonneg hs e
    · rw [scaledf_eq_zero_of_isZero (isZero_of_signf_of_nonneg hs h)]
  have habs := scaledf_natAbs a e
  split
  · rename_i hx
    rw [keyf_packf _ (by decide)]
    have : keyf a ≤ 0 := by
      cases hs : signf a
      · have := scaledf_nonneg hs e
        have h0 : scaledf a e = 0 := by omega
        rw [h0] at habs
        have : mantf a = 0 := by
          rcases Nat.mul_eq_zero.1 habs.symm with h | h
          · exact h
          · exact absurd h (Nat.two_pow_pos _).ne'
        rw [keyf_of_isZero (isZero_iff_mantf.2 this)]
      · simp [keyf, hs]
    simpa using this
  · rw [keyf_roundf]
    by_cases hx : scaledf a e + scaledf b e < 0
    · have hs : signf a = true := by
        cases hs : signf a
        · have := scaledf_nonneg hs e; omega
        · rfl
      have hle := scaledf_nonpos hs e
      have hm : (scaledf a e + scaledf b e).natAbs ≤ mantf a * 2 ^ (expof a - e).toNat := by
        rw [← habs]; omega
      have := roundMag_mono_left hm e
      rw [roundMag_scaled ha hea] at this
      simp only [keyf, hs, hx, decide_true, if_true]
      omega
    · simp only [hx, decide_false, Bool.false_eq_true, if_false]
      cases hs : signf a
      · have hge := scaledf_nonneg hs e
        have hm : mantf a * 2 ^ (expof a - e).toNat ≤ (scaledf a e + scaledf b e).natAbs := by
          rw [← habs]; omega
        have := roundMag_mono_left hm e
        rw [roundMag_scaled ha hea] at this
        simp only [keyf, hs, Bool.false_eq_true, if_false]
        exact_mod_cast this
      · simp only [keyf, hs, if_true]; omega

theorem addCore_le {a b : F32} (ha : isFinite a = true) (hb : isFinite b = true) (h : keyf b ≤ 0) :
    keyf (addCore a b) ≤ keyf a := by
  rw [addCore_finite ha hb]
  simp only
  generalize he : min (expof a) (expof b) = e
  have hea : e ≤ expof a := by omega
  have heb : e ≤ expof b := by omega
  have hbn : scaledf b e ≤ 0 := by
    cases hs : signf b
    · rw [scaledf_eq_zero_of_isZero (isZero_of_signf_of_nonpos hs h)]
    · exact scaledf_nonpos hs e
  have habs := scaledf_natAbs a e
  split
  · rename_i hx
    rw [keyf_packf _ (by decide)]
    have : 0 ≤ keyf a := by
      cases hs : signf a
      · simp [keyf, hs]
      · have := scaledf_nonpos hs e
        have h0 : scaledf a e = 0 := by omega
        rw [h0] at habs
        have : mantf a = 0 := by
          rcases Nat.mul_eq_zero.1 habs.symm with h | h
          · exact h
          · exact absurd h (Nat.two_pow_pos _).ne'
        rw [keyf_of_isZero (isZero_iff_mantf.2 this)]
    simpa using this
  · rw [keyf_roundf]
    by_cases hx : scaledf a e + scaledf b e < 0
    · simp only [hx, decide_true, if_true]
      cases hs : signf a
      · simp only [keyf, hs, Bool.false_eq_true, if_false]; omega
      · have hle := scaledf_nonpos hs e
        have hm : mantf a * 2 ^ (expof a - e).toNat ≤ (scaledf a e + scaledf b e).natAbs := by
          rw [← habs]; omega
        have := roundMag_mono_left hm e
        rw [roundMag_scaled ha hea] at this
        simp only [keyf, hs, if_true]
        omega
    · have hs : signf a = false := by
        cases hs : signf a
        · rfl
        · have := scaledf_nonpos hs e; omega
      have hge := scaledf_nonneg hs e
      have hm : (scaledf a e + scaledf b e).natAbs ≤ mantf a * 2 ^ (expof a - e).toNat := by
        rw [← habs]; omega
      have := roundMag_mono_left hm e
      rw [roundMag_scaled ha hea] at this
      simp only [keyf, hs, hx, decide_false, Bool.false_eq_true, if_false]
      exact_mod_cast this

/-! ## Negation and subtraction -/

theorem keyf_negf {a : F32} (h : isNaN a = false) : keyf (negf a) = -keyf a := by
  unfold keyf
  rw [signf_negf h, magf_negf]
  cases signf a <;> simp

theorem isNaN_negf (a : F32) : isNaN (negf a) = isNaN a := by rw [isNaN, magf_negf, isNaN]
theorem isInf_negf (a : F32) : isInf (negf a) = isInf a := by rw [isInf, magf_negf, isInf]
theorem isFinite_negf (a : F32) : isFinite (negf a) = isFinite a := by rw [isFinite, magf_negf, isFinite]
theorem expof_negf (a : F32) : expof (negf a) = expof a := by rw [expof, magf_negf, expof]

theorem scaledf_negf {a : F32} (h : isNaN a = false) (e : Int) : scaledf (negf a) e = -scaledf a e := by
  unfold scaledf
  rw [signf_negf h, expof_negf, show mantf (negf a) = mantf a by rw [mantf, magf_negf, mantf]]
  cases signf a <;> simp

/-- The difference of finite values is no NaN, and its sign is that of the exact difference. -/
theorem subf_sign {a b : F32} (ha : isFinite a = true) (hb : isFinite b = true) :
    isNaN (subf a b) = false ∧ (keyf b ≤ keyf a → 0 ≤ keyf (subf a b)) ∧ (keyf a ≤ keyf b → keyf (subf a b) ≤ 0) := by
  have hn : isFinite (negf b) = true := by rw [isFinite_negf, hb]
  have h1 : subf a b = addCore a (negf b) :=
    nan2_of_not_nan (isFinite_iff.1 ha).1 (isFinite_iff.1 hb).1 (isNaN_addCore_finite ha hn)
  refine ⟨by rw [h1]; exact isNaN_addCore_finite ha hn, fun h => ?_, fun h => ?_⟩ <;>
  · rw [h1, addCore_finite ha hn]
    simp only
    have h2 := scaledf_le_of_keyf_le (e := min (expof a) (expof (negf b))) (a := a) (b := b) ha hb (by omega)
      (by rw [expof_negf]; omega)
    have h3 := scaledf_le_of_keyf_le (e := min (expof a) (expof (negf b))) (a := b) (b := a) hb ha
      (by rw [expof_negf]; omega) (by omega)
    rw [scaledf_negf (isFinite_iff.1 hb).1]
    split
    · rw [keyf_packf _ (by omega)]
      split <;> simp
    · rw [keyf_roundf]
      split <;> rename_i h4 h5 <;> simp only [decide_eq_true_eq] at h5 <;> omega

/-- The product of values that are no NaN, where one is not negative: a NaN, or of the other's sign. -/
theorem mulf_sign {a d : F32} (ha : isFinite a = true) (ha0 : 0 ≤ keyf a) (hd : isNaN d = false) :
    isNaN (mulf a d) = true ∨ ((0 ≤ keyf d → 0 ≤ keyf (mulf a d)) ∧ (keyf d ≤ 0 → keyf (mulf a d) ≤ 0)) := by
  obtain ⟨na, ia⟩ := isFinite_iff.1 ha
  have hsa : signf a = true → isZero a = true := fun h => isZero_of_signf_of_nonneg h ha0
  cases id : isInf d
  · right
    rw [mulf_finite ha (isFinite_iff.2 ⟨hd, id⟩), keyf_roundf]
    by_cases hz : mantf a * mantf d = 0
    · rw [hz]; simp [roundMag]
    · have hza : signf a = false := by
        cases h : signf a
        · rfl
        · exact absurd (by rw [mantf_of_isZero (hsa h), Nat.zero_mul]) hz
      have hzd : isZero d = false := by
        cases h : isZero d
        · rfl
        · exact absurd (by rw [mantf_of_isZero h, Nat.mul_zero]) hz
      rw [hza]
      cases hs : signf d
      · constructor
        · intro _; simp
        · intro h
          have := isZero_of_signf_of_nonpos hs h
          rw [hzd] at this; cases this
      · constructor
        · intro h
          have := isZero_of_signf_of_nonneg hs h
          rw [hzd] at this; cases this
        · intro _; simp
  · cases hz : isZero a
    · right
      have hsf : signf a = false := by
        cases h : signf a
        · rfl
        · rw [hsa h] at hz; cases hz
      have hdz : isZero d = false := by
        simp only [isInf, decide_eq_true_eq] at id
        simp [isZero, id]
      have hm : mulf a d = packf (signf d) 0x7F800000 := by
        rw [mulf]
        simp only [ia, id, hz, hdz, hsf, Bool.false_eq_true, or_true, or_self, if_true, if_false, Bool.false_bne]
        exact nan2_of_not_nan na hd (isNaN_packf _ (le_refl _))
      rw [hm, keyf_packf _ (by omega)]
      cases hs : signf d
      · constructor
        · intro _; simp
        · intro h
          have := isZero_of_signf_of_nonpos hs h
          rw [hdz] at this; cases this
      · constructor
        · intro h
          have := isZero_of_signf_of_nonneg hs h
          rw [hdz] at this; cases this
        · intro _; simp
    · left
      rw [mulf]
      simp only [id, hz, or_true, true_or, if_true]
      rw [nan2, if_neg (by simp [na]), if_neg (by simp [hd]), if_pos (by decide)]
      decide

/-- Adding a value that is no NaN to a finite one: no NaN, and it moves the way of the added value's sign. -/
theorem addf_moves {g m : F32} (hg : isFinite g = true) (hm : isNaN m = false) :
    isNaN (addf g m) = false ∧ (0 ≤ keyf m → keyf g ≤ keyf (addf g m)) ∧ (keyf m ≤ 0 → keyf (addf g m) ≤ keyf g) := by
  obtain ⟨ng, ig⟩ := isFinite_iff.1 hg
  cases im : isInf m
  · have hf := isFinite_iff.2 ⟨hm, im⟩
    rw [addf_finite hg hf]
    exact ⟨isNaN_addCore_finite hg hf, le_addCore hg hf, addCore_le hg hf⟩
  · have h1 : addf g m = m := by
      rw [addf, addCore, ig, im]
      simp only [Bool.false_eq_true, if_false, if_true]
      exact nan2_of_not_nan ng hm hm
    have hmm : magf m = 0x7F800000 := by simpa [isInf] using im
    have hgm : magf g < 0x7F800000 := by simpa [isFinite] using hg
    rw [h1]
    refine ⟨hm, fun h => ?_, fun h => ?_⟩ <;>
    · unfold keyf at h ⊢
      split at h <;> split <;> omega

theorem keyf_cases (a : F32) : keyf a = magf a ∨ keyf a = -magf a := by
  unfold keyf
  split <;> simp

/-- A value between two finite ones is finite. -/
theorem isFinite_of_keyf {a : F32} (h1 : -0x7F800000 < keyf a) (h2 : keyf a < 0x7F800000) : isFinite a = true := by
  unfold isFinite
  rw [decide_eq_true_eq]
  rcases keyf_cases a with h | h <;> omega

theorem isNaN_quietf {a : F32} (h : isNaN a = true) : isNaN (quietf a) = true := by
  unfold isNaN at h ⊢
  rw [decide_eq_true_eq] at h ⊢
  have h1 : (quietf a).toNat = a.toNat ||| 0x00400000 := BitVec.toNat_or _ _
  have h2 : magf a ≤ magf (quietf a) := by
    have h3 : magf (quietf a) = magf a ||| 0x00400000 := by
      unfold magf
      rw [h1, Nat.or_mod_two_pow]
    rw [h3]
    exact Nat.left_le_or
  omega

theorem isNaN_nan2_right {a b r : F32} (h : isNaN b = true) : isNaN (nan2 a b r) = true := by
  unfold nan2
  rw [if_pos h]
  split
  · rename_i h1
    exact isNaN_quietf h1
  · exact isNaN_quietf h

/-- The quotient of a finite value by one above zero is no NaN. -/
theorem isNaN_divf {a b : F32} (ha : isFinite a = true) (hb : ltf 0 b = true) : isNaN (divf a b) = false := by
  obtain ⟨na, ia⟩ := isFinite_iff.1 ha
  obtain ⟨_, nb, hk⟩ := ltf_iff.1 hb
  have hz : isZero b = false := by
    cases h : isZero b
    · rfl
    · rw [keyf_of_isZero h] at hk
      exact absurd hk (by decide)
  rw [divf]
  simp only [ia, hz, Bool.false_eq_true, if_false]
  split
  · rw [nan2_of_not_nan na nb (isNaN_packf _ (by omega))]
    exact isNaN_packf _ (by omega)
  · rw [nan2_of_not_nan na nb (isNaN_roundf _ _ _)]
    exact isNaN_roundf _ _ _

end Sys2Proof
end

