-- ==== Sys2Proof/Laws/State.lean ====
section
/-! SUPPORT. One lemma per field per shared update of the state, true by unfolding the update once. -/

namespace Sys2Proof.Machine

variable (s : State)

/-! ## State.record -/

@[simp] theorem State.record_params (c : ErrCode) (i : Word) : (s.record c i).params = s.params := rfl
@[simp] theorem State.record_cmdArg (c : ErrCode) (i : Word) : (s.record c i).cmdArg = s.cmdArg := rfl
@[simp] theorem State.record_status (c : ErrCode) (i : Word) : (s.record c i).status = s.status ||| c.classBit := rfl
@[simp] theorem State.record_errCode (c : ErrCode) (i : Word) :
    (s.record c i).errCode = if s.noError then c.num else s.errCode := rfl
@[simp] theorem State.record_errInfo (c : ErrCode) (i : Word) :
    (s.record c i).errInfo = if s.noError then i else s.errInfo := rfl
@[simp] theorem State.record_batchLen (c : ErrCode) (i : Word) : (s.record c i).batchLen = s.batchLen := rfl
@[simp] theorem State.record_cfgBw (c : ErrCode) (i : Word) : (s.record c i).cfgBw = s.cfgBw := rfl
@[simp] theorem State.record_cfgSqDb (c : ErrCode) (i : Word) : (s.record c i).cfgSqDb = s.cfgSqDb := rfl
@[simp] theorem State.record_cfgSqThr (c : ErrCode) (i : Word) : (s.record c i).cfgSqThr = s.cfgSqThr := rfl
@[simp] theorem State.record_cfgMode (c : ErrCode) (i : Word) : (s.record c i).cfgMode = s.cfgMode := rfl
@[simp] theorem State.record_cfgAgcTarget (c : ErrCode) (i : Word) : (s.record c i).cfgAgcTarget = s.cfgAgcTarget :=
    rfl
@[simp] theorem State.record_cfgAgcAttack (c : ErrCode) (i : Word) : (s.record c i).cfgAgcAttack = s.cfgAgcAttack :=
    rfl
@[simp] theorem State.record_cfgAgcDecay (c : ErrCode) (i : Word) : (s.record c i).cfgAgcDecay = s.cfgAgcDecay := rfl
@[simp] theorem State.record_cfgFftSize (c : ErrCode) (i : Word) : (s.record c i).cfgFftSize = s.cfgFftSize := rfl
@[simp] theorem State.record_cfgAvgAlpha (c : ErrCode) (i : Word) : (s.record c i).cfgAvgAlpha = s.cfgAvgAlpha := rfl
@[simp] theorem State.record_taps (c : ErrCode) (i : Word) : (s.record c i).taps = s.taps := rfl
@[simp] theorem State.record_delay (c : ErrCode) (i : Word) : (s.record c i).delay = s.delay := rfl
@[simp] theorem State.record_inBuf (c : ErrCode) (i : Word) : (s.record c i).inBuf = s.inBuf := rfl
@[simp] theorem State.record_cnt (c : ErrCode) (i : Word) : (s.record c i).cnt = s.cnt := rfl
@[simp] theorem State.record_fmValid (c : ErrCode) (i : Word) : (s.record c i).fmValid = s.fmValid := rfl
@[simp] theorem State.record_fmPrev (c : ErrCode) (i : Word) : (s.record c i).fmPrev = s.fmPrev := rfl
@[simp] theorem State.record_gain (c : ErrCode) (i : Word) : (s.record c i).gain = s.gain := rfl
@[simp] theorem State.record_fifo (c : ErrCode) (i : Word) : (s.record c i).fifo = s.fifo := rfl
@[simp] theorem State.record_avg (c : ErrCode) (i : Word) : (s.record c i).avg = s.avg := rfl
@[simp] theorem State.record_wf (c : ErrCode) (i : Word) : (s.record c i).wf = s.wf := rfl
@[simp] theorem State.record_snapSpec (c : ErrCode) (i : Word) : (s.record c i).snapSpec = s.snapSpec := rfl
@[simp] theorem State.record_snapWf (c : ErrCode) (i : Word) : (s.record c i).snapWf = s.snapWf := rfl
@[simp] theorem State.record_snapBins (c : ErrCode) (i : Word) : (s.record c i).snapBins = s.snapBins := rfl
@[simp] theorem State.record_snapRows (c : ErrCode) (i : Word) : (s.record c i).snapRows = s.snapRows := rfl
@[simp] theorem State.record_pending (c : ErrCode) (i : Word) : (s.record c i).pending = s.pending := rfl
@[simp] theorem State.record_responses (c : ErrCode) (i : Word) : (s.record c i).responses = s.responses := rfl
@[simp] theorem State.record_draws (c : ErrCode) (i : Word) : (s.record c i).draws = s.draws := rfl

/-! ## State.clear -/

@[simp] theorem State.clear_params (v : Word) : (s.clear v).params = s.params := rfl
@[simp] theorem State.clear_cmdArg (v : Word) : (s.clear v).cmdArg = s.cmdArg := rfl
@[simp] theorem State.clear_status (v : Word) : (s.clear v).status = s.status &&& ~~~(v &&& definedBits) := rfl
@[simp] theorem State.clear_errCode (v : Word) :
    (s.clear v).errCode = if (s.status &&& ~~~(v &&& definedBits)) &&& errorBits = 0 then 0 else s.errCode := rfl
@[simp] theorem State.clear_errInfo (v : Word) :
    (s.clear v).errInfo = if (s.status &&& ~~~(v &&& definedBits)) &&& errorBits = 0 then 0 else s.errInfo := rfl
@[simp] theorem State.clear_batchLen (v : Word) : (s.clear v).batchLen = s.batchLen := rfl
@[simp] theorem State.clear_cfgBw (v : Word) : (s.clear v).cfgBw = s.cfgBw := rfl
@[simp] theorem State.clear_cfgSqDb (v : Word) : (s.clear v).cfgSqDb = s.cfgSqDb := rfl
@[simp] theorem State.clear_cfgSqThr (v : Word) : (s.clear v).cfgSqThr = s.cfgSqThr := rfl
@[simp] theorem State.clear_cfgMode (v : Word) : (s.clear v).cfgMode = s.cfgMode := rfl
@[simp] theorem State.clear_cfgAgcTarget (v : Word) : (s.clear v).cfgAgcTarget = s.cfgAgcTarget := rfl
@[simp] theorem State.clear_cfgAgcAttack (v : Word) : (s.clear v).cfgAgcAttack = s.cfgAgcAttack := rfl
@[simp] theorem State.clear_cfgAgcDecay (v : Word) : (s.clear v).cfgAgcDecay = s.cfgAgcDecay := rfl
@[simp] theorem State.clear_cfgFftSize (v : Word) : (s.clear v).cfgFftSize = s.cfgFftSize := rfl
@[simp] theorem State.clear_cfgAvgAlpha (v : Word) : (s.clear v).cfgAvgAlpha = s.cfgAvgAlpha := rfl
@[simp] theorem State.clear_taps (v : Word) : (s.clear v).taps = s.taps := rfl
@[simp] theorem State.clear_delay (v : Word) : (s.clear v).delay = s.delay := rfl
@[simp] theorem State.clear_inBuf (v : Word) : (s.clear v).inBuf = s.inBuf := rfl
@[simp] theorem State.clear_cnt (v : Word) : (s.clear v).cnt = s.cnt := rfl
@[simp] theorem State.clear_fmValid (v : Word) : (s.clear v).fmValid = s.fmValid := rfl
@[simp] theorem State.clear_fmPrev (v : Word) : (s.clear v).fmPrev = s.fmPrev := rfl
@[simp] theorem State.clear_gain (v : Word) : (s.clear v).gain = s.gain := rfl
@[simp] theorem State.clear_fifo (v : Word) : (s.clear v).fifo = s.fifo := rfl
@[simp] theorem State.clear_avg (v : Word) : (s.clear v).avg = s.avg := rfl
@[simp] theorem State.clear_wf (v : Word) : (s.clear v).wf = s.wf := rfl
@[simp] theorem State.clear_snapSpec (v : Word) : (s.clear v).snapSpec = s.snapSpec := rfl
@[simp] theorem State.clear_snapWf (v : Word) : (s.clear v).snapWf = s.snapWf := rfl
@[simp] theorem State.clear_snapBins (v : Word) : (s.clear v).snapBins = s.snapBins := rfl
@[simp] theorem State.clear_snapRows (v : Word) : (s.clear v).snapRows = s.snapRows := rfl
@[simp] theorem State.clear_pending (v : Word) : (s.clear v).pending = s.pending := rfl
@[simp] theorem State.clear_responses (v : Word) : (s.clear v).responses = s.responses := rfl
@[simp] theorem State.clear_draws (v : Word) : (s.clear v).draws = s.draws := rfl

/-! ## State.fifoAppend -/

@[simp] theorem State.fifoAppend_params (a : List F32) : (s.fifoAppend a).params = s.params := rfl
@[simp] theorem State.fifoAppend_cmdArg (a : List F32) : (s.fifoAppend a).cmdArg = s.cmdArg := rfl
@[simp] theorem State.fifoAppend_status (a : List F32) :
    (s.fifoAppend a).status = if s.params.pAudioLimit < (s.fifo ++ a).length then s.status ||| AUDIO_OVF else s.status := rfl
@[simp] theorem State.fifoAppend_errCode (a : List F32) : (s.fifoAppend a).errCode = s.errCode := rfl
@[simp] theorem State.fifoAppend_errInfo (a : List F32) : (s.fifoAppend a).errInfo = s.errInfo := rfl
@[simp] theorem State.fifoAppend_batchLen (a : List F32) : (s.fifoAppend a).batchLen = s.batchLen := rfl
@[simp] theorem State.fifoAppend_cfgBw (a : List F32) : (s.fifoAppend a).cfgBw = s.cfgBw := rfl
@[simp] theorem State.fifoAppend_cfgSqDb (a : List F32) : (s.fifoAppend a).cfgSqDb = s.cfgSqDb := rfl
@[simp] theorem State.fifoAppend_cfgSqThr (a : List F32) : (s.fifoAppend a).cfgSqThr = s.cfgSqThr := rfl
@[simp] theorem State.fifoAppend_cfgMode (a : List F32) : (s.fifoAppend a).cfgMode = s.cfgMode := rfl
@[simp] theorem State.fifoAppend_cfgAgcTarget (a : List F32) : (s.fifoAppend a).cfgAgcTarget = s.cfgAgcTarget := rfl
@[simp] theorem State.fifoAppend_cfgAgcAttack (a : List F32) : (s.fifoAppend a).cfgAgcAttack = s.cfgAgcAttack := rfl
@[simp] theorem State.fifoAppend_cfgAgcDecay (a : List F32) : (s.fifoAppend a).cfgAgcDecay = s.cfgAgcDecay := rfl
@[simp] theorem State.fifoAppend_cfgFftSize (a : List F32) : (s.fifoAppend a).cfgFftSize = s.cfgFftSize := rfl
@[simp] theorem State.fifoAppend_cfgAvgAlpha (a : List F32) : (s.fifoAppend a).cfgAvgAlpha = s.cfgAvgAlpha := rfl
@[simp] theorem State.fifoAppend_taps (a : List F32) : (s.fifoAppend a).taps = s.taps := rfl
@[simp] theorem State.fifoAppend_delay (a : List F32) : (s.fifoAppend a).delay = s.delay := rfl
@[simp] theorem State.fifoAppend_inBuf (a : List F32) : (s.fifoAppend a).inBuf = s.inBuf := rfl
@[simp] theorem State.fifoAppend_cnt (a : List F32) : (s.fifoAppend a).cnt = s.cnt := rfl
@[simp] theorem State.fifoAppend_fmValid (a : List F32) : (s.fifoAppend a).fmValid = s.fmValid := rfl
@[simp] theorem State.fifoAppend_fmPrev (a : List F32) : (s.fifoAppend a).fmPrev = s.fmPrev := rfl
@[simp] theorem State.fifoAppend_gain (a : List F32) : (s.fifoAppend a).gain = s.gain := rfl
@[simp] theorem State.fifoAppend_fifo (a : List F32) :
    (s.fifoAppend a).fifo = (s.fifo ++ a).drop ((s.fifo ++ a).length - s.params.pAudioLimit) := rfl
@[simp] theorem State.fifoAppend_avg (a : List F32) : (s.fifoAppend a).avg = s.avg := rfl
@[simp] theorem State.fifoAppend_wf (a : List F32) : (s.fifoAppend a).wf = s.wf := rfl
@[simp] theorem State.fifoAppend_snapSpec (a : List F32) : (s.fifoAppend a).snapSpec = s.snapSpec := rfl
@[simp] theorem State.fifoAppend_snapWf (a : List F32) : (s.fifoAppend a).snapWf = s.snapWf := rfl
@[simp] theorem State.fifoAppend_snapBins (a : List F32) : (s.fifoAppend a).snapBins = s.snapBins := rfl
@[simp] theorem State.fifoAppend_snapRows (a : List F32) : (s.fifoAppend a).snapRows = s.snapRows := rfl
@[simp] theorem State.fifoAppend_pending (a : List F32) : (s.fifoAppend a).pending = s.pending := rfl
@[simp] theorem State.fifoAppend_responses (a : List F32) : (s.fifoAppend a).responses = s.responses := rfl
@[simp] theorem State.fifoAppend_draws (a : List F32) : (s.fifoAppend a).draws = s.draws := rfl

/-! ## State.popped -/

@[simp] theorem State.popped_params : (s.popped).params = s.params := rfl
@[simp] theorem State.popped_cmdArg : (s.popped).cmdArg = s.cmdArg := rfl
@[simp] theorem State.popped_status : (s.popped).status = if s.fifo = [] then s.status ||| AUDIO_UDF else s.status :=
    rfl
@[simp] theorem State.popped_errCode : (s.popped).errCode = s.errCode := rfl
@[simp] theorem State.popped_errInfo : (s.popped).errInfo = s.errInfo := rfl
@[simp] theorem State.popped_batchLen : (s.popped).batchLen = s.batchLen := rfl
@[simp] theorem State.popped_cfgBw : (s.popped).cfgBw = s.cfgBw := rfl
@[simp] theorem State.popped_cfgSqDb : (s.popped).cfgSqDb = s.cfgSqDb := rfl
@[simp] theorem State.popped_cfgSqThr : (s.popped).cfgSqThr = s.cfgSqThr := rfl
@[simp] theorem State.popped_cfgMode : (s.popped).cfgMode = s.cfgMode := rfl
@[simp] theorem State.popped_cfgAgcTarget : (s.popped).cfgAgcTarget = s.cfgAgcTarget := rfl
@[simp] theorem State.popped_cfgAgcAttack : (s.popped).cfgAgcAttack = s.cfgAgcAttack := rfl
@[simp] theorem State.popped_cfgAgcDecay : (s.popped).cfgAgcDecay = s.cfgAgcDecay := rfl
@[simp] theorem State.popped_cfgFftSize : (s.popped).cfgFftSize = s.cfgFftSize := rfl
@[simp] theorem State.popped_cfgAvgAlpha : (s.popped).cfgAvgAlpha = s.cfgAvgAlpha := rfl
@[simp] theorem State.popped_taps : (s.popped).taps = s.taps := rfl
@[simp] theorem State.popped_delay : (s.popped).delay = s.delay := rfl
@[simp] theorem State.popped_inBuf : (s.popped).inBuf = s.inBuf := rfl
@[simp] theorem State.popped_cnt : (s.popped).cnt = s.cnt := rfl
@[simp] theorem State.popped_fmValid : (s.popped).fmValid = s.fmValid := rfl
@[simp] theorem State.popped_fmPrev : (s.popped).fmPrev = s.fmPrev := rfl
@[simp] theorem State.popped_gain : (s.popped).gain = s.gain := rfl
@[simp] theorem State.popped_fifo : (s.popped).fifo = s.fifo.tail := rfl
@[simp] theorem State.popped_avg : (s.popped).avg = s.avg := rfl
@[simp] theorem State.popped_wf : (s.popped).wf = s.wf := rfl
@[simp] theorem State.popped_snapSpec : (s.popped).snapSpec = s.snapSpec := rfl
@[simp] theorem State.popped_snapWf : (s.popped).snapWf = s.snapWf := rfl
@[simp] theorem State.popped_snapBins : (s.popped).snapBins = s.snapBins := rfl
@[simp] theorem State.popped_snapRows : (s.popped).snapRows = s.snapRows := rfl
@[simp] theorem State.popped_pending : (s.popped).pending = s.pending := rfl
@[simp] theorem State.popped_responses : (s.popped).responses = s.responses := rfl
@[simp] theorem State.popped_draws : (s.popped).draws = s.draws := rfl

/-! ## State.snapshot -/

@[simp] theorem State.snapshot_params : (s.snapshot).params = s.params := rfl
@[simp] theorem State.snapshot_cmdArg : (s.snapshot).cmdArg = s.cmdArg := rfl
@[simp] theorem State.snapshot_status : (s.snapshot).status = s.status := rfl
@[simp] theorem State.snapshot_errCode : (s.snapshot).errCode = s.errCode := rfl
@[simp] theorem State.snapshot_errInfo : (s.snapshot).errInfo = s.errInfo := rfl
@[simp] theorem State.snapshot_batchLen : (s.snapshot).batchLen = s.batchLen := rfl
@[simp] theorem State.snapshot_cfgBw : (s.snapshot).cfgBw = s.cfgBw := rfl
@[simp] theorem State.snapshot_cfgSqDb : (s.snapshot).cfgSqDb = s.cfgSqDb := rfl
@[simp] theorem State.snapshot_cfgSqThr : (s.snapshot).cfgSqThr = s.cfgSqThr := rfl
@[simp] theorem State.snapshot_cfgMode : (s.snapshot).cfgMode = s.cfgMode := rfl
@[simp] theorem State.snapshot_cfgAgcTarget : (s.snapshot).cfgAgcTarget = s.cfgAgcTarget := rfl
@[simp] theorem State.snapshot_cfgAgcAttack : (s.snapshot).cfgAgcAttack = s.cfgAgcAttack := rfl
@[simp] theorem State.snapshot_cfgAgcDecay : (s.snapshot).cfgAgcDecay = s.cfgAgcDecay := rfl
@[simp] theorem State.snapshot_cfgFftSize : (s.snapshot).cfgFftSize = s.cfgFftSize := rfl
@[simp] theorem State.snapshot_cfgAvgAlpha : (s.snapshot).cfgAvgAlpha = s.cfgAvgAlpha := rfl
@[simp] theorem State.snapshot_taps : (s.snapshot).taps = s.taps := rfl
@[simp] theorem State.snapshot_delay : (s.snapshot).delay = s.delay := rfl
@[simp] theorem State.snapshot_inBuf : (s.snapshot).inBuf = s.inBuf := rfl
@[simp] theorem State.snapshot_cnt : (s.snapshot).cnt = s.cnt := rfl
@[simp] theorem State.snapshot_fmValid : (s.snapshot).fmValid = s.fmValid := rfl
@[simp] theorem State.snapshot_fmPrev : (s.snapshot).fmPrev = s.fmPrev := rfl
@[simp] theorem State.snapshot_gain : (s.snapshot).gain = s.gain := rfl
@[simp] theorem State.snapshot_fifo : (s.snapshot).fifo = s.fifo := rfl
@[simp] theorem State.snapshot_avg : (s.snapshot).avg = s.avg := rfl
@[simp] theorem State.snapshot_wf : (s.snapshot).wf = s.wf := rfl
@[simp] theorem State.snapshot_snapSpec : (s.snapshot).snapSpec = overwrite s.avg s.snapSpec := rfl
@[simp] theorem State.snapshot_snapWf : (s.snapshot).snapWf = overwrite s.wf.flatten s.snapWf := rfl
@[simp] theorem State.snapshot_snapBins : (s.snapshot).snapBins = BitVec.ofNat 32 s.bins := rfl
@[simp] theorem State.snapshot_snapRows : (s.snapshot).snapRows = BitVec.ofNat 32 s.wfRows := rfl
@[simp] theorem State.snapshot_pending : (s.snapshot).pending = s.pending := rfl
@[simp] theorem State.snapshot_responses : (s.snapshot).responses = s.responses := rfl
@[simp] theorem State.snapshot_draws : (s.snapshot).draws = s.draws := rfl

/-! ## State.nextDraw -/

@[simp] theorem State.nextDraw_params : (s.nextDraw).params = s.params := rfl
@[simp] theorem State.nextDraw_cmdArg : (s.nextDraw).cmdArg = s.cmdArg := rfl
@[simp] theorem State.nextDraw_status : (s.nextDraw).status = s.status := rfl
@[simp] theorem State.nextDraw_errCode : (s.nextDraw).errCode = s.errCode := rfl
@[simp] theorem State.nextDraw_errInfo : (s.nextDraw).errInfo = s.errInfo := rfl
@[simp] theorem State.nextDraw_batchLen : (s.nextDraw).batchLen = s.batchLen := rfl
@[simp] theorem State.nextDraw_cfgBw : (s.nextDraw).cfgBw = s.cfgBw := rfl
@[simp] theorem State.nextDraw_cfgSqDb : (s.nextDraw).cfgSqDb = s.cfgSqDb := rfl
@[simp] theorem State.nextDraw_cfgSqThr : (s.nextDraw).cfgSqThr = s.cfgSqThr := rfl
@[simp] theorem State.nextDraw_cfgMode : (s.nextDraw).cfgMode = s.cfgMode := rfl
@[simp] theorem State.nextDraw_cfgAgcTarget : (s.nextDraw).cfgAgcTarget = s.cfgAgcTarget := rfl
@[simp] theorem State.nextDraw_cfgAgcAttack : (s.nextDraw).cfgAgcAttack = s.cfgAgcAttack := rfl
@[simp] theorem State.nextDraw_cfgAgcDecay : (s.nextDraw).cfgAgcDecay = s.cfgAgcDecay := rfl
@[simp] theorem State.nextDraw_cfgFftSize : (s.nextDraw).cfgFftSize = s.cfgFftSize := rfl
@[simp] theorem State.nextDraw_cfgAvgAlpha : (s.nextDraw).cfgAvgAlpha = s.cfgAvgAlpha := rfl
@[simp] theorem State.nextDraw_taps : (s.nextDraw).taps = s.taps := rfl
@[simp] theorem State.nextDraw_delay : (s.nextDraw).delay = s.delay := rfl
@[simp] theorem State.nextDraw_inBuf : (s.nextDraw).inBuf = s.inBuf := rfl
@[simp] theorem State.nextDraw_cnt : (s.nextDraw).cnt = s.cnt := rfl
@[simp] theorem State.nextDraw_fmValid : (s.nextDraw).fmValid = s.fmValid := rfl
@[simp] theorem State.nextDraw_fmPrev : (s.nextDraw).fmPrev = s.fmPrev := rfl
@[simp] theorem State.nextDraw_gain : (s.nextDraw).gain = s.gain := rfl
@[simp] theorem State.nextDraw_fifo : (s.nextDraw).fifo = s.fifo := rfl
@[simp] theorem State.nextDraw_avg : (s.nextDraw).avg = s.avg := rfl
@[simp] theorem State.nextDraw_wf : (s.nextDraw).wf = s.wf := rfl
@[simp] theorem State.nextDraw_snapSpec : (s.nextDraw).snapSpec = s.snapSpec := rfl
@[simp] theorem State.nextDraw_snapWf : (s.nextDraw).snapWf = s.snapWf := rfl
@[simp] theorem State.nextDraw_snapBins : (s.nextDraw).snapBins = s.snapBins := rfl
@[simp] theorem State.nextDraw_snapRows : (s.nextDraw).snapRows = s.snapRows := rfl
@[simp] theorem State.nextDraw_pending : (s.nextDraw).pending = s.pending := rfl
@[simp] theorem State.nextDraw_responses : (s.nextDraw).responses = s.responses := rfl
@[simp] theorem State.nextDraw_draws : (s.nextDraw).draws = s.draws + 1 := rfl

/-! ## State.firShift -/

@[simp] theorem State.firShift_params (x : Sample) : (s.firShift x).params = s.params := rfl
@[simp] theorem State.firShift_cmdArg (x : Sample) : (s.firShift x).cmdArg = s.cmdArg := rfl
@[simp] theorem State.firShift_status (x : Sample) : (s.firShift x).status = s.status := rfl
@[simp] theorem State.firShift_errCode (x : Sample) : (s.firShift x).errCode = s.errCode := rfl
@[simp] theorem State.firShift_errInfo (x : Sample) : (s.firShift x).errInfo = s.errInfo := rfl
@[simp] theorem State.firShift_batchLen (x : Sample) : (s.firShift x).batchLen = s.batchLen := rfl
@[simp] theorem State.firShift_cfgBw (x : Sample) : (s.firShift x).cfgBw = s.cfgBw := rfl
@[simp] theorem State.firShift_cfgSqDb (x : Sample) : (s.firShift x).cfgSqDb = s.cfgSqDb := rfl
@[simp] theorem State.firShift_cfgSqThr (x : Sample) : (s.firShift x).cfgSqThr = s.cfgSqThr := rfl
@[simp] theorem State.firShift_cfgMode (x : Sample) : (s.firShift x).cfgMode = s.cfgMode := rfl
@[simp] theorem State.firShift_cfgAgcTarget (x : Sample) : (s.firShift x).cfgAgcTarget = s.cfgAgcTarget := rfl
@[simp] theorem State.firShift_cfgAgcAttack (x : Sample) : (s.firShift x).cfgAgcAttack = s.cfgAgcAttack := rfl
@[simp] theorem State.firShift_cfgAgcDecay (x : Sample) : (s.firShift x).cfgAgcDecay = s.cfgAgcDecay := rfl
@[simp] theorem State.firShift_cfgFftSize (x : Sample) : (s.firShift x).cfgFftSize = s.cfgFftSize := rfl
@[simp] theorem State.firShift_cfgAvgAlpha (x : Sample) : (s.firShift x).cfgAvgAlpha = s.cfgAvgAlpha := rfl
@[simp] theorem State.firShift_taps (x : Sample) : (s.firShift x).taps = s.taps := rfl
@[simp] theorem State.firShift_delay (x : Sample) : (s.firShift x).delay = shiftIn x s.delay := rfl
@[simp] theorem State.firShift_inBuf (x : Sample) : (s.firShift x).inBuf = s.inBuf := rfl
@[simp] theorem State.firShift_cnt (x : Sample) : (s.firShift x).cnt = s.cnt := rfl
@[simp] theorem State.firShift_fmValid (x : Sample) : (s.firShift x).fmValid = s.fmValid := rfl
@[simp] theorem State.firShift_fmPrev (x : Sample) : (s.firShift x).fmPrev = s.fmPrev := rfl
@[simp] theorem State.firShift_gain (x : Sample) : (s.firShift x).gain = s.gain := rfl
@[simp] theorem State.firShift_fifo (x : Sample) : (s.firShift x).fifo = s.fifo := rfl
@[simp] theorem State.firShift_avg (x : Sample) : (s.firShift x).avg = s.avg := rfl
@[simp] theorem State.firShift_wf (x : Sample) : (s.firShift x).wf = s.wf := rfl
@[simp] theorem State.firShift_snapSpec (x : Sample) : (s.firShift x).snapSpec = s.snapSpec := rfl
@[simp] theorem State.firShift_snapWf (x : Sample) : (s.firShift x).snapWf = s.snapWf := rfl
@[simp] theorem State.firShift_snapBins (x : Sample) : (s.firShift x).snapBins = s.snapBins := rfl
@[simp] theorem State.firShift_snapRows (x : Sample) : (s.firShift x).snapRows = s.snapRows := rfl
@[simp] theorem State.firShift_pending (x : Sample) : (s.firShift x).pending = s.pending := rfl
@[simp] theorem State.firShift_responses (x : Sample) : (s.firShift x).responses = s.responses := rfl
@[simp] theorem State.firShift_draws (x : Sample) : (s.firShift x).draws = s.draws := rfl

/-! ## State.demodNext -/

@[simp] theorem State.demodNext_params (y : Sample) : (s.demodNext y).params = s.params := rfl
@[simp] theorem State.demodNext_cmdArg (y : Sample) : (s.demodNext y).cmdArg = s.cmdArg := rfl
@[simp] theorem State.demodNext_status (y : Sample) : (s.demodNext y).status = s.status := rfl
@[simp] theorem State.demodNext_errCode (y : Sample) : (s.demodNext y).errCode = s.errCode := rfl
@[simp] theorem State.demodNext_errInfo (y : Sample) : (s.demodNext y).errInfo = s.errInfo := rfl
@[simp] theorem State.demodNext_batchLen (y : Sample) : (s.demodNext y).batchLen = s.batchLen := rfl
@[simp] theorem State.demodNext_cfgBw (y : Sample) : (s.demodNext y).cfgBw = s.cfgBw := rfl
@[simp] theorem State.demodNext_cfgSqDb (y : Sample) : (s.demodNext y).cfgSqDb = s.cfgSqDb := rfl
@[simp] theorem State.demodNext_cfgSqThr (y : Sample) : (s.demodNext y).cfgSqThr = s.cfgSqThr := rfl
@[simp] theorem State.demodNext_cfgMode (y : Sample) : (s.demodNext y).cfgMode = s.cfgMode := rfl
@[simp] theorem State.demodNext_cfgAgcTarget (y : Sample) : (s.demodNext y).cfgAgcTarget = s.cfgAgcTarget := rfl
@[simp] theorem State.demodNext_cfgAgcAttack (y : Sample) : (s.demodNext y).cfgAgcAttack = s.cfgAgcAttack := rfl
@[simp] theorem State.demodNext_cfgAgcDecay (y : Sample) : (s.demodNext y).cfgAgcDecay = s.cfgAgcDecay := rfl
@[simp] theorem State.demodNext_cfgFftSize (y : Sample) : (s.demodNext y).cfgFftSize = s.cfgFftSize := rfl
@[simp] theorem State.demodNext_cfgAvgAlpha (y : Sample) : (s.demodNext y).cfgAvgAlpha = s.cfgAvgAlpha := rfl
@[simp] theorem State.demodNext_taps (y : Sample) : (s.demodNext y).taps = s.taps := rfl
@[simp] theorem State.demodNext_delay (y : Sample) : (s.demodNext y).delay = s.delay := rfl
@[simp] theorem State.demodNext_inBuf (y : Sample) : (s.demodNext y).inBuf = s.inBuf := rfl
@[simp] theorem State.demodNext_cnt (y : Sample) : (s.demodNext y).cnt = if s.atTick then 0 else s.cnt + 1 := rfl
@[simp] theorem State.demodNext_fmValid (y : Sample) :
    (s.demodNext y).fmValid = (s.fmValid || decide (s.cfgMode = .fm)) := rfl
@[simp] theorem State.demodNext_fmPrev (y : Sample) :
    (s.demodNext y).fmPrev = if s.cfgMode = .fm then y else s.fmPrev := rfl
@[simp] theorem State.demodNext_gain (y : Sample) : (s.demodNext y).gain = s.gain := rfl
@[simp] theorem State.demodNext_fifo (y : Sample) : (s.demodNext y).fifo = s.fifo := rfl
@[simp] theorem State.demodNext_avg (y : Sample) : (s.demodNext y).avg = s.avg := rfl
@[simp] theorem State.demodNext_wf (y : Sample) : (s.demodNext y).wf = s.wf := rfl
@[simp] theorem State.demodNext_snapSpec (y : Sample) : (s.demodNext y).snapSpec = s.snapSpec := rfl
@[simp] theorem State.demodNext_snapWf (y : Sample) : (s.demodNext y).snapWf = s.snapWf := rfl
@[simp] theorem State.demodNext_snapBins (y : Sample) : (s.demodNext y).snapBins = s.snapBins := rfl
@[simp] theorem State.demodNext_snapRows (y : Sample) : (s.demodNext y).snapRows = s.snapRows := rfl
@[simp] theorem State.demodNext_pending (y : Sample) : (s.demodNext y).pending = s.pending := rfl
@[simp] theorem State.demodNext_responses (y : Sample) : (s.demodNext y).responses = s.responses := rfl
@[simp] theorem State.demodNext_draws (y : Sample) : (s.demodNext y).draws = s.draws := rfl

/-! ## State.agcUpdate -/

@[simp] theorem State.agcUpdate_params (a : List F32) : (s.agcUpdate a).params = s.params := by rfl
@[simp] theorem State.agcUpdate_cmdArg (a : List F32) : (s.agcUpdate a).cmdArg = s.cmdArg := by rfl
@[simp] theorem State.agcUpdate_status (a : List F32) : (s.agcUpdate a).status = s.status := by rfl
@[simp] theorem State.agcUpdate_errCode (a : List F32) : (s.agcUpdate a).errCode = s.errCode := by rfl
@[simp] theorem State.agcUpdate_errInfo (a : List F32) : (s.agcUpdate a).errInfo = s.errInfo := by rfl
@[simp] theorem State.agcUpdate_batchLen (a : List F32) : (s.agcUpdate a).batchLen = s.batchLen := by rfl
@[simp] theorem State.agcUpdate_cfgBw (a : List F32) : (s.agcUpdate a).cfgBw = s.cfgBw := by rfl
@[simp] theorem State.agcUpdate_cfgSqDb (a : List F32) : (s.agcUpdate a).cfgSqDb = s.cfgSqDb := by rfl
@[simp] theorem State.agcUpdate_cfgSqThr (a : List F32) : (s.agcUpdate a).cfgSqThr = s.cfgSqThr := by rfl
@[simp] theorem State.agcUpdate_cfgMode (a : List F32) : (s.agcUpdate a).cfgMode = s.cfgMode := by rfl
@[simp] theorem State.agcUpdate_cfgAgcTarget (a : List F32) : (s.agcUpdate a).cfgAgcTarget = s.cfgAgcTarget := by rfl
@[simp] theorem State.agcUpdate_cfgAgcAttack (a : List F32) : (s.agcUpdate a).cfgAgcAttack = s.cfgAgcAttack := by rfl
@[simp] theorem State.agcUpdate_cfgAgcDecay (a : List F32) : (s.agcUpdate a).cfgAgcDecay = s.cfgAgcDecay := by rfl
@[simp] theorem State.agcUpdate_cfgFftSize (a : List F32) : (s.agcUpdate a).cfgFftSize = s.cfgFftSize := by rfl
@[simp] theorem State.agcUpdate_cfgAvgAlpha (a : List F32) : (s.agcUpdate a).cfgAvgAlpha = s.cfgAvgAlpha := by rfl
@[simp] theorem State.agcUpdate_taps (a : List F32) : (s.agcUpdate a).taps = s.taps := by rfl
@[simp] theorem State.agcUpdate_delay (a : List F32) : (s.agcUpdate a).delay = s.delay := by rfl
@[simp] theorem State.agcUpdate_inBuf (a : List F32) : (s.agcUpdate a).inBuf = s.inBuf := by rfl
@[simp] theorem State.agcUpdate_cnt (a : List F32) : (s.agcUpdate a).cnt = s.cnt := by rfl
@[simp] theorem State.agcUpdate_fmValid (a : List F32) : (s.agcUpdate a).fmValid = s.fmValid := by rfl
@[simp] theorem State.agcUpdate_fmPrev (a : List F32) : (s.agcUpdate a).fmPrev = s.fmPrev := by rfl
@[simp] theorem State.agcUpdate_gain (a : List F32) :
    (s.agcUpdate a).gain = agcGain s.cfgAgcTarget s.cfgAgcAttack s.cfgAgcDecay s.gain (batchRms a) := by rfl
@[simp] theorem State.agcUpdate_fifo (a : List F32) : (s.agcUpdate a).fifo = s.fifo := by rfl
@[simp] theorem State.agcUpdate_avg (a : List F32) : (s.agcUpdate a).avg = s.avg := by rfl
@[simp] theorem State.agcUpdate_wf (a : List F32) : (s.agcUpdate a).wf = s.wf := by rfl
@[simp] theorem State.agcUpdate_snapSpec (a : List F32) : (s.agcUpdate a).snapSpec = s.snapSpec := by rfl
@[simp] theorem State.agcUpdate_snapWf (a : List F32) : (s.agcUpdate a).snapWf = s.snapWf := by rfl
@[simp] theorem State.agcUpdate_snapBins (a : List F32) : (s.agcUpdate a).snapBins = s.snapBins := by rfl
@[simp] theorem State.agcUpdate_snapRows (a : List F32) : (s.agcUpdate a).snapRows = s.snapRows := by rfl
@[simp] theorem State.agcUpdate_pending (a : List F32) : (s.agcUpdate a).pending = s.pending := by rfl
@[simp] theorem State.agcUpdate_responses (a : List F32) : (s.agcUpdate a).responses = s.responses := by rfl
@[simp] theorem State.agcUpdate_draws (a : List F32) : (s.agcUpdate a).draws = s.draws := by rfl

/-! ## State.spectrumUpdate -/

@[simp] theorem State.spectrumUpdate_params (db : List F32) : (s.spectrumUpdate db).params = s.params := rfl
@[simp] theorem State.spectrumUpdate_cmdArg (db : List F32) : (s.spectrumUpdate db).cmdArg = s.cmdArg := rfl
@[simp] theorem State.spectrumUpdate_status (db : List F32) : (s.spectrumUpdate db).status = s.status := rfl
@[simp] theorem State.spectrumUpdate_errCode (db : List F32) : (s.spectrumUpdate db).errCode = s.errCode := rfl
@[simp] theorem State.spectrumUpdate_errInfo (db : List F32) : (s.spectrumUpdate db).errInfo = s.errInfo := rfl
@[simp] theorem State.spectrumUpdate_batchLen (db : List F32) : (s.spectrumUpdate db).batchLen = s.batchLen := rfl
@[simp] theorem State.spectrumUpdate_cfgBw (db : List F32) : (s.spectrumUpdate db).cfgBw = s.cfgBw := rfl
@[simp] theorem State.spectrumUpdate_cfgSqDb (db : List F32) : (s.spectrumUpdate db).cfgSqDb = s.cfgSqDb := rfl
@[simp] theorem State.spectrumUpdate_cfgSqThr (db : List F32) : (s.spectrumUpdate db).cfgSqThr = s.cfgSqThr := rfl
@[simp] theorem State.spectrumUpdate_cfgMode (db : List F32) : (s.spectrumUpdate db).cfgMode = s.cfgMode := rfl
@[simp] theorem State.spectrumUpdate_cfgAgcTarget (db : List F32) :
    (s.spectrumUpdate db).cfgAgcTarget = s.cfgAgcTarget := rfl
@[simp] theorem State.spectrumUpdate_cfgAgcAttack (db : List F32) :
    (s.spectrumUpdate db).cfgAgcAttack = s.cfgAgcAttack := rfl
@[simp] theorem State.spectrumUpdate_cfgAgcDecay (db : List F32) : (s.spectrumUpdate db).cfgAgcDecay = s.cfgAgcDecay :=
    rfl
@[simp] theorem State.spectrumUpdate_cfgFftSize (db : List F32) : (s.spectrumUpdate db).cfgFftSize = s.cfgFftSize :=
    rfl
@[simp] theorem State.spectrumUpdate_cfgAvgAlpha (db : List F32) : (s.spectrumUpdate db).cfgAvgAlpha = s.cfgAvgAlpha :=
    rfl
@[simp] theorem State.spectrumUpdate_taps (db : List F32) : (s.spectrumUpdate db).taps = s.taps := rfl
@[simp] theorem State.spectrumUpdate_delay (db : List F32) : (s.spectrumUpdate db).delay = s.delay := rfl
@[simp] theorem State.spectrumUpdate_inBuf (db : List F32) : (s.spectrumUpdate db).inBuf = s.inBuf := rfl
@[simp] theorem State.spectrumUpdate_cnt (db : List F32) : (s.spectrumUpdate db).cnt = s.cnt := rfl
@[simp] theorem State.spectrumUpdate_fmValid (db : List F32) : (s.spectrumUpdate db).fmValid = s.fmValid := rfl
@[simp] theorem State.spectrumUpdate_fmPrev (db : List F32) : (s.spectrumUpdate db).fmPrev = s.fmPrev := rfl
@[simp] theorem State.spectrumUpdate_gain (db : List F32) : (s.spectrumUpdate db).gain = s.gain := rfl
@[simp] theorem State.spectrumUpdate_fifo (db : List F32) : (s.spectrumUpdate db).fifo = s.fifo := rfl
@[simp] theorem State.spectrumUpdate_avg (db : List F32) :
    (s.spectrumUpdate db).avg = List.zipWith (ema s.cfgAvgAlpha) s.avg db := rfl
@[simp] theorem State.spectrumUpdate_wf (db : List F32) :
    (s.spectrumUpdate db).wf = (db :: s.wf).take s.params.pWfDepth := rfl
@[simp] theorem State.spectrumUpdate_snapSpec (db : List F32) : (s.spectrumUpdate db).snapSpec = s.snapSpec := rfl
@[simp] theorem State.spectrumUpdate_snapWf (db : List F32) : (s.spectrumUpdate db).snapWf = s.snapWf := rfl
@[simp] theorem State.spectrumUpdate_snapBins (db : List F32) : (s.spectrumUpdate db).snapBins = s.snapBins := rfl
@[simp] theorem State.spectrumUpdate_snapRows (db : List F32) : (s.spectrumUpdate db).snapRows = s.snapRows := rfl
@[simp] theorem State.spectrumUpdate_pending (db : List F32) : (s.spectrumUpdate db).pending = s.pending := rfl
@[simp] theorem State.spectrumUpdate_responses (db : List F32) : (s.spectrumUpdate db).responses = s.responses := rfl
@[simp] theorem State.spectrumUpdate_draws (db : List F32) : (s.spectrumUpdate db).draws = s.draws := rfl

/-! ## State.withBw -/

@[simp] theorem State.withBw_params (num : Numerics) (bw : Word) : (s.withBw num bw).params = s.params := rfl
@[simp] theorem State.withBw_cmdArg (num : Numerics) (bw : Word) : (s.withBw num bw).cmdArg = s.cmdArg := rfl
@[simp] theorem State.withBw_status (num : Numerics) (bw : Word) : (s.withBw num bw).status = s.status := rfl
@[simp] theorem State.withBw_errCode (num : Numerics) (bw : Word) : (s.withBw num bw).errCode = s.errCode := rfl
@[simp] theorem State.withBw_errInfo (num : Numerics) (bw : Word) : (s.withBw num bw).errInfo = s.errInfo := rfl
@[simp] theorem State.withBw_batchLen (num : Numerics) (bw : Word) : (s.withBw num bw).batchLen = s.batchLen := rfl
@[simp] theorem State.withBw_cfgBw (num : Numerics) (bw : Word) : (s.withBw num bw).cfgBw = bw := rfl
@[simp] theorem State.withBw_cfgSqDb (num : Numerics) (bw : Word) : (s.withBw num bw).cfgSqDb = s.cfgSqDb := rfl
@[simp] theorem State.withBw_cfgSqThr (num : Numerics) (bw : Word) : (s.withBw num bw).cfgSqThr = s.cfgSqThr := rfl
@[simp] theorem State.withBw_cfgMode (num : Numerics) (bw : Word) : (s.withBw num bw).cfgMode = s.cfgMode := rfl
@[simp] theorem State.withBw_cfgAgcTarget (num : Numerics) (bw : Word) : (s.withBw num bw).cfgAgcTarget = s.cfgAgcTarget :=
    rfl
@[simp] theorem State.withBw_cfgAgcAttack (num : Numerics) (bw : Word) : (s.withBw num bw).cfgAgcAttack = s.cfgAgcAttack :=
    rfl
@[simp] theorem State.withBw_cfgAgcDecay (num : Numerics) (bw : Word) : (s.withBw num bw).cfgAgcDecay = s.cfgAgcDecay :=
    rfl
@[simp] theorem State.withBw_cfgFftSize (num : Numerics) (bw : Word) : (s.withBw num bw).cfgFftSize = s.cfgFftSize := rfl
@[simp] theorem State.withBw_cfgAvgAlpha (num : Numerics) (bw : Word) : (s.withBw num bw).cfgAvgAlpha = s.cfgAvgAlpha :=
    rfl
@[simp] theorem State.withBw_taps (num : Numerics) (bw : Word) : (s.withBw num bw).taps = tapGen num s.params bw := rfl
@[simp] theorem State.withBw_delay (num : Numerics) (bw : Word) :
    (s.withBw num bw).delay = List.replicate s.params.pNtaps ⟨0, 0⟩ := rfl
@[simp] theorem State.withBw_inBuf (num : Numerics) (bw : Word) : (s.withBw num bw).inBuf = s.inBuf := rfl
@[simp] theorem State.withBw_cnt (num : Numerics) (bw : Word) : (s.withBw num bw).cnt = s.cnt := rfl
@[simp] theorem State.withBw_fmValid (num : Numerics) (bw : Word) : (s.withBw num bw).fmValid = s.fmValid := rfl
@[simp] theorem State.withBw_fmPrev (num : Numerics) (bw : Word) : (s.withBw num bw).fmPrev = s.fmPrev := rfl
@[simp] theorem State.withBw_gain (num : Numerics) (bw : Word) : (s.withBw num bw).gain = s.gain := rfl
@[simp] theorem State.withBw_fifo (num : Numerics) (bw : Word) : (s.withBw num bw).fifo = s.fifo := rfl
@[simp] theorem State.withBw_avg (num : Numerics) (bw : Word) : (s.withBw num bw).avg = s.avg := rfl
@[simp] theorem State.withBw_wf (num : Numerics) (bw : Word) : (s.withBw num bw).wf = s.wf := rfl
@[simp] theorem State.withBw_snapSpec (num : Numerics) (bw : Word) : (s.withBw num bw).snapSpec = s.snapSpec := rfl
@[simp] theorem State.withBw_snapWf (num : Numerics) (bw : Word) : (s.withBw num bw).snapWf = s.snapWf := rfl
@[simp] theorem State.withBw_snapBins (num : Numerics) (bw : Word) : (s.withBw num bw).snapBins = s.snapBins := rfl
@[simp] theorem State.withBw_snapRows (num : Numerics) (bw : Word) : (s.withBw num bw).snapRows = s.snapRows := rfl
@[simp] theorem State.withBw_pending (num : Numerics) (bw : Word) : (s.withBw num bw).pending = s.pending := rfl
@[simp] theorem State.withBw_responses (num : Numerics) (bw : Word) : (s.withBw num bw).responses = s.responses := rfl
@[simp] theorem State.withBw_draws (num : Numerics) (bw : Word) : (s.withBw num bw).draws = s.draws := rfl

/-! ## State.withFftSize -/

@[simp] theorem State.withFftSize_params (n : Nat) : (s.withFftSize n).params = s.params := rfl
@[simp] theorem State.withFftSize_cmdArg (n : Nat) : (s.withFftSize n).cmdArg = s.cmdArg := rfl
@[simp] theorem State.withFftSize_status (n : Nat) : (s.withFftSize n).status = s.status := rfl
@[simp] theorem State.withFftSize_errCode (n : Nat) : (s.withFftSize n).errCode = s.errCode := rfl
@[simp] theorem State.withFftSize_errInfo (n : Nat) : (s.withFftSize n).errInfo = s.errInfo := rfl
@[simp] theorem State.withFftSize_batchLen (n : Nat) : (s.withFftSize n).batchLen = s.batchLen := rfl
@[simp] theorem State.withFftSize_cfgBw (n : Nat) : (s.withFftSize n).cfgBw = s.cfgBw := rfl
@[simp] theorem State.withFftSize_cfgSqDb (n : Nat) : (s.withFftSize n).cfgSqDb = s.cfgSqDb := rfl
@[simp] theorem State.withFftSize_cfgSqThr (n : Nat) : (s.withFftSize n).cfgSqThr = s.cfgSqThr := rfl
@[simp] theorem State.withFftSize_cfgMode (n : Nat) : (s.withFftSize n).cfgMode = s.cfgMode := rfl
@[simp] theorem State.withFftSize_cfgAgcTarget (n : Nat) : (s.withFftSize n).cfgAgcTarget = s.cfgAgcTarget := rfl
@[simp] theorem State.withFftSize_cfgAgcAttack (n : Nat) : (s.withFftSize n).cfgAgcAttack = s.cfgAgcAttack := rfl
@[simp] theorem State.withFftSize_cfgAgcDecay (n : Nat) : (s.withFftSize n).cfgAgcDecay = s.cfgAgcDecay := rfl
@[simp] theorem State.withFftSize_cfgFftSize (n : Nat) : (s.withFftSize n).cfgFftSize = BitVec.ofNat 32 (nextPow2 n) :=
    rfl
@[simp] theorem State.withFftSize_cfgAvgAlpha (n : Nat) : (s.withFftSize n).cfgAvgAlpha = s.cfgAvgAlpha := rfl
@[simp] theorem State.withFftSize_taps (n : Nat) : (s.withFftSize n).taps = s.taps := rfl
@[simp] theorem State.withFftSize_delay (n : Nat) : (s.withFftSize n).delay = s.delay := rfl
@[simp] theorem State.withFftSize_inBuf (n : Nat) : (s.withFftSize n).inBuf = s.inBuf := rfl
@[simp] theorem State.withFftSize_cnt (n : Nat) : (s.withFftSize n).cnt = s.cnt := rfl
@[simp] theorem State.withFftSize_fmValid (n : Nat) : (s.withFftSize n).fmValid = s.fmValid := rfl
@[simp] theorem State.withFftSize_fmPrev (n : Nat) : (s.withFftSize n).fmPrev = s.fmPrev := rfl
@[simp] theorem State.withFftSize_gain (n : Nat) : (s.withFftSize n).gain = s.gain := rfl
@[simp] theorem State.withFftSize_fifo (n : Nat) : (s.withFftSize n).fifo = s.fifo := rfl
@[simp] theorem State.withFftSize_avg (n : Nat) : (s.withFftSize n).avg = List.replicate (nextPow2 n / 2) 0 := rfl
@[simp] theorem State.withFftSize_wf (n : Nat) : (s.withFftSize n).wf = [] := rfl
@[simp] theorem State.withFftSize_snapSpec (n : Nat) : (s.withFftSize n).snapSpec = s.snapSpec := rfl
@[simp] theorem State.withFftSize_snapWf (n : Nat) : (s.withFftSize n).snapWf = s.snapWf := rfl
@[simp] theorem State.withFftSize_snapBins (n : Nat) : (s.withFftSize n).snapBins = s.snapBins := rfl
@[simp] theorem State.withFftSize_snapRows (n : Nat) : (s.withFftSize n).snapRows = s.snapRows := rfl
@[simp] theorem State.withFftSize_pending (n : Nat) : (s.withFftSize n).pending = s.pending := rfl
@[simp] theorem State.withFftSize_responses (n : Nat) : (s.withFftSize n).responses = s.responses := rfl
@[simp] theorem State.withFftSize_draws (n : Nat) : (s.withFftSize n).draws = s.draws := rfl

/-! ## State.resetSequence: the fields it keeps, and those it sets to their reset values -/

@[simp] theorem State.resetSequence_params (num : Numerics) (k : Bool) :
    (s.resetSequence num k).params = s.params := rfl
@[simp] theorem State.resetSequence_cmdArg (num : Numerics) (k : Bool) :
    (s.resetSequence num k).cmdArg = 0 := rfl
@[simp] theorem State.resetSequence_status (num : Numerics) (k : Bool) :
    (s.resetSequence num k).status = 0 := rfl
@[simp] theorem State.resetSequence_errCode (num : Numerics) (k : Bool) :
    (s.resetSequence num k).errCode = 0 := rfl
@[simp] theorem State.resetSequence_errInfo (num : Numerics) (k : Bool) :
    (s.resetSequence num k).errInfo = 0 := rfl
@[simp] theorem State.resetSequence_batchLen (num : Numerics) (k : Bool) :
    (s.resetSequence num k).batchLen = 0 := rfl
@[simp] theorem State.resetSequence_cfgBw (num : Numerics) (k : Bool) :
    (s.resetSequence num k).cfgBw = s.params.pRstBw := rfl
@[simp] theorem State.resetSequence_cfgSqDb (num : Numerics) (k : Bool) :
    (s.resetSequence num k).cfgSqDb = s.params.pRstSqDb := rfl
@[simp] theorem State.resetSequence_cfgSqThr (num : Numerics) (k : Bool) :
    (s.resetSequence num k).cfgSqThr = sqThreshold num s.params.pRstSqDb := rfl
@[simp] theorem State.resetSequence_cfgMode (num : Numerics) (k : Bool) :
    (s.resetSequence num k).cfgMode = s.params.pRstMode := rfl
@[simp] theorem State.resetSequence_cfgAgcTarget (num : Numerics) (k : Bool) :
    (s.resetSequence num k).cfgAgcTarget = s.params.pRstAgcTarget := rfl
@[simp] theorem State.resetSequence_cfgAgcAttack (num : Numerics) (k : Bool) :
    (s.resetSequence num k).cfgAgcAttack = s.params.pRstAgcAttack := rfl
@[simp] theorem State.resetSequence_cfgAgcDecay (num : Numerics) (k : Bool) :
    (s.resetSequence num k).cfgAgcDecay = s.params.pRstAgcDecay := rfl
@[simp] theorem State.resetSequence_cfgFftSize (num : Numerics) (k : Bool) :
    (s.resetSequence num k).cfgFftSize = s.params.pRstFftSize := rfl
@[simp] theorem State.resetSequence_cfgAvgAlpha (num : Numerics) (k : Bool) :
    (s.resetSequence num k).cfgAvgAlpha = s.params.pRstAlpha := rfl
@[simp] theorem State.resetSequence_taps (num : Numerics) (k : Bool) :
    (s.resetSequence num k).taps = tapGen num s.params s.params.pRstBw := rfl
@[simp] theorem State.resetSequence_delay (num : Numerics) (k : Bool) :
    (s.resetSequence num k).delay = List.replicate s.params.pNtaps ⟨0, 0⟩ := rfl
@[simp] theorem State.resetSequence_inBuf (num : Numerics) (k : Bool) :
    (s.resetSequence num k).inBuf = if k then s.inBuf else [] := rfl
@[simp] theorem State.resetSequence_cnt (num : Numerics) (k : Bool) :
    (s.resetSequence num k).cnt = 0 := rfl
@[simp] theorem State.resetSequence_fmValid (num : Numerics) (k : Bool) :
    (s.resetSequence num k).fmValid = false := rfl
@[simp] theorem State.resetSequence_fmPrev (num : Numerics) (k : Bool) :
    (s.resetSequence num k).fmPrev = ⟨0, 0⟩ := rfl
@[simp] theorem State.resetSequence_gain (num : Numerics) (k : Bool) :
    (s.resetSequence num k).gain = Config.ONE := rfl
@[simp] theorem State.resetSequence_fifo (num : Numerics) (k : Bool) :
    (s.resetSequence num k).fifo = [] := rfl
@[simp] theorem State.resetSequence_avg (num : Numerics) (k : Bool) :
    (s.resetSequence num k).avg = List.replicate (s.params.pRstFftSize.toNat / 2) 0 := rfl
@[simp] theorem State.resetSequence_wf (num : Numerics) (k : Bool) :
    (s.resetSequence num k).wf = [] := rfl
@[simp] theorem State.resetSequence_snapSpec (num : Numerics) (k : Bool) :
    (s.resetSequence num k).snapSpec = List.replicate (s.params.pFftMax / 2) 0 := rfl
@[simp] theorem State.resetSequence_snapWf (num : Numerics) (k : Bool) :
    (s.resetSequence num k).snapWf = List.replicate (s.params.pWfDepth * (s.params.pFftMax / 2)) 0 := rfl
@[simp] theorem State.resetSequence_snapBins (num : Numerics) (k : Bool) :
    (s.resetSequence num k).snapBins = BitVec.ofNat 32 (s.params.pRstFftSize.toNat / 2) := rfl
@[simp] theorem State.resetSequence_snapRows (num : Numerics) (k : Bool) :
    (s.resetSequence num k).snapRows = 0 := rfl
@[simp] theorem State.resetSequence_pending (num : Numerics) (k : Bool) :
    (s.resetSequence num k).pending = s.pending := rfl
@[simp] theorem State.resetSequence_responses (num : Numerics) (k : Bool) :
    (s.resetSequence num k).responses = s.responses := rfl
@[simp] theorem State.resetSequence_draws (num : Numerics) (k : Bool) :
    (s.resetSequence num k).draws = s.draws := rfl

end Sys2Proof.Machine
end

