-- ==== Sys2Proof/Laws/Ops.lean ====
section
/-! SUPPORT. What recording an error, clearing and popping do to STATUS and the error capture, in the terms of
Safety.lean. -/

namespace Sys2Proof.Machine

theorem State.noError_iff {s : State} : s.noError = true ↔ s.status &&& errorBits = 0 := by
  unfold State.noError
  exact decide_eq_true_iff

theorem State.noError_eq_false_iff {s : State} : s.noError = false ↔ s.status &&& errorBits ≠ 0 := by
  rw [← Bool.not_eq_true, State.noError_iff]

/-- `record` in R232's words. -/
theorem State.record_eq_recorded (s : State) (c : ErrCode) (info : Word) :
    s.record c info = s.recorded c.classBit c.num info := by
  by_cases h : s.status &&& 0x7 = 0
  · have h1 : s.noError = true := State.noError_iff.2 h
    simp only [State.record, State.recorded, h1, h, if_true]
  · have h1 : s.noError = false := State.noError_eq_false_iff.2 h
    simp only [State.record, State.recorded, h1, h, if_false, Bool.false_eq_true]

theorem ErrCode.classBit_cases (c : ErrCode) :
    c.classBit = CMD_ERR ∨ c.classBit = CFG_ERR ∨ c.classBit = BUS_ERR := by
  cases c <;> simp [ErrCode.classBit]

/-- A class bit is an error bit. -/
theorem ErrCode.classBit_and_errorBits (c : ErrCode) : c.classBit &&& errorBits = c.classBit := by
  cases c <;> decide

theorem ErrCode.classBit_ne_zero (c : ErrCode) : c.classBit ≠ 0 := by cases c <;> decide

theorem ErrCode.classBit_defined (c : ErrCode) : c.classBit &&& ~~~definedBits = 0 := by cases c <;> decide

/-- After an error is recorded, one is pending. -/
theorem State.record_noError (s : State) (c : ErrCode) (info : Word) : (s.record c info).noError = false := by
  rw [State.noError_eq_false_iff, State.record_status]
  rw [BitVec.and_or_distrib_right, ErrCode.classBit_and_errorBits]
  exact fun h => ErrCode.classBit_ne_zero c (BitVec.or_eq_zero_iff.1 h).2

/-- Bits that hold no error bit do not show in `noError`. -/
theorem noError_or {st b : Word} (h : b &&& errorBits = 0) : (st ||| b) &&& errorBits = st &&& errorBits := by
  rw [BitVec.and_or_distrib_right, h]
  exact BitVec.or_zero

end Sys2Proof.Machine
end

