-- ==== Sys2Proof/Laws/Memory.lean ====
section
/-! SUPPORT. The byte lanes of IN: a byte read after a write, the canonical form kept by every write, and words built
from their lanes. -/

namespace Sys2Proof.Machine

theorem Memory.readByte_writeByte (m : Memory) (a b : Nat) (v : Byte) :
    (m.writeByte a v).readByte b = if b = a then some v else m.readByte b := by
  induction m with
  | nil => by_cases h : b = a <;> simp [Memory.writeByte, Memory.readByte, h, Ne.symm]
  | cons c m ih =>
    unfold Memory.writeByte
    split
    · by_cases h : b = a
      · simp [Memory.readByte, h]
      · simp [Memory.readByte, h, Ne.symm h]
    · split
      · rename_i _ h
        by_cases hb : b = a
        · simp [Memory.readByte, hb]
        · simp [Memory.readByte, hb, Ne.symm hb, h]
      · rename_i _ h
        by_cases hc : c.1 = b
        · have : b ≠ a := by omega
          simp [Memory.readByte, hc, this]
        · simp [Memory.readByte, hc, ih]

/-- The entries of a memory after a write are the written one and old ones. -/
theorem Memory.mem_writeByte {m : Memory} {a : Nat} {v : Byte} {c : Host.Cell}
    (h : c ∈ m.writeByte a v) : c = (a, v) ∨ c ∈ m := by
  induction m with
  | nil => simpa [Memory.writeByte] using h
  | cons d m ih =>
    unfold Memory.writeByte at h
    split at h
    · simpa using h
    · split at h
      · rcases List.mem_cons.1 h with h | h
        · exact .inl h
        · exact .inr (List.mem_cons_of_mem _ h)
      · rcases List.mem_cons.1 h with h | h
        · exact .inr (h ▸ List.mem_cons_self)
        · exact (ih h).imp id (List.mem_cons_of_mem _)

theorem Memory.wf_writeByte {m : Memory} (h : m.wf) (a : Nat) (v : Byte) : (m.writeByte a v).wf := by
  induction m with
  | nil => exact List.pairwise_singleton _ _
  | cons c m ih =>
    have ⟨hc, hm⟩ := List.pairwise_cons.1 h
    unfold Memory.writeByte
    split
    · rename_i hlt
      refine List.pairwise_cons.2 ⟨fun d hd => ?_, h⟩
      rcases List.mem_cons.1 hd with rfl | hd
      · exact hlt
      · exact hlt.trans (hc d hd)
    · split
      · rename_i heq
        exact List.pairwise_cons.2 ⟨fun d hd => heq ▸ hc d hd, hm⟩
      · refine List.pairwise_cons.2 ⟨fun d hd => ?_, ih hm⟩
        rcases Memory.mem_writeByte hd with rfl | hd
        · simp only; omega
        · exact hc d hd

theorem Memory.wf_writeWord {m : Memory} (h : m.wf) (a : Nat) (w : Word) : (m.writeWord a w).wf :=
  Memory.wf_writeByte (Memory.wf_writeByte (Memory.wf_writeByte (Memory.wf_writeByte h _ _) _ _) _ _) _ _

/-- A byte of the memory after a word was written: a lane of the word inside it, the old byte outside. -/
theorem Memory.readByte_writeWord (m : Memory) (a b : Nat) (w : Word) :
    (m.writeWord a w).readByte b =
      if a ≤ b ∧ b < a + 4 then some (laneOf w (b - a)) else m.readByte b := by
  unfold Memory.writeWord
  simp only [Memory.readByte_writeByte]
  rcases Nat.lt_or_ge b a with h | h
  · rw [if_neg (by omega), if_neg (by omega), if_neg (by omega), if_neg (by omega), if_neg (by omega)]
  · obtain ⟨k, rfl⟩ := Nat.exists_eq_add_of_le h
    by_cases hk : k < 4
    · rw [if_pos (by omega : a ≤ a + k ∧ a + k < a + 4), Nat.add_sub_cancel_left]
      rcases (by omega : k = 0 ∨ k = 1 ∨ k = 2 ∨ k = 3) with rfl | rfl | rfl | rfl <;> simp
    · rw [if_neg (by omega), if_neg (by omega), if_neg (by omega), if_neg (by omega), if_neg (by omega)]

theorem wordOfBytes_lanes (w : Word) : wordOfBytes (laneOf w 0) (laneOf w 1) (laneOf w 2) (laneOf w 3) = w := by
  unfold wordOfBytes laneOf
  ext i hi
  simp only [BitVec.getElem_append, BitVec.getElem_extractLsb']
  rcases Nat.lt_or_ge i 8 with h | h
  · simp [h, BitVec.getLsbD_eq_getElem, hi]
  rcases Nat.lt_or_ge i 16 with h' | h'
  · have : ¬ i < 8 := by omega
    have h2 : i - 8 < 8 := by omega
    have h3 : 8 + (i - 8) = i := by omega
    simp [this, h2, h3, BitVec.getLsbD_eq_getElem, hi]
  rcases Nat.lt_or_ge i 24 with h'' | h''
  · have h1 : ¬ i < 8 := by omega
    have h2 : ¬ i - 8 < 8 := by omega
    have h3 : i - 8 - 8 < 8 := by omega
    have h4 : 16 + (i - 8 - 8) = i := by omega
    simp [h1, h2, h3, h4, BitVec.getLsbD_eq_getElem, hi]
  · have h1 : ¬ i < 8 := by omega
    have h2 : ¬ i - 8 < 8 := by omega
    have h3 : ¬ i - 8 - 8 < 8 := by omega
    have h4 : 24 + (i - 8 - 8 - 8) = i := by omega
    simp [h1, h2, h3, h4, BitVec.getLsbD_eq_getElem, hi]

/-- A word read back after it was written is the word. -/
theorem Memory.readWord_writeWord (m : Memory) (a : Nat) (w : Word) : (m.writeWord a w).readWord a = some w := by
  simp [Memory.readWord, Memory.readByte_writeWord, wordOfBytes_lanes]

/-- A word outside the one written is as it was. -/
theorem Memory.readWord_writeWord_of_disjoint (m : Memory) {a b : Nat} (w : Word) (h : b + 4 ≤ a ∨ a + 4 ≤ b) :
    (m.writeWord a w).readWord b = m.readWord b := by
  unfold Memory.readWord
  simp only [Memory.readByte_writeWord]
  rw [if_neg (by omega), if_neg (by omega), if_neg (by omega), if_neg (by omega)]

theorem Memory.readWord_isSome {m : Memory} {a : Nat} :
    (m.readWord a).isSome ↔ ∀ n < 4, (m.readByte (a + n)).isSome := by
  constructor
  · intro h n hn
    unfold Memory.readWord at h
    split at h
    · rename_i h0 h1 h2 h3
      rcases (by omega : n = 0 ∨ n = 1 ∨ n = 2 ∨ n = 3) with rfl | rfl | rfl | rfl <;> simp_all
    · simp at h
  · intro h
    have h0 := Option.isSome_iff_exists.1 (h 0 (by omega))
    have h1 := Option.isSome_iff_exists.1 (h 1 (by omega))
    have h2 := Option.isSome_iff_exists.1 (h 2 (by omega))
    have h3 := Option.isSome_iff_exists.1 (h 3 (by omega))
    obtain ⟨b0, h0⟩ := h0
    obtain ⟨b1, h1⟩ := h1
    obtain ⟨b2, h2⟩ := h2
    obtain ⟨b3, h3⟩ := h3
    simp only [Nat.add_zero] at h0
    simp [Memory.readWord, h0, h1, h2, h3]

/-! ## Samples -/

theorem Memory.sample_isSome {m : Memory} {j : Nat} :
    (m.sample j).isSome ↔ (m.readWord (inOffset j)).isSome ∧ (m.readWord (inOffset j + 4)).isSome := by
  unfold Memory.sample
  cases m.readWord (inOffset j) <;> cases m.readWord (inOffset j + 4) <;> simp

theorem Memory.samples_succ (m : Memory) (start n : Nat) :
    m.samples start (n + 1) =
      match m.sample start, m.samples (start + 1) n with
      | some x, some xs => some (x :: xs)
      | _, _ => none := rfl

/-- The samples of a range all hold values exactly when each of them does. -/
theorem Memory.samples_isSome {m : Memory} (n start : Nat) :
    (m.samples start n).isSome ↔ ∀ j, start ≤ j → j < start + n → (m.sample j).isSome := by
  induction n generalizing start with
  | zero => simp [Memory.samples]; omega
  | succ n ih =>
    rw [Memory.samples_succ]
    constructor
    · intro h j h1 h2
      split at h
      · rename_i x xs hx hxs
        rcases Nat.eq_or_lt_of_le h1 with rfl | h1
        · simp [hx]
        · exact (ih (start + 1)).1 (by simp [hxs]) j (by omega) (by omega)
      · simp at h
    · intro h
      have hx := h start (le_refl _) (by omega)
      have hxs := (ih (start + 1)).2 fun j h1 h2 => h j (by omega) (by omega)
      obtain ⟨x, hx⟩ := Option.isSome_iff_exists.1 hx
      obtain ⟨xs, hxs⟩ := Option.isSome_iff_exists.1 hxs
      simp [hx, hxs]

/-- What the samples of a range are. -/
theorem Memory.samples_spec {m : Memory} {n start : Nat} {xs : List Sample} (h : m.samples start n = some xs) :
    xs.length = n ∧ ∀ j, j < n → m.sample (start + j) = xs[j]? := by
  induction n generalizing start xs with
  | zero =>
    obtain rfl : xs = [] := by simpa [Memory.samples] using h.symm
    simp
  | succ n ih =>
    rw [Memory.samples_succ] at h
    split at h
    · rename_i x ys hx hys
      obtain rfl : xs = x :: ys := by simpa using h.symm
      obtain ⟨hl, hj⟩ := ih hys
      refine ⟨by simp [hl], fun j hj' => ?_⟩
      cases j with
      | zero => simpa using hx
      | succ j =>
        have := hj j (by omega)
        rw [show start + (j + 1) = start + 1 + j by omega, this, List.getElem?_cons_succ]
    · simp at h

end Sys2Proof.Machine
end

