-- ==== Sys2Proof/Laws/Process.lean ====
section
/-! SUPPORT. The sample loop of PROCESS and its delivery: what each writes, how many audio samples come out, and where
the counter, the delay line and the FM reference end. -/

namespace Sys2Proof.Machine

/-! ## The sample loop writes DL, CNT and the FM reference only -/

theorem State.runSamples_cons (s : State) (x : Sample) (xs : List Sample) :
    s.runSamples (x :: xs) = (s.sampleNext x).runSamples xs := rfl

theorem State.runSamples_append (s : State) (xs ys : List Sample) :
    s.runSamples (xs ++ ys) = (s.runSamples xs).runSamples ys := by
  induction xs generalizing s with
  | nil => rfl
  | cons x xs ih => exact ih _

theorem State.audioBatch_append (num : Numerics) (s : State) (xs ys : List Sample) :
    s.audioBatch num (xs ++ ys) = s.audioBatch num xs ++ (s.runSamples xs).audioBatch num ys := by
  induction xs generalizing s with
  | nil => rfl
  | cons x xs ih => simp [State.audioBatch, State.runSamples, ih, List.append_assoc]

/-- All the sample loop may change. -/
theorem State.runSamples_frame (s : State) (xs : List Sample) :
    s.runSamples xs = { s with
      delay := (s.runSamples xs).delay
      cnt := (s.runSamples xs).cnt
      fmValid := (s.runSamples xs).fmValid
      fmPrev := (s.runSamples xs).fmPrev } := by
  induction xs generalizing s with
  | nil => rfl
  | cons x xs ih =>
    rw [State.runSamples_cons, ih (s.sampleNext x)]
    rfl

theorem State.runSamples_params (s : State) (xs : List Sample) : (s.runSamples xs).params = s.params := by
  rw [State.runSamples_frame]

theorem State.runSamples_cfgMode (s : State) (xs : List Sample) : (s.runSamples xs).cfgMode = s.cfgMode := by
  rw [State.runSamples_frame]

theorem State.runSamples_taps (s : State) (xs : List Sample) : (s.runSamples xs).taps = s.taps := by
  rw [State.runSamples_frame]

/-! ## The counter and the number of audio samples (R130, R161) -/

theorem State.sampleNext_cnt (s : State) (x : Sample) :
    (s.sampleNext x).cnt = if s.cnt.toNat + 1 = s.params.pDecim then 0 else s.cnt + 1 := by
  by_cases h : s.cnt.toNat + 1 = s.params.pDecim <;> simp [State.sampleNext, State.atTick, h]

theorem State.sampleOut_length (num : Numerics) (s : State) (x : Sample) :
    (s.sampleOut num x).toList.length = if s.cnt.toNat + 1 = s.params.pDecim then 1 else 0 := by
  by_cases h : s.cnt.toNat + 1 = s.params.pDecim <;> simp [State.sampleOut, State.demodOut, State.atTick, h]

/-- One sample moves the counter one on, modulo D, and makes an audio sample when it wraps. -/
theorem State.sampleNext_cnt_toNat {s : State} (x : Sample) (h : s.cnt.toNat < s.params.pDecim)
    (hD : s.params.pDecim ≤ 65535) : (s.sampleNext x).cnt.toNat = (s.cnt.toNat + 1) % s.params.pDecim := by
  rw [State.sampleNext_cnt]
  split
  · rename_i h1
    simp [h1]
  · rw [Nat.mod_eq_of_lt (by omega), BitVec.toNat_add]
    simp
    omega

theorem State.runSamples_cnt {s : State} (xs : List Sample) (h : s.cnt.toNat < s.params.pDecim)
    (hD : s.params.pDecim ≤ 65535) :
    (s.runSamples xs).cnt.toNat = (s.cnt.toNat + xs.length) % s.params.pDecim := by
  induction xs generalizing s with
  | nil => simp [State.runSamples, Nat.mod_eq_of_lt h]
  | cons x xs ih =>
    have hp : (s.sampleNext x).params = s.params := rfl
    have hc := State.sampleNext_cnt_toNat x h hD
    have hlt : (s.sampleNext x).cnt.toNat < (s.sampleNext x).params.pDecim := by
      rw [hc, hp]; exact Nat.mod_lt _ (by omega)
    rw [State.runSamples_cons, ih hlt (by rw [hp]; exact hD), hc, hp, Nat.mod_add_mod, List.length_cons]
    congr 1
    omega

theorem State.audioBatch_length (num : Numerics) {s : State} (xs : List Sample) (h : s.cnt.toNat < s.params.pDecim)
    (hD : s.params.pDecim ≤ 65535) :
    (s.audioBatch num xs).length = (s.cnt.toNat + xs.length) / s.params.pDecim := by
  induction xs generalizing s with
  | nil => simp [State.audioBatch, Nat.div_eq_of_lt h]
  | cons x xs ih =>
    have hp : (s.sampleNext x).params = s.params := rfl
    have hc := State.sampleNext_cnt_toNat x h hD
    have hlt : (s.sampleNext x).cnt.toNat < (s.sampleNext x).params.pDecim := by
      rw [hc, hp]; exact Nat.mod_lt _ (by omega)
    rw [State.audioBatch, List.length_append, ih hlt (by rw [hp]; exact hD), State.sampleOut_length, hc, hp,
      List.length_cons]
    split
    · rename_i h1
      have h2 : s.cnt.toNat + (xs.length + 1) = xs.length + s.params.pDecim := by omega
      rw [h1, Nat.mod_self, h2, Nat.add_div_right _ (by omega : 0 < s.params.pDecim), Nat.zero_add]
      omega
    · rw [Nat.mod_eq_of_lt (by omega), Nat.zero_add]
      congr 1
      omega

/-! ## The delay line and the FM reference (R102, R103, R125) -/

theorem shiftIn_length {x : Sample} {dl : List Sample} (h : 1 ≤ dl.length) : (shiftIn x dl).length = dl.length := by
  simp [shiftIn]; omega

theorem shiftIn_eq_take {x : Sample} {dl : List Sample} (h : 1 ≤ dl.length) :
    shiftIn x dl = (x :: dl).take dl.length := by
  obtain ⟨n, hn⟩ : ∃ n, dl.length = n + 1 := ⟨dl.length - 1, by omega⟩
  rw [shiftIn, hn, List.take_succ_cons, List.dropLast_eq_take, hn]
  rfl

theorem State.runSamples_delay_length {s : State} (xs : List Sample) (h : 1 ≤ s.delay.length) :
    (s.runSamples xs).delay.length = s.delay.length := by
  induction xs generalizing s with
  | nil => rfl
  | cons x xs ih =>
    have : (s.sampleNext x).delay.length = s.delay.length := shiftIn_length h
    rw [State.runSamples_cons, ih (by omega), this]

theorem State.runSamples_delay {s : State} (xs : List Sample) (h : 1 ≤ s.delay.length) :
    (s.runSamples xs).delay = (xs.reverse ++ s.delay).take s.delay.length := by
  induction xs generalizing s with
  | nil => simp [State.runSamples]
  | cons x xs ih =>
    have hd : (s.sampleNext x).delay = (x :: s.delay).take s.delay.length := shiftIn_eq_take h
    have hl : (s.sampleNext x).delay.length = s.delay.length := shiftIn_length h
    rw [State.runSamples_cons, ih (by omega), hl, hd, List.reverse_cons, List.append_assoc]
    simp only [List.take_append, List.singleton_append, List.take_take]
    congr 2
    omega

theorem State.runSamples_fm {s : State} (h : s.cfgMode = .fm) {xs : List Sample} (hx : xs ≠ []) :
    (s.runSamples xs).fmValid = true ∧ (s.runSamples xs).fmPrev = (s.runSamples xs).firOut := by
  induction xs generalizing s with
  | nil => exact absurd rfl hx
  | cons x xs ih =>
    cases xs with
    | nil =>
      simp only [State.runSamples, State.sampleNext, State.demodNext_fmValid, State.demodNext_fmPrev,
        State.firShift_cfgMode, h, decide_true, Bool.or_true, if_true, true_and]
      rfl
    | cons y ys =>
      rw [State.runSamples_cons]
      exact ih (s := s.sampleNext x) h (by simp)

theorem State.runSamples_fm_idle {s : State} (h : s.cfgMode ≠ .fm) (xs : List Sample) :
    (s.runSamples xs).fmValid = s.fmValid ∧ (s.runSamples xs).fmPrev = s.fmPrev := by
  induction xs generalizing s with
  | nil => exact ⟨rfl, rfl⟩
  | cons x xs ih =>
    rw [State.runSamples_cons]
    obtain ⟨h1, h2⟩ := ih (s := s.sampleNext x) h
    rw [h1, h2]
    simp [State.sampleNext, h]

/-! ## Delivery writes G, FIFO and AUDIO_OVF only -/

theorem State.deliver_nil (s : State) : s.deliver [] = s := rfl

theorem State.deliver_of_ne_nil (s : State) {a : List F32} (h : a ≠ []) :
    s.deliver a = (s.agcUpdate a).fifoAppend (squelch s.cfgSqThr (agcScale (s.agcUpdate a).gain a)) := by
  rw [State.deliver, if_neg h]
  rfl

theorem State.deliver_frame (s : State) (a : List F32) :
    s.deliver a = { s with
      gain := (s.deliver a).gain, fifo := (s.deliver a).fifo, status := (s.deliver a).status } := by
  unfold State.deliver
  split <;> rfl

/-- All PROCESS may change on a loaded batch. -/
theorem processSamples_frame (num : Numerics) (xs : List Sample) (s : State) :
    processSamples num xs s = { s with
      delay := (s.runSamples xs).delay, cnt := (s.runSamples xs).cnt
      fmValid := (s.runSamples xs).fmValid, fmPrev := (s.runSamples xs).fmPrev
      gain := (processSamples num xs s).gain, fifo := (processSamples num xs s).fifo
      status := (processSamples num xs s).status } := by
  have h1 := State.deliver_frame (s.runSamples xs) (s.audioBatch num xs)
  have h2 := State.runSamples_frame s xs
  rw [show processSamples num xs s = (s.runSamples xs).deliver (s.audioBatch num xs) from rfl]
  generalize (s.runSamples xs).deliver (s.audioBatch num xs) = d at h1 ⊢
  generalize s.runSamples xs = u at h1 h2 ⊢
  rw [h2] at h1
  exact h1

theorem squelch_length (thr : F32) (a : List F32) : (squelch thr a).length = a.length := by
  unfold squelch
  split <;> simp

theorem agcScale_length (g : F32) (a : List F32) : (agcScale g a).length = a.length := by simp [agcScale]

theorem State.fifoAppend_length (s : State) (a : List F32) :
    (s.fifoAppend a).fifo.length = min (s.fifo.length + a.length) s.params.pAudioLimit := by
  simp; omega

/-- Every way PROCESS ends in a next state (R160). -/
theorem process_next {num : Numerics} {s t : State} (h : process num s = .next t) :
    (s.params.pMaxBatch < s.batch ∧ t = s.record .badBatchLen s.batchLen) ∨
    (s.batch ≤ s.params.pMaxBatch ∧ ∃ xs, s.inBuf.samples 0 s.batch = some xs ∧ t = processSamples num xs s) := by
  unfold process at h
  split at h
  · rename_i hlt
    exact .inl ⟨hlt, by simpa using h.symm⟩
  · rename_i hlt
    split at h
    · cases h
    · rename_i xs hxs
      exact .inr ⟨by omega, xs, hxs, by simpa using h.symm⟩

end Sys2Proof.Machine
end

