-- ==== Sys2Proof/Laws/Spectrum.lean ====
section
/-! SUPPORT. The spectrum: powers of two, bit reversal, the sizes of the transform and its row, and what SPECTRUM
writes. -/

namespace Sys2Proof

theorem isPow2_iff {n : Nat} : isPow2 n = true ↔ ∃ e, n = 2 ^ e := by
  unfold isPow2
  simp only [decide_eq_true_eq]
  constructor
  · rintro ⟨_, h⟩
    exact ⟨_, h.symm⟩
  · rintro ⟨e, rfl⟩
    exact ⟨(Nat.two_pow_pos e).ne', by rw [Nat.log2_two_pow]⟩

theorem two_pow_log2 {n : Nat} (h : isPow2 n = true) : 2 ^ n.log2 = n := by
  simp only [isPow2, decide_eq_true_eq] at h
  exact h.2

/-- NEXTPOW2 is the smallest power of two that is at least `n` (R182). -/
theorem nextPow2_spec {n : Nat} (h : 2 ≤ n) :
    ∃ e, nextPow2 n = 2 ^ e ∧ n ≤ 2 ^ e ∧ ∀ k, n ≤ 2 ^ k → e ≤ k := by
  have hne : n - 1 ≠ 0 := by omega
  refine ⟨(n - 1).log2 + 1, by rw [nextPow2, if_neg (by omega)], ?_, fun k hk => ?_⟩
  · have := @Nat.lt_log2_self (n - 1)
    omega
  · have h1 := Nat.log2_self_le hne
    have h2 : 2 ^ (n - 1).log2 < 2 ^ k := by omega
    exact (Nat.pow_lt_pow_iff_right (by decide)).1 h2

/-- A request no larger than a power of two is not rounded above it. -/
theorem nextPow2_le {n M : Nat} (h : 2 ≤ n) (hM : isPow2 M = true) (hle : n ≤ M) : nextPow2 n ≤ M := by
  obtain ⟨e, he, _, hmin⟩ := nextPow2_spec h
  obtain ⟨k, rfl⟩ := isPow2_iff.1 hM
  rw [he]
  exact Nat.pow_le_pow_right (by decide) (hmin k hle)

end Sys2Proof

namespace Sys2Proof.Machine

/-! ## Bit reversal (R185) -/

theorem bitRev_lt (e i : Nat) : bitRev e i < 2 ^ e := by
  induction e generalizing i with
  | zero => simp [bitRev]
  | succ e ih =>
    have := ih (i / 2)
    have h2 : i % 2 < 2 := Nat.mod_lt _ (by decide)
    rw [bitRev, Nat.pow_succ]
    rcases (by omega : i % 2 = 0 ∨ i % 2 = 1) with h | h <;> rw [h] <;> omega

theorem testBit_bitRev {e k : Nat} (i : Nat) (h : k < e) :
    (bitRev e i).testBit k = i.testBit (e - 1 - k) := by
  induction e generalizing i k with
  | zero => omega
  | succ e ih =>
    have hlt := bitRev_lt e (i / 2)
    rw [bitRev, Nat.mul_comm, Nat.testBit_two_pow_mul_add _ hlt]
    split
    · rename_i hk
      rw [ih _ hk, Nat.testBit_div_two]
      congr 1
      omega
    · have : k = e := by omega
      subst this
      rw [Nat.sub_self, show k + 1 - 1 - k = 0 by omega, Nat.testBit_zero, Nat.testBit_zero]
      simp

theorem bitReverse_length (e : Nat) (x : List Sample) : (bitReverse e x).length = 2 ^ e := by simp [bitReverse]

/-! ## Sizes -/

theorem bflyBlock_length (tw : List Sample) (stride h : Nat) (blk : List Sample) :
    (bflyBlock tw stride h blk).length = 2 * h := by
  simp [bflyBlock]; omega

theorem fftStage_length (tw : List Sample) (stride h n : Nat) (x : List Sample) :
    (fftStage tw stride h n x).length = n * (2 * h) := by
  induction n generalizing x with
  | zero => simp [fftStage]
  | succ n ih => rw [fftStage, List.length_append, bflyBlock_length, ih]; ring

theorem fftStages_length (tw : List Sample) (e left k : Nat) (x : List Sample) (hk : k + left ≤ e)
    (hx : x.length = 2 ^ e) : (fftStages tw e k left x).length = 2 ^ e := by
  induction left generalizing k x with
  | zero => exact hx
  | succ left ih =>
    rw [fftStages]
    refine ih _ _ (by omega) ?_
    rw [fftStage_length, ← Nat.pow_succ', ← Nat.pow_add]
    congr 1
    omega

theorem fft_length (tw : List Sample) (e : Nat) (x : List Sample) : (fft tw e x).length = 2 ^ e :=
  fftStages_length tw e e 0 _ (by omega) (bitReverse_length e x)

theorem dbRow_length (num : Numerics) {F : Nat} (h : isPow2 F = true) (seg : List Sample) :
    (dbRow num F seg).length = F / 2 := by
  rw [dbRow, List.length_map, List.length_take, fft_length, two_pow_log2 h]
  omega

/-! ## SPECTRUM and the waterfall -/

/-- Every way SPECTRUM ends in a next state (R183). -/
theorem spectrum_next {num : Numerics} {s t : State} (h : spectrum num s = .next t) :
    (s.params.pMaxBatch < s.batch ∧ t = s.record .badBatchLen s.batchLen) ∨
    (s.batch ≤ s.params.pMaxBatch ∧ s.batch < s.fftSize ∧ t = s) ∨
    (s.batch ≤ s.params.pMaxBatch ∧ s.fftSize ≤ s.batch ∧
      ∃ seg, s.inBuf.samples (s.batch - s.fftSize) s.fftSize = some seg ∧
        t = s.spectrumUpdate (dbRow num s.fftSize seg)) := by
  unfold spectrum at h
  split at h
  · rename_i hlt
    exact .inl ⟨hlt, by simpa using h.symm⟩
  · rename_i hlt
    split at h
    · rename_i hF
      exact .inr (.inl ⟨by omega, hF, by simpa using h.symm⟩)
    · rename_i hF
      split at h
      · cases h
      · rename_i seg hseg
        exact .inr (.inr ⟨by omega, by omega, seg, hseg, by simpa using h.symm⟩)

/-- The waterfall after a sequence of updates: the newest rows, newest first (R192). -/
theorem State.foldl_spectrumUpdate_wf (s : State) (rows : List (List F32)) (h : s.wf.length ≤ s.params.pWfDepth) :
    (rows.foldl State.spectrumUpdate s).wf = (rows.reverse ++ s.wf).take s.params.pWfDepth := by
  induction rows generalizing s with
  | nil => simp [List.take_of_length_le h]
  | cons r rows ih =>
    rw [List.foldl_cons, ih _ (by simp), State.spectrumUpdate_wf, State.spectrumUpdate_params, List.reverse_cons,
      List.append_assoc, List.singleton_append]
    simp only [List.take_append, List.take_take]
    congr 2
    omega

theorem overwrite_overwrite (a x : List F32) : overwrite a (overwrite a x) = overwrite a x := by
  simp [overwrite]

theorem overwrite_length {a x : List F32} (h : a.length ≤ x.length) : (overwrite a x).length = x.length := by
  simp [overwrite]; omega

theorem overwrite_getD {a x : List F32} {k : Nat} (h : k < a.length) (d : F32) :
    (overwrite a x).getD k d = a.getD k d := by
  rw [overwrite, List.getD_append _ _ _ _ h]

end Sys2Proof.Machine
end

