-- ==== Sys2Proof/Laws/Exec.lean ====
section
/-! SUPPORT. What each command answers: one lemma a command, and the one inversion of `exec` that says everything a
command can do. -/

namespace Sys2Proof.Machine

/-- The effect of a command that is not rejected. -/
def Effect (i : Instr) (s t : State) : Prop :=
  match i with
  | .nop => t = s
  | .reset => t = s.resetSequence Config.num true
  | .process => s.batch ≤ s.params.pMaxBatch ∧
      ∃ xs, s.inBuf.samples 0 s.batch = some xs ∧ t = processSamples Config.num xs s
  | .spectrum => s.batch ≤ s.params.pMaxBatch ∧ ((s.batch < s.fftSize ∧ t = s) ∨
      (s.fftSize ≤ s.batch ∧ ∃ seg, s.inBuf.samples (s.batch - s.fftSize) s.fftSize = some seg ∧
        t = s.spectrumUpdate (dbRow Config.num s.fftSize seg)))
  | .setBw => legalBw s.params s.cmdArg = true ∧ badTapSum (tapSum Config.num s.params s.cmdArg) = false ∧
      t = s.withBw Config.num s.cmdArg
  | .setSquelch => legalSquelch s.cmdArg = true ∧
      t = { s with cfgSqDb := s.cmdArg, cfgSqThr := sqThreshold Config.num s.cmdArg }
  | .setMode m => t = s.setMode m
  | .setAgcTarget => legalTarget s.cmdArg = true ∧ t = { s with cfgAgcTarget := s.cmdArg }
  | .setAgcAttack => legalFraction s.cmdArg = true ∧ t = { s with cfgAgcAttack := s.cmdArg }
  | .setAgcDecay => legalFraction s.cmdArg = true ∧ t = { s with cfgAgcDecay := s.cmdArg }
  | .setFftSize => legalFftRequest s.params s.cmdArg = true ∧ t = s.withFftSize s.cmdArg.toNat
  | .setAvg => legalFraction s.cmdArg = true ∧ t = { s with cfgAvgAlpha := s.cmdArg }

theorem setBw_cases (num : Numerics) (s : State) :
    (legalBw s.params s.cmdArg = false ∧ setBw num s = s.record .badBw s.cmdArg) ∨
    (legalBw s.params s.cmdArg = true ∧ badTapSum (tapSum num s.params s.cmdArg) = true ∧
      setBw num s = s.record .badTapsum (tapSum num s.params s.cmdArg)) ∨
    (legalBw s.params s.cmdArg = true ∧ badTapSum (tapSum num s.params s.cmdArg) = false ∧
      setBw num s = s.withBw num s.cmdArg) := by
  cases h1 : legalBw s.params s.cmdArg
  · simp [setBw, h1]
  · cases h2 : badTapSum (tapSum num s.params s.cmdArg) <;> simp [setBw, h1, h2]

theorem setSquelch_cases (num : Numerics) (s : State) :
    (legalSquelch s.cmdArg = false ∧ setSquelch num s = s.record .badSquelch s.cmdArg) ∨
    (legalSquelch s.cmdArg = true ∧
      setSquelch num s = { s with cfgSqDb := s.cmdArg, cfgSqThr := sqThreshold num s.cmdArg }) := by
  cases h1 : legalSquelch s.cmdArg <;> simp [setSquelch, State.argF32, h1]

/-- Everything a command that ends in a next state can have done: its effect, or one error of its own and nothing
else (R241). -/
theorem exec_next {i : Instr} {s t : State} (h : exec i s = .next t) :
    Effect i s t ∨ ∃ c info, c.classBit = CFG_ERR ∧ c.num ∈ i.cfgCodes ∧ t = s.record c info := by
  cases i
  case nop => exact .inl (by simpa [exec, execNop, Effect] using h.symm)
  case reset => exact .inl (by simpa [exec, execReset, Effect] using h.symm)
  case process =>
    rcases process_next h with ⟨_, rfl⟩ | h
    · exact .inr ⟨.badBatchLen, _, rfl, by simp [ErrCode.num, Instr.cfgCodes], rfl⟩
    · exact .inl h
  case spectrum =>
    rcases spectrum_next h with ⟨_, rfl⟩ | ⟨h1, h⟩ | ⟨h1, h⟩
    · exact .inr ⟨.badBatchLen, _, rfl, by simp [ErrCode.num, Instr.cfgCodes], rfl⟩
    · exact .inl ⟨h1, .inl h⟩
    · exact .inl ⟨h1, .inr h⟩
  case setBw =>
    obtain rfl : setBw Config.num s = t := by simpa [exec, execSetBw] using h
    rcases setBw_cases Config.num s with ⟨_, h⟩ | ⟨_, _, h⟩ | h
    · exact .inr ⟨.badBw, _, rfl, by simp [ErrCode.num, Instr.cfgCodes], h⟩
    · exact .inr ⟨.badTapsum, _, rfl, by simp [ErrCode.num, Instr.cfgCodes], h⟩
    · exact .inl h
  case setSquelch =>
    obtain rfl : setSquelch Config.num s = t := by simpa [exec, execSetSquelch] using h
    rcases setSquelch_cases Config.num s with ⟨_, h⟩ | h
    · exact .inr ⟨.badSquelch, _, rfl, by simp [ErrCode.num, Instr.cfgCodes], h⟩
    · exact .inl h
  case setMode m => exact .inl (by simpa [exec, execSetMode, Effect] using h.symm)
  case setAgcTarget =>
    simp only [exec, execSetAgcTarget, State.argF32, Host.Outcome.next.injEq] at h
    cases h1 : legalTarget s.cmdArg <;> simp only [h1, Bool.not_false, Bool.not_true, if_true, if_false,
      Bool.false_eq_true] at h
    · exact .inr ⟨.badAgcTarget, _, rfl, by simp [ErrCode.num, Instr.cfgCodes], h.symm⟩
    · exact .inl ⟨h1, h.symm⟩
  case setAgcAttack =>
    simp only [exec, execSetAgcAttack, State.argF32, Host.Outcome.next.injEq] at h
    cases h1 : legalFraction s.cmdArg <;> simp only [h1, Bool.not_false, Bool.not_true, if_true, if_false,
      Bool.false_eq_true] at h
    · exact .inr ⟨.badAgcAttack, _, rfl, by simp [ErrCode.num, Instr.cfgCodes], h.symm⟩
    · exact .inl ⟨h1, h.symm⟩
  case setAgcDecay =>
    simp only [exec, execSetAgcDecay, State.argF32, Host.Outcome.next.injEq] at h
    cases h1 : legalFraction s.cmdArg <;> simp only [h1, Bool.not_false, Bool.not_true, if_true, if_false,
      Bool.false_eq_true] at h
    · exact .inr ⟨.badAgcDecay, _, rfl, by simp [ErrCode.num, Instr.cfgCodes], h.symm⟩
    · exact .inl ⟨h1, h.symm⟩
  case setFftSize =>
    simp only [exec, execSetFftSize, State.argU32, Host.Outcome.next.injEq] at h
    cases h1 : legalFftRequest s.params s.cmdArg <;> simp only [h1, Bool.not_false, Bool.not_true, if_true, if_false,
      Bool.false_eq_true] at h
    · exact .inr ⟨.badFftSize, _, rfl, by simp [ErrCode.num, Instr.cfgCodes], h.symm⟩
    · exact .inl ⟨h1, h.symm⟩
  case setAvg =>
    simp only [exec, execSetAvg, State.argF32, Host.Outcome.next.injEq] at h
    cases h1 : legalFraction s.cmdArg <;> simp only [h1, Bool.not_false, Bool.not_true, if_true, if_false,
      Bool.false_eq_true] at h
    · exact .inr ⟨.badAlpha, _, rfl, by simp [ErrCode.num, Instr.cfgCodes], h.symm⟩
    · exact .inl ⟨h1, h.symm⟩

end Sys2Proof.Machine
end

