-- ==== Sys2Proof/Laws/Port.lean ====
section
/-! SUPPORT. The inversions of the port and of the step: everything an access, and a step, can do. -/

namespace Sys2Proof.Machine

/-! ## The instance -/

/-- `Params.isInstance` in the words of R5, R6 and R261. -/
theorem isInstance_iff {p : Params} :
    p.isInstance = true ↔ p.wellFormed = true ∧ p.rstTapSumOk Config.num = true := by
  unfold Params.isInstance
  rw [Bool.and_eq_true, Bool.or_eq_true, decide_eq_true_iff]
  constructor
  · rintro ⟨hw, rfl | h⟩
    · exact ⟨hw, Config.launch.tapSumOk⟩
    · exact ⟨hw, h⟩
  · exact fun ⟨hw, h⟩ => ⟨hw, .inr h⟩

/-- The step of an instance serves the oldest event (R61). -/
theorem step_of_pending {s : State} {r : Request} {rest : List Request} (hi : s.params.isInstance = true)
    (hp : s.pending = r :: rest) : step s = serve r { s with pending := rest } := by
  unfold step serveNext
  rw [if_pos hi, hp]

/-- An instance that is none takes no step (R251). -/
theorem step_refused {s : State} (hi : s.params.isInstance = false) : step s = .refused .invalidInstance := by
  unfold step serveNext
  rw [hi]
  rfl

/-! ## The checks -/

theorem accessCheck_classBit {p : Params} {off : Offset} {w : Width} {c : ErrCode}
    (h : accessCheck p off w = .error c) : c.classBit = BUS_ERR := by
  unfold accessCheck at h
  split at h
  · cases h; rfl
  · split at h
    · cases h; rfl
    · split at h
      · cases h; rfl
      · cases h

theorem accessCheck_ok {p : Params} {off : Offset} {w : Width} {l : Loc} (h : accessCheck p off w = .ok l) :
    w = .b4 ∧ off.extractLsb' 0 2 = 0 ∧ locate p off.toNat = some l := by
  unfold accessCheck at h
  split at h
  · cases h
  · rename_i h1
    split at h
    · cases h
    · rename_i h2
      split at h
      · cases h
      · rename_i l' h3
        cases h
        exact ⟨not_not.1 h1, not_not.1 h2, h3⟩

/-- An aligned offset in the terms of R54. -/
theorem low_bits_eq_zero_iff (off : Offset) : off.extractLsb' 0 2 = 0 ↔ off.toNat % 4 = 0 := by
  rw [← BitVec.toNat_inj]
  simp

theorem accessCheck_of_locate {p : Params} {off : Offset} {l : Loc} (ha : off.toNat % 4 = 0)
    (hl : locate p off.toNat = some l) : accessCheck p off .b4 = .ok l := by
  have h2 := (low_bits_eq_zero_iff off).2 ha
  simp [accessCheck, h2, hl]

theorem writeCheck_classBit {p : Params} {off : Offset} {w : Width} {c : ErrCode}
    (h : writeCheck p off w = .error c) : c.classBit = BUS_ERR := by
  unfold writeCheck at h
  split at h
  · rename_i h1
    cases h
    exact accessCheck_classBit h1
  · split at h
    · cases h; rfl
    · cases h

theorem writeCheck_ok {p : Params} {off : Offset} {w : Width} {t : Target} (h : writeCheck p off w = .ok t) :
    ∃ l, accessCheck p off w = .ok l ∧ l.target = some t := by
  unfold writeCheck at h
  split at h
  · cases h
  · rename_i l h1
    split at h
    · cases h
    · rename_i t' h2
      cases h
      exact ⟨l, h1, h2⟩

theorem writeCheck_of_locate {p : Params} {off : Offset} {l : Loc} {t : Target} (ha : off.toNat % 4 = 0)
    (hl : locate p off.toNat = some l) (ht : l.target = some t) : writeCheck p off .b4 = .ok t := by
  simp [writeCheck, accessCheck_of_locate ha hl, ht]

/-! ## The map -/

theorem locate_inWord {p : Params} {o : Nat} (h1 : 0x100000 ≤ o) (h2 : o < 0x200000)
    (h3 : (o - 0x100000) / 8 < p.pMaxBatch) : locate p o = some (.inWord o) := by
  rw [locate, if_neg (by omega), if_neg (by omega), if_neg (by omega), if_neg (by omega), if_pos h2, if_pos h3]

theorem locate_snapSpec {p : Params} {o : Nat} (h1 : 0x200000 ≤ o) (h2 : o < 0x300000)
    (h3 : (o - 0x200000) / 4 < p.pFftMax / 2) : locate p o = some (.snapSpec ((o - 0x200000) / 4)) := by
  rw [locate, if_neg (by omega), if_neg (by omega), if_neg (by omega), if_neg (by omega), if_neg (by omega),
    if_pos h2, if_pos h3]

theorem locate_snapWf {p : Params} {o : Nat} (h1 : 0x400000 ≤ o)
    (h3 : (o - 0x400000) / 4 < p.pWfDepth * (p.pFftMax / 2)) :
    locate p o = some (.snapWf ((o - 0x400000) / 4)) := by
  rw [locate, if_neg (by omega), if_neg (by omega), if_neg (by omega), if_neg (by omega), if_neg (by omega),
    if_neg (by omega), if_neg (by omega), if_pos h3]

/-- An offset that a register or a window word stands at: an IN word only in the IN_BUF window. -/
theorem locate_eq_inWord {p : Params} {o a : Nat} (h : locate p o = some (.inWord a)) :
    a = o ∧ 0x100000 ≤ o ∧ o < 0x200000 ∧ (o - 0x100000) / 8 < p.pMaxBatch := by
  unfold locate at h
  split at h
  · cases hr : regMap.lookup o <;> simp [hr] at h
  · split at h
    · split at h <;> simp at h
    · split at h
      · split at h
        · split at h <;> simp at h
        · simp at h
      · split at h
        · simp at h
        · split at h
          · split at h
            · rename_i h1 h2 h3 h4 h5 h6
              simp only [Option.some.injEq, Loc.inWord.injEq] at h
              exact ⟨h.symm, by omega, h5, h6⟩
            · simp at h
          · split at h
            · split at h <;> simp at h
            · split at h
              · simp at h
              · split at h <;> simp at h

theorem mem_of_lookup {l : List (Nat × Reg)} {o : Nat} {r : Reg} (h : l.lookup o = some r) : (o, r) ∈ l := by
  induction l with
  | nil => simp at h
  | cons c l ih =>
    obtain ⟨a, b⟩ := c
    rw [List.lookup_cons] at h
    split at h
    · rename_i h1
      simp at h1 h
      simp [h1, h]
    · exact List.mem_cons_of_mem _ (ih h)

/-- An offset a register stands at is its row of the map. -/
theorem locate_eq_reg {p : Params} {o : Nat} {r : Reg} (h : locate p o = some (.reg r)) : (o, r) ∈ regMap := by
  unfold locate at h
  split at h
  · cases hr : regMap.lookup o with
    | none => simp [hr] at h
    | some r' =>
      simp only [hr, Option.map_some, Option.some.injEq, Loc.reg.injEq] at h
      exact h ▸ mem_of_lookup hr
  · split at h
    · split at h <;> simp at h
    · split at h
      · split at h
        · split at h <;> simp at h
        · simp at h
      · split at h
        · simp at h
        · split at h
          · split at h <;> simp at h
          · split at h
            · split at h <;> simp at h
            · split at h
              · simp at h
              · split at h <;> simp at h

/-! ## Accesses -/

/-- Everything a write command word can do (R84, R85). -/
theorem execute_next {w : Word} {s t : State} (h : execute w s = .next t) :
    (∃ e, decode w = .error e ∧ t = s.record .illegalCmd w) ∨ ∃ i, decode w = .ok i ∧ exec i s = .next t := by
  unfold execute at h
  split at h
  · rename_i i hi
    exact .inr ⟨i, hi, h⟩
  · rename_i e he
    exact .inl ⟨e, he, by simpa using h.symm⟩

/-- Everything a write can do (R67). -/
theorem memWrite_next {off : Offset} {w : Width} {v : Word} {s t : State} (h : memWrite off w v s = .next t) :
    (∃ c, c.classBit = BUS_ERR ∧ writeCheck s.params off w = .error c ∧ t = s.busErr c off) ∨
    ∃ tgt, writeCheck s.params off w = .ok tgt ∧ writeTarget tgt v s = .next t := by
  unfold memWrite at h
  split at h
  · rename_i c hc
    exact .inl ⟨c, writeCheck_classBit hc, hc, by simpa using h.symm⟩
  · rename_i tgt ht
    exact .inr ⟨tgt, ht, h⟩

/-- Everything a read can leave (R68). -/
theorem memReadNext_cases (off : Offset) (w : Width) (s : State) :
    (∃ c, c.classBit = BUS_ERR ∧ memReadNext off w s = s.busErr c off) ∨
    (accessCheck s.params off w = .ok (.reg .audioData) ∧ memReadNext off w s = s.popped) ∨
    memReadNext off w s = s := by
  unfold memReadNext
  split
  · rename_i c hc
    exact .inl ⟨c, accessCheck_classBit hc, rfl⟩
  · rename_i l hl
    split
    · rename_i h1
      exact .inr (.inl ⟨by rw [hl, h1], rfl⟩)
    · exact .inr (.inr rfl)

/-- Everything a step can do (R60, R61, R263). -/
theorem step_next {s t : State} (h : step s = .next t) :
    s.params.isInstance = true ∧
    ((s.pending = [] ∧ t = s) ∨
      ∃ r rest, s.pending = r :: rest ∧ serve r { s with pending := rest } = .next t) := by
  unfold step serveNext at h
  split at h
  · rename_i hw
    refine ⟨hw, ?_⟩
    split at h
    · rename_i hp
      exact .inl ⟨hp, by simpa using h.symm⟩
    · rename_i r rest hp
      exact .inr ⟨r, rest, hp, h⟩
  · cases h

theorem serve_read {s t : State} {a : Agent} {addr : Nat} {w : Width} (h : serve (.read a addr w) s = .next t) :
    ∃ off, offsetOf s.params addr = some off ∧
      t = { memReadNext off w s with responses := (a, memReadWord off w s) :: s.responses } := by
  simp only [serve] at h
  split at h
  · cases h
  · rename_i off ho
    exact ⟨off, ho, by simpa using h.symm⟩

theorem serve_write {s t : State} {a : Agent} {addr : Nat} {w : Width} {v : Word}
    (h : serve (.write a addr w v) s = .next t) :
    ∃ off, offsetOf s.params addr = some off ∧ readerMayNot s.params a off w = false ∧
      memWrite off w v s.nextDraw = .next t := by
  simp only [serve] at h
  split at h
  · cases h
  · rename_i off ho
    split at h
    · cases h
    · rename_i hr
      exact ⟨off, ho, by simpa using hr, h⟩

theorem serve_powerOn {s t : State} (h : serve .powerOn s = .next t) :
    t = s.nextDraw.resetSequence Config.num false := by
  simpa [serve] using h.symm

/-! ## Runs -/

theorem run_succ (n : Nat) (s : State) :
    Sys2Proof.core.run (n + 1) s =
      match step s with
      | .next t => Sys2Proof.core.run n t
      | .fault r => .fault r
      | .refused r => .refused r := by
  cases h : step s <;>
  · have h1 : Sys2Proof.core.step s = _ := h
    simp only [Host.Core.run, h1]

theorem run_succ_of_step {n : Nat} {s t : State} (h : step s = .next t) :
    Sys2Proof.core.run (n + 1) s = Sys2Proof.core.run n t := by
  rw [run_succ, h]

/-- A run that ends in a next state ran its first step. -/
theorem run_succ_next {n : Nat} {s t : State} (h : Sys2Proof.core.run (n + 1) s = .next t) :
    ∃ u, step s = .next u ∧ Sys2Proof.core.run n u = .next t := by
  rw [run_succ] at h
  split at h
  · rename_i u hu
    exact ⟨u, hu, h⟩
  · cases h
  · cases h

/-! ## What no access changes -/

theorem exec_params {i : Instr} {s t : State} (h : exec i s = .next t) : t.params = s.params := by
  rcases exec_next h with h | ⟨c, info, _, _, rfl⟩
  · cases i <;> simp only [Effect] at h
    case nop => rw [h]
    case reset => rw [h]; rfl
    case process => obtain ⟨_, xs, _, rfl⟩ := h; rw [processSamples_frame]
    case spectrum => obtain ⟨_, ⟨_, rfl⟩ | ⟨_, seg, _, rfl⟩⟩ := h <;> rfl
    case setBw => rw [h.2.2]; rfl
    case setSquelch => rw [h.2]
    case setMode m => rw [h, State.setMode]; split <;> rfl
    case setAgcTarget => rw [h.2]
    case setAgcAttack => rw [h.2]
    case setAgcDecay => rw [h.2]
    case setFftSize => rw [h.2]; rfl
    case setAvg => rw [h.2]
  · rfl

end Sys2Proof.Machine
end

