-- ==== Sys2Proof/Laws/Map.lean ====
section
/-! SUPPORT. The model's address map is R51's: what `locate` maps, and what a write reaches there. -/

namespace Sys2Proof.Machine

theorem lookup_isSome {l : List (Nat × Reg)} {o : Nat} : (l.lookup o).isSome ↔ o ∈ l.map Prod.fst := by
  induction l with
  | nil => simp
  | cons c l ih =>
    obtain ⟨a, r⟩ := c
    by_cases h : o = a
    · simp [h]
    · have hb : (o == a) = false := by simp [h]
      rw [List.lookup_cons, hb, List.map_cons, List.mem_cons]
      exact ih.trans ⟨.inr, fun h' => h'.resolve_left h⟩

theorem regMap_offsets : regMap.map Prod.fst = registerOffsets := rfl

theorem registerOffsets_lt {o : Nat} (h : o ∈ registerOffsets) : o < 0x1000 := by
  have : ∀ o ∈ registerOffsets, o < 0x1000 := by decide
  exact this o h

/-- `locate` maps exactly R51's mapped words. -/
theorem locate_isSome {p : Params} {o : Nat} (h4 : o % 4 = 0) (ho : o < 0x800000) :
    (locate p o).isSome ↔ mappedOffset p o := by
  by_cases h1 : o < 0x1000
  · rw [locate, if_pos h1, Option.isSome_map, lookup_isSome, regMap_offsets]
    exact ⟨.inl, fun h => by rcases h with h | h | h | h | h | h <;> first | exact h | omega⟩
  have hr : o ∉ registerOffsets := fun h => h1 (registerOffsets_lt h)
  rw [locate, if_neg h1, mappedOffset, or_iff_right hr]
  split
  · split <;> simp <;> omega
  split
  · split <;> simp <;> omega
  split
  · simp; omega
  split
  · split <;> simp <;> omega
  split
  · split <;> simp <;> omega
  split
  · simp; omega
  · split <;> simp <;> omega

theorem locate_eq_none {p : Params} {o : Nat} (h4 : o % 4 = 0) (ho : o < 0x800000) :
    locate p o = none ↔ ¬mappedOffset p o := by
  rw [← locate_isSome h4 ho, Option.not_isSome_iff_eq_none]

/-- A window other than IN_BUF stands where nothing may be written. -/
theorem locate_readOnly {p : Params} {o : Nat} {l : Loc} (h : locate p o = some l) (hr : ∀ r, l ≠ .reg r)
    (hi : ∀ a, l ≠ .inWord a) :
    (l.target = none ↔ ¬writableOffset p o) ∧
    (∀ t, l.target = some t → (t.feedOnly = true ↔ feedOnlyOffset p o)) := by
  have ht : l.target = none := by cases l <;> first | rfl | exact absurd rfl (hr _) | exact absurd rfl (hi _)
  have ho : ¬o < 0x1000 := by
    intro ho
    rw [locate, if_pos ho] at h
    cases hl : regMap.lookup o with
    | none => rw [hl] at h; cases h
    | some r => rw [hl] at h; cases h; exact hr r rfl
  have hin : ¬inBufWord p o := by
    rintro ⟨h1, h2, h3⟩
    rw [locate_inWord h1 h2 (by omega)] at h
    cases h
    exact hi _ rfl
  refine ⟨⟨fun _ => ?_, fun _ => ht⟩, fun t h => by rw [ht] at h; cases h⟩
  rintro (hm | hm)
  · simp only [List.mem_cons, List.not_mem_nil, or_false] at hm
    omega
  · exact hin hm

/-- Where a write lands: nowhere at a read-only location, and at a FEED location exactly where R266 says. -/
theorem locate_target {p : Params} {o : Nat} {l : Loc} (h : locate p o = some l) :
    (l.target = none ↔ ¬writableOffset p o) ∧
    (∀ t, l.target = some t → (t.feedOnly = true ↔ feedOnlyOffset p o)) := by
  cases l with
  | reg r =>
    have hm := locate_eq_reg h
    have ho : o < 0x1000 := registerOffsets_lt (regMap_offsets ▸ List.mem_map_of_mem (f := Prod.fst) hm)
    have key : ∀ x ∈ regMap,
        ((Loc.reg x.2).target = none ↔ x.1 ∉ [0x040, 0x044, 0x048, 0x054, 0x108]) ∧
        ((Loc.reg x.2).target.all fun t => decide (t.feedOnly = true ↔ x.1 ∈ [0x040, 0x044, 0x054])) = true := by
      decide
    obtain ⟨h1, h2⟩ := key _ hm
    have hin : ¬inBufWord p o := by omega
    constructor
    · rw [h1]; simp [writableOffset, hin]
    · intro t ht
      rw [ht] at h2
      simp only [Option.all_some, decide_eq_true_eq] at h2
      rw [h2]; simp [feedOnlyOffset, hin]
  | inWord a =>
    obtain ⟨_, h1, h2, h3⟩ := locate_eq_inWord h
    have hin : inBufWord p o := ⟨h1, h2, by omega⟩
    refine ⟨⟨fun hn => by simp [Loc.target] at hn, fun hn => absurd (.inr hin) hn⟩, fun t ht => ?_⟩
    cases ht
    exact ⟨fun _ => .inr hin, fun _ => rfl⟩
  | tap i => exact locate_readOnly h (by simp) (by simp)
  | delayRe k => exact locate_readOnly h (by simp) (by simp)
  | delayIm k => exact locate_readOnly h (by simp) (by simp)
  | snapSpec k => exact locate_readOnly h (by simp) (by simp)
  | snapWf j => exact locate_readOnly h (by simp) (by simp)

end Sys2Proof.Machine
end

