-- ==== Sys2Proof/Laws/PerInstr.lean ====
section
/-! SUPPORT. The per-instruction family of encodings: each command's word decodes to it, is well-formed, and is the
match of its row of R83 under the row's mask. -/

namespace Sys2Proof.Laws.Encoding

/-- The command is well-formed, its word decodes to it, and the word matches the command's row of R83. -/
def Statement (i : Instr) : Prop :=
  i.wellFormed = true ∧ decode (encode i) = .ok i ∧
  ∃ row ∈ opcodeMap, row.mnemonic = i.mnemonic ∧ encode i &&& row.mask = row.matchBits

theorem nop : Statement .nop := ⟨rfl, by decide, ⟨"NOP", 0x00000000, 0xFFFFFFFF⟩, by decide⟩
theorem reset : Statement .reset := ⟨rfl, by decide, ⟨"RESET", 0x00000001, 0xFFFFFFFF⟩, by decide⟩
theorem process : Statement .process := ⟨rfl, by decide, ⟨"PROCESS", 0x00000010, 0xFFFFFFFF⟩, by decide⟩
theorem spectrum : Statement .spectrum := ⟨rfl, by decide, ⟨"SPECTRUM", 0x00000011, 0xFFFFFFFF⟩, by decide⟩
theorem setBw : Statement .setBw := ⟨rfl, by decide, ⟨"SET_BW", 0x00000020, 0xFFFFFFFF⟩, by decide⟩
theorem setSquelch : Statement .setSquelch := ⟨rfl, by decide, ⟨"SET_SQUELCH", 0x00000021, 0xFFFFFFFF⟩, by decide⟩
theorem setMode (m : Mode) : Statement (.setMode m) := by
  cases m <;> exact ⟨rfl, by decide, ⟨"SET_MODE", 0x00000022, 0xFFFFFCFF⟩, by decide⟩
theorem setAgcTarget : Statement .setAgcTarget :=
  ⟨rfl, by decide, ⟨"SET_AGC_TARGET", 0x00000023, 0xFFFFFFFF⟩, by decide⟩
theorem setAgcAttack : Statement .setAgcAttack :=
  ⟨rfl, by decide, ⟨"SET_AGC_ATTACK", 0x00000024, 0xFFFFFFFF⟩, by decide⟩
theorem setAgcDecay : Statement .setAgcDecay := ⟨rfl, by decide, ⟨"SET_AGC_DECAY", 0x00000025, 0xFFFFFFFF⟩, by decide⟩
theorem setFftSize : Statement .setFftSize := ⟨rfl, by decide, ⟨"SET_FFT_SIZE", 0x00000026, 0xFFFFFFFF⟩, by decide⟩
theorem setAvg : Statement .setAvg := ⟨rfl, by decide, ⟨"SET_AVG", 0x00000027, 0xFFFFFFFF⟩, by decide⟩

end Sys2Proof.Laws.Encoding
end

