-- ==== Sys2Proof/Tests/Slice0.lean ====
section
/-! SUPPORT. The model's own tests. Expected values come from the vectors and programs of spec/95 (named in each
docstring) or from a rule worked by hand; `witness_` theorems show states that meet the hypotheses of an obligation. -/

set_option Elab.async false

namespace Sys2Proof.Tests

open Sys2Proof Sys2Proof.Machine

/-! ## Helpers -/

/-- The next state of an outcome, if it is one. -/
def next? : Host.Outcome State Fault Refusal → Option State
  | .next s => some s
  | .fault _ => none
  | .refused _ => none

theorem exists_next {o : Host.Outcome State Fault Refusal} {P : State → Bool}
    (h : (match next? o with | some t => P t | none => false) = true) : ∃ t, o = .next t ∧ P t = true := by
  cases o with
  | next t => exact ⟨t, rfl, h⟩
  | fault r => simp [next?] at h
  | refused r => simp [next?] at h

theorem completes {o : Host.Outcome State Fault Refusal} (h : (next? o).isSome = true) : ∃ t, o = .next t := by
  cases o with
  | next t => exact ⟨t, rfl⟩
  | fault r => simp [next?] at h
  | refused r => simp [next?] at h

/-- A field of the next state, or none. -/
def field {α : Type} (f : State → α) (o : Host.Outcome State Fault Refusal) : Option α := (next? o).map f

/-- A small instance: 32 taps, decimation 2, 8 samples of IN, transforms of up to 4 points, 2 waterfall rows, an audio
limit of 4 samples. -/
def tiny : Params :=
  { Config.reference with
    pNtaps := 32, pDecim := 2, pMaxBatch := 8, pFftMax := 4, pWfDepth := 2, pAudioCap := 4, pAudioLimit := 4
    pRstMode := .usb, pRstFftSize := 2 }

/-- Stand-ins for `NUM` with its exact values at the arguments the tests reach: cos 0 = 1, sin 0 = 0,
log10 (FLOOR) = −10, and 10^x at −2 (V-SQ-1, V-FFT-9). -/
def stub : Numerics :=
  { sin := fun _ => 0
    cos := fun _ => Config.ONE
    atan2 := fun y _ => y
    log10 := fun x => if x = Config.FLOOR then 0xC1200000 else 0
    pow10 := fun x => if x = 0xC0000000 then 0x3C23D70A else 0x3727C5AC }

/-- The tiny instance after power-on reset. -/
def base : State := State.powerOn stub tiny

/-- IN with the given samples from IN[0] on. -/
def filled (xs : List Sample) : Memory :=
  xs.zipIdx.foldl (fun m p => (m.writeWord (0x100000 + 8 * p.2) p.1.re).writeWord (0x100004 + 8 * p.2) p.1.im) []

/-- A batch in IN, its length in BATCH_LEN, and a filter of one unit tap, which passes its input. -/
def batchOf (xs : List Sample) : State :=
  { base with
    inBuf := filled xs, batchLen := BitVec.ofNat 32 xs.length
    taps := Config.ONE :: List.replicate 31 0 }

/-! ## WellFormed: each check refuses an ill-formed instance (R5, R6) -/

theorem test_reference_wellFormed : Config.reference.wellFormed = true := by decide +kernel
theorem test_tiny_wellFormed : tiny.wellFormed = true := by decide +kernel

theorem test_pFs_refused : ({ tiny with pFs := 2 ^ 24 + 1 } : Params).fsOk = false := by decide +kernel
theorem test_pNtaps_refused : ({ tiny with pNtaps := 31 } : Params).ntapsOk = false := by decide +kernel
theorem test_pDecim_refused : ({ tiny with pDecim := 0 } : Params).decimOk = false := by decide +kernel
theorem test_pMaxBatch_refused : ({ tiny with pMaxBatch := 3 } : Params).maxBatchOk = false := by decide +kernel
theorem test_pFftMax_refused : ({ tiny with pFftMax := 3 } : Params).fftMaxOk = false := by decide +kernel
theorem test_pFftMax_waterfall_refused :
    ({ tiny with pFftMax := 131072, pMaxBatch := 131072, pWfDepth := 17 } : Params).fftMaxOk = false := by
  decide +kernel
theorem test_pWfDepth_refused : ({ tiny with pWfDepth := 0 } : Params).wfDepthOk = false := by decide +kernel
theorem test_pAudioCap_refused : ({ tiny with pAudioCap := 2 ^ 20 + 1 } : Params).audioCapOk = false := by
  decide +kernel
theorem test_pAudioLimit_refused : ({ tiny with pAudioLimit := 5 } : Params).audioLimitOk = false := by
  decide +kernel
theorem test_rst_refused :
    ({ tiny with pRstBw := 0 } : Params).rstOk = false ∧ ({ tiny with pRstSqDb := 0x7F800000 } : Params).rstOk = false ∧
    ({ tiny with pRstAgcTarget := 0xBF800000 } : Params).rstOk = false ∧
    ({ tiny with pRstAgcAttack := 0x3FC00000 } : Params).rstOk = false ∧
    ({ tiny with pRstAgcDecay := 0xBC23D70A } : Params).rstOk = false ∧
    ({ tiny with pRstFftSize := 3 } : Params).rstOk = false ∧
    ({ tiny with pRstAlpha := 0x7FC00000 } : Params).rstOk = false := by
  decide +kernel

/-- An ill-formed instance takes no step (R251). -/
theorem test_step_refuses_ill_formed :
    step { base with params := { tiny with pNtaps := 31 } } = .refused .invalidInstance := by rfl

/-- An instance whose reset tap sum is not positive is none (R261): with cos = 0 and sin = 0 the one non-zero raw tap
is 2c · 0.54, and with the sign of its window turned by cos = 2 it is 2c · (0.54 − 0.92) < 0. -/
theorem test_tapSum_refused :
    tiny.rstTapSumOk { stub with cos := fun _ => 0 } = true ∧
    tiny.rstTapSumOk { stub with cos := fun _ => Config.TWO } = false := by
  decide +kernel

/-! ## Decoding: words written out from the bit patterns of R80 and R83 -/

theorem test_decode_nop : decode 0b00000000000000000000000000000000 = .ok .nop := by decide +kernel
theorem test_decode_reset : decode 0b00000000000000000000000000000001 = .ok .reset := by decide +kernel
theorem test_decode_process : decode 0b00000000000000000000000000010000 = .ok .process := by decide +kernel
theorem test_decode_spectrum : decode 0b00000000000000000000000000010001 = .ok .spectrum := by decide +kernel
theorem test_decode_setBw : decode 0b00000000000000000000000000100000 = .ok .setBw := by decide +kernel
theorem test_decode_setSquelch : decode 0b00000000000000000000000000100001 = .ok .setSquelch := by decide +kernel
theorem test_decode_setMode :
    decode 0b00000000000000000000000000100010 = .ok (.setMode .am) ∧
    decode 0b00000000000000000000000100100010 = .ok (.setMode .fm) ∧
    decode 0b00000000000000000000001000100010 = .ok (.setMode .usb) ∧
    decode 0b00000000000000000000001100100010 = .ok (.setMode .lsb) := by decide +kernel
theorem test_decode_setAgcTarget : decode 0b00000000000000000000000000100011 = .ok .setAgcTarget := by decide +kernel
theorem test_decode_setAgcAttack : decode 0b00000000000000000000000000100100 = .ok .setAgcAttack := by decide +kernel
theorem test_decode_setAgcDecay : decode 0b00000000000000000000000000100101 = .ok .setAgcDecay := by decide +kernel
theorem test_decode_setFftSize : decode 0b00000000000000000000000000100110 = .ok .setFftSize := by decide +kernel
theorem test_decode_setAvg : decode 0b00000000000000000000000000100111 = .ok .setAvg := by decide +kernel

/-- V-ERR-1's illegal words (R85). -/
theorem test_decode_illegal :
    decode 0x000000FF = .error .unknownOpcode ∧ decode 0x00000002 = .error .unknownOpcode ∧
    decode 0x00000028 = .error .unknownOpcode ∧ decode 0x00000120 = .error .reservedBits ∧
    decode 0x80000010 = .error .reservedBits ∧ decode 0x00000422 = .error .reservedBits := by decide +kernel

/-- Bytes that are not exactly one word are no command (R88). -/
theorem test_decodeBytes_length :
    decodeBytes [0x10] = .error .notOneWord ∧ decodeBytes [0x22, 0x03, 0x00, 0x00] = .ok (.setMode .lsb) := by
  decide +kernel

/-- A word placed by the host's interface is the very next command a step runs: SET_MODE LSB from the reset state
(V-ERR-1). -/
theorem test_withFetchWord_runs : field (·.cfgMode) (step (State.reset.withFetchWord 32 0x322)) = some .lsb := by
  decide +kernel

/-! ## Control and errors -/

/-- V-CTL-1. -/
theorem test_nop : exec .nop base = .next base := by rfl

/-- V-CTL-3, in part: RESET from a changed state. -/
theorem test_reset :
    let s := { batchOf [⟨Config.ONE, 0⟩] with status := 0x307, cfgMode := .am, gain := Config.TWO, fifo := [0] }
    field (fun t => (t.status, t.cfgMode, t.gain)) (exec .reset s) = some (0, .usb, Config.ONE) ∧
    field (fun t => (t.fifo, t.batchLen, t.snapBins, decide (t.inBuf = s.inBuf))) (exec .reset s) =
      some ([], 0, 1, true) := by
  decide +kernel

/-- V-CTL-2, row by row: (STATUS, ERR_CODE, ERR_INFO) after the write. -/
theorem test_clear :
    let run := fun (st : Word) (code : BitVec 8) (info v : Word) =>
      let t := ({ base with status := st, errCode := code, errInfo := info } : State).clear v
      (t.status, t.errCode, t.errInfo)
    run 0x101 1 0xFF 0x1 = (0x100, 0, 0) ∧ run 0x007 1 0xFF 0x3 = (0x004, 1, 0xFF) ∧
    run 0x004 1 0xFF 0x4 = (0x000, 0, 0) ∧ run 0x300 0 0 0x100 = (0x200, 0, 0) ∧
    run 0x007 1 0xFF 0xFFFFFFFF = (0x000, 0, 0) ∧ run 0x002 3 0xFF 0 = (0x002, 3, 0xFF) ∧
    run 0x002 3 0xFF 0xFFFFFCF8 = (0x002, 3, 0xFF) := by
  decide +kernel

/-- P7 steps 1 and 2: an illegal word is captured, and a dropped byte write leaves the capture. -/
theorem test_first_error_capture :
    field (fun t => (t.status, t.errCode, t.errInfo)) (memWrite 0x40 .b4 0xFF base) = some (0x1, 1, 0xFF) ∧
    field (fun t => (t.status, t.errCode, t.cmdArg))
        (memWrite 0x44 .b1 0x12 (base.record .illegalCmd 0xFF)) = some (0x5, 1, 0) := by
  decide +kernel

/-- A read of the reference instance after reset: the word, STATUS, ERR_CODE, ERR_INFO. -/
def readAtReset (off : Offset) (w : Width) : Word × Word × BitVec 8 × Word :=
  let t := memReadNext off w State.reset
  (memReadWord off w State.reset, t.status, t.errCode, t.errInfo)

/-- V-BUS-1: reads that raise nothing. -/
theorem test_bus_reads :
    readAtReset 0x000000 .b4 = (0x53445231, 0, 0, 0) ∧ readAtReset 0x000004 .b4 = (0x00010000, 0, 0, 0) ∧
    readAtReset 0x000008 .b4 = (0x40, 0, 0, 0) ∧ readAtReset 0x00000C .b4 = (0x2A, 0, 0, 0) ∧
    readAtReset 0x000010 .b4 = (0x001F4000, 0, 0, 0) ∧ readAtReset 0x000040 .b4 = (0, 0, 0, 0) ∧
    readAtReset 0x000108 .b4 = (0, 0, 0, 0) ∧ readAtReset 0x200800 .b4 = (0, 0, 0, 0) := by
  decide +kernel

/-- V-BUS-1: reads that are rejected. -/
theorem test_bus_reads_rejected :
    readAtReset 0x000000 .b8 = (0, 4, 18, 0) ∧ readAtReset 0x000002 .b4 = (0, 4, 17, 2) ∧
    readAtReset 0x000106 .b4 = (0, 4, 17, 0x106) ∧ readAtReset 0x004000 .b4 = (0, 4, 16, 0x4000) ∧
    readAtReset 0x000028 .b4 = (0, 4, 16, 0x28) ∧ readAtReset 0x001100 .b4 = (0, 4, 16, 0x1100) := by
  decide +kernel

/-- V-BUS-1: writes, on the reference instance. -/
theorem test_bus_writes :
    let wr := fun (off : Offset) (w : Width) (v : Word) =>
      field (fun t => (t.status, t.errCode, t.errInfo)) (memWrite off w v State.reset)
    wr 0x000003 .b2 0 = some (4, 18, 3) ∧ wr 0x000000 .b4 5 = some (4, 19, 0) ∧
    wr 0x000080 .b4 5 = some (4, 19, 0x80) ∧ wr 0x001000 .b4 0 = some (4, 19, 0x1000) ∧
    wr 0x000048 .b4 0 = some (0, 0, 0) := by
  decide +kernel

/-- R28, R30, R59: registers and window words at the offsets the rules list. -/
theorem test_register_reads :
    let s := { base with cfgMode := .lsb, cfgBw := 7, gain := 9, cnt := 1, fmValid := true, fmPrev := ⟨3, 4⟩
                         taps := [5, 6], delay := [⟨10, 11⟩, ⟨12, 13⟩] }
    (memReadWord 0x08C .b4 s, memReadWord 0x080 .b4 s, memReadWord 0x0D0 .b4 s, memReadWord 0x0C0 .b4 s) =
      (3, 7, 9, 1) ∧
    (memReadWord 0x0C4 .b4 s, memReadWord 0x0C8 .b4 s, memReadWord 0x0CC .b4 s) = (1, 3, 4) ∧
    (memReadWord 0x1004 .b4 s, memReadWord 0x2008 .b4 s, memReadWord 0x200C .b4 s) = (6, 12, 13) := by
  decide +kernel

/-! ## Numerics and tables -/

/-- R13: `negf` leaves a quiet and a signalling NaN of either sign alone; R10: it flips the sign of anything else. -/
theorem test_negf :
    [0x7FC00000, 0xFFC00001, 0x7F800001, 0xFF800001, 0, 0x80000000, 0x3F800000, 0xFF800000].map negf =
      [0x7FC00000, 0xFFC00001, 0x7F800001, 0xFF800001, 0x80000000, 0, 0xBF800000, 0x7F800000] := by
  decide +kernel

/-- WIN for F = 2 (R180), TW[0] = (1.0, −0.0) (R181), and TW[0] where F_SIN creates a NaN, which `negf` passes through
as it is (R13). -/
theorem test_tables :
    winGen stub 2 = [0x3DA3D70C, 0x3DA3D70C] ∧ twGen stub 2 = [⟨Config.ONE, 0x80000000⟩] ∧
    twGen { stub with sin := fun _ => 0xFFFFFFFF } 2 = [⟨Config.ONE, 0x7FC00000⟩] := by
  decide +kernel

/-! ## Configuration -/

/-- V-FIR-5's rejected rows. -/
theorem test_setBw_rejected :
    let run := fun (v : Word) =>
      field (fun t => (t.status, t.errCode, t.errInfo, t.cfgBw)) (exec .setBw { State.reset with cmdArg := v })
    run 0 = some (2, 3, 0, 100000) ∧ run 0x001F4000 = some (2, 3, 0x001F4000, 100000) ∧
    run 0xFFFFFFFF = some (2, 3, 0xFFFFFFFF, 100000) := by
  decide +kernel

/-- With sin = 0 and cos = 1 the only non-zero raw tap is the centre one, so normalising makes it 1 (R100, R106). -/
theorem test_setBw_accepted :
    let t := setBw stub { base with cmdArg := 5000, delay := List.replicate 32 ⟨Config.ONE, 0⟩ }
    t.cfgBw = 5000 ∧ t.taps[16]? = some Config.ONE ∧ t.taps.foldl addf 0 = Config.ONE ∧ t.status = 0 ∧
    t.delay = List.replicate 32 ⟨0, 0⟩ := by
  decide +kernel

/-- V-SQ-3 and V-SQ-1: −40 dB is accepted, a NaN and −∞ are not. -/
theorem test_setSquelch :
    let run := fun (v : Word) =>
      let t := setSquelch stub { base with cmdArg := v }
      (t.cfgSqDb, t.cfgSqThr, t.errCode, t.errInfo)
    run 0xC2200000 = (0xC2200000, 0x3C23D70A, 0, 0) ∧ run 0x7FC00000 = (0xC2C80000, 0x3727C5AC, 5, 0x7FC00000) ∧
    run 0xFF800000 = (0xC2C80000, 0x3727C5AC, 5, 0xFF800000) := by
  decide +kernel

/-- V-DEM-6. -/
theorem test_setMode :
    let s := { base with cfgMode := .fm, cnt := 16, fmValid := true, fmPrev := ⟨1, 2⟩ }
    field (fun t => (t.cfgMode, t.cnt, t.fmValid, t.fmPrev)) (exec (.setMode .lsb) s) =
      some (.lsb, 0, false, ⟨0, 0⟩) ∧
    field (fun t => (t.cfgMode, t.cnt, t.fmValid, t.fmPrev)) (exec (.setMode .fm) s) =
      some (.fm, 16, true, ⟨1, 2⟩) := by
  decide +kernel

/-- V-SQ-3. -/
theorem test_setAgcTarget :
    let run := fun (v : Word) =>
      field (fun t => (t.cfgAgcTarget, t.errCode, t.errInfo)) (exec .setAgcTarget { base with cmdArg := v })
    run 0x80000000 = some (0x80000000, 0, 0) ∧ run 0xBF800000 = some (0x3F000000, 6, 0xBF800000) ∧
    run 0x7F800000 = some (0x3F000000, 6, 0x7F800000) := by
  decide +kernel

/-- V-SQ-3. -/
theorem test_setAgcAttack :
    let run := fun (v : Word) => field (fun t => (t.cfgAgcAttack, t.errCode)) (exec .setAgcAttack { base with cmdArg := v })
    run 0x3F800000 = some (0x3F800000, 0) ∧ run 0x3FC00000 = some (0x3DCCCCCD, 7) := by
  decide +kernel

/-- V-SQ-3. -/
theorem test_setAgcDecay :
    let run := fun (v : Word) => field (fun t => (t.cfgAgcDecay, t.errCode)) (exec .setAgcDecay { base with cmdArg := v })
    run 0 = some (0, 0) ∧ run 0xBC23D70A = some (0x3C23D70A, 8) := by
  decide +kernel

/-- V-FFT-2, on the reference instance. -/
theorem test_setFftSize :
    let run := fun (v : Word) =>
      field (fun t => (t.cfgFftSize, t.errCode, t.errInfo)) (exec .setFftSize { State.reset with cmdArg := v })
    run 0 = some (1024, 9, 0) ∧ run 1 = some (1024, 9, 1) ∧ run 2 = some (2, 0, 0) ∧ run 3 = some (4, 0, 0) ∧
    run 1000 = some (1024, 0, 0) ∧ run 8192 = some (8192, 0, 0) ∧ run 8193 = some (1024, 9, 0x2001) ∧
    run 0xFFFFFFFF = some (1024, 9, 0xFFFFFFFF) := by
  decide +kernel

/-- R198: the ends of the range are accepted, a value above 1 is not. -/
theorem test_setAvg :
    let run := fun (v : Word) => field (fun t => (t.cfgAvgAlpha, t.errCode)) (exec .setAvg { base with cmdArg := v })
    run 0x3F800000 = some (0x3F800000, 0) ∧ run 0x80000000 = some (0x80000000, 0) ∧
    run 0x3F800001 = some (0x3DCCCCCD, 10) := by
  decide +kernel

/-! ## The data path -/

/-- V-DEM-1 and V-DEM-3. -/
theorem test_demodulators :
    amOut ⟨0x3F19999A, 0x3F4CCCCD⟩ = Config.ONE ∧ amOut ⟨0x3E99999A, 0x3ECCCCCD⟩ = 0 ∧
    amOut ⟨0, 0xBF400000⟩ = 0x3F000000 ∧ amOut ⟨Config.ONE, Config.ONE⟩ = Config.ONE ∧
    usbOut ⟨0x3E99999A, 0⟩ = 0x3F19999A ∧ usbOut ⟨0x3F333333, 0⟩ = Config.ONE ∧
    lsbOut ⟨0, 0xBF19999A⟩ = 0xBF800000 ∧ lsbOut ⟨0, 0x80000000⟩ = 0x80000000 := by
  decide +kernel

/-- V-DEM-2's first row, with its phase taken from the vector: (1, 0.1) against (1, 0). -/
theorem test_fm :
    fmDiscriminate { stub with atan2 := fun y x => if y = 0x3DCCCCCD ∧ x = Config.ONE then 0x3DCC1F14 else 0 }
      ⟨Config.ONE, 0⟩ ⟨Config.ONE, 0x3DCCCCCD⟩ = 0x3E226F45 := by
  decide +kernel

/-- V-AGC-2 to V-AGC-5. -/
theorem test_agc :
    let run := agcGain 0x3F000000 0x3DCCCCCD 0x3C23D70A
    run Config.ONE 0x3EAAAAAB = 0x3F866666 ∧ run Config.ONE (batchRms [Config.ONE, Config.ONE, Config.ONE]) = 0x3F7EB852 ∧
    run 0x411E6666 (batchRms [0x3A03126F]) = 0x41200000 ∧ run 0x3DCCCCCD Config.TEN = 0x3DCCCCCD ∧
    run 0x3DCCCCCD Config.ONE = 0x3E0F5C29 := by
  decide +kernel

/-- V-SQ-2. -/
theorem test_squelch :
    squelch 0x3DCCCCCD [0x3D4CCCCD, 0x3D4CCCCD, 0x3D4CCCCD] = [0, 0, 0] ∧
    squelch 0x3DCCCCCD [0x3DCCCCCD, 0x3DCCCCCD] = [0x3DCCCCCD, 0x3DCCCCCD] ∧
    squelch 0x3DCCCCCD [0x3E4CCCCD, 0x3E4CCCCD, 0x3E4CCCCD] = [0x3E4CCCCD, 0x3E4CCCCD, 0x3E4CCCCD] := by
  decide +kernel

/-- USB on (0.5, 0) twice with P_DECIM = 2: one sample of 1.0, r = 1, so decay gives G = 0.995 (V-AGC-3), and the
scaled sample is 0.995. -/
theorem test_process :
    field (fun t => (t.fifo, t.gain, t.cnt)) (exec .process (batchOf [⟨0x3F000000, 0⟩, ⟨0x3F000000, 0⟩])) =
      some ([0x3F7EB852], 0x3F7EB852, 0) ∧
    field (fun t => (t.status, t.errCode, t.errInfo)) (exec .process { base with batchLen := 9 }) =
      some (2, 2, 9) := by
  decide +kernel

/-- V-FFT-4's transform, and V-FFT-5 through SPECTRUM: bin 0 of the alternating input is floored at −200 dB, and the
average moves from 0 to −20 (V-FFT-10). -/
theorem test_spectrum :
    fft (twGen stub 2) 1 (segmentWindow (winGen stub 2) [⟨Config.ONE, 0⟩, ⟨Config.ONE, 0⟩]) =
      [⟨0x3E23D70C, 0⟩, ⟨0, 0⟩] ∧
    field (fun t => (t.wf, t.avg))
        (Sys2Proof.Machine.spectrum stub (batchOf [⟨Config.ONE, 0⟩, ⟨0xBF800000, 0⟩])) =
      some ([[0xC3480000]], [0xC1A00000]) := by
  decide +kernel

/-- V-FFT-10. -/
theorem test_ema :
    ema 0x3DCCCCCD 0xC1A00000 0xC3480000 = 0xC2180000 ∧ ema 0x3DCCCCCD 0xC2480000 0 = 0xC2340000 ∧
    ema Config.ONE 0xC1A00000 0xC0600000 = 0xC0600000 ∧ ema 0 0xC1A00000 0xC0600000 = 0xC1A00000 := by
  decide +kernel

/-- Reading a loaded IN word back through the port, and running a batch whose last sample was never written (R47). -/
theorem test_in_words :
    memReadWord 0x100008 .b4 (batchOf [⟨1, 2⟩, ⟨3, 4⟩]) = 3 ∧
    (match exec .process { batchOf [⟨1, 2⟩] with batchLen := 2 } with
      | .fault .unwrittenInput => true | _ => false) = true := by
  decide +kernel

/-- V-PROC-4 and the pop of a sample. -/
theorem test_pop :
    memReadWord 0x104 .b4 base = 0 ∧ (memReadNext 0x104 .b4 base).status = 0x200 ∧
    memReadWord 0x104 .b4 { base with fifo := [1, 2] } = 1 ∧
    (memReadNext 0x104 .b4 { base with fifo := [1, 2] }).fifo = [2] := by
  decide +kernel

/-- P3 steps 5 and 6 in small: what a SNAP copies is what the windows read. -/
theorem test_snap :
    let t := ({ base with avg := [7], wf := [[8], [9]] } : State).snapshot
    (memReadWord 0x10C .b4 t, memReadWord 0x110 .b4 t) = (1, 2) ∧
    (memReadWord 0x200000 .b4 t, memReadWord 0x200004 .b4 t) = (7, 0) ∧
    (memReadWord 0x400000 .b4 t, memReadWord 0x400004 .b4 t, memReadWord 0x400008 .b4 t) = (8, 9, 0) := by
  decide +kernel

/-! ## Witnesses: states and operands that meet the hypotheses of each obligation, clause by clause -/

/-- The reference instance after reset with one event waiting. -/
def waiting (r : Request) : State := { State.reset with pending := [r] }

/-- A READER read of STATUS and one of AUDIO_DATA. -/
def readStatus : Request := .read .reader 0x48 .b4
def readAudio : Request := .read .reader 0x104 .b4

/-- The three forms of R85, at the ends of each range. -/
theorem witness_IllegalWordRaisesCmdErr :
    ((0x02 : Word).toNat % 256 ∉ [0x00, 0x01, 0x10, 0x11, 0x20, 0x21, 0x22, 0x23, 0x24, 0x25, 0x26, 0x27]) ∧
    ((0xFF : Word).toNat % 256 ∉ [0x00, 0x01, 0x10, 0x11, 0x20, 0x21, 0x22, 0x23, 0x24, 0x25, 0x26, 0x27]) ∧
    ((0x120 : Word).toNat % 256 ≠ 0x22 ∧ (0x120 : Word).toNat / 256 ≠ 0) ∧
    ((0x80000010 : Word).toNat % 256 ≠ 0x22 ∧ (0x80000010 : Word).toNat / 256 ≠ 0) ∧
    ((0x422 : Word).toNat % 256 = 0x22 ∧ (0x422 : Word).toNat / 1024 ≠ 0) ∧
    ((0x80000022 : Word).toNat % 256 = 0x22 ∧ (0x80000022 : Word).toNat / 1024 ≠ 0) := by
  decide +kernel

theorem witness_StepRunsTheCommandWritten :
    let s := waiting (cmdWrite Config.reference 0x322)
    s.params.isInstance = true ∧ s.pending = cmdWrite s.params 0x322 :: [] ∧
    decode 0x322 = .ok (.setMode .lsb) := by
  decide +kernel

/-- Each kind of event, the reads and writes at the ends of the block; of the READER's writes one each that is let
pass: to STATUS, of one byte, and misaligned. -/
theorem witness_StepServesInArrivalOrder :
    State.reset.params.isInstance = true ∧ State.reset.pending = [] ∧
    (waiting (.read .feed 0x7FFFFC .b4)).pending =
      .read .feed (Config.reference.pBase + (0x7FFFFC : Offset).toNat) .b4 :: [] ∧
    (waiting (.write .feed 0x0 .b1 5)).pending =
      .write .feed (Config.reference.pBase + (0x0 : Offset).toNat) .b1 5 :: [] ∧
    (waiting (.write .reader 0x48 .b4 4)).pending =
      .write .reader (Config.reference.pBase + (0x48 : Offset).toNat) .b4 4 :: [] ∧
    ¬feedOnlyOffset Config.reference (0x48 : Offset).toNat ∧ Width.b1 ≠ .b4 ∧ (0x41 : Offset).toNat % 4 ≠ 0 ∧
    (waiting .powerOn).pending = .powerOn :: [] := by
  decide +kernel

/-- One access for each clause: width, alignment, mapping (a hole between registers, the word past IN, the last word),
read-only (a register, the last tap). -/
theorem witness_BusChecksInOrder :
    (Width.b1 ≠ .b4) ∧ ((0x2 : Offset).toNat % 4 ≠ 0) ∧
    ((0x28 : Offset).toNat % 4 = 0 ∧ ¬mappedOffset tiny (0x28 : Offset).toNat) ∧
    ((0x100040 : Offset).toNat % 4 = 0 ∧ ¬mappedOffset tiny (0x100040 : Offset).toNat) ∧
    ((0x7FFFFC : Offset).toNat % 4 = 0 ∧ ¬mappedOffset tiny (0x7FFFFC : Offset).toNat) ∧
    (mappedOffset tiny (0x0 : Offset).toNat ∧ ¬writableOffset tiny (0x0 : Offset).toNat) ∧
    ((0x107C : Offset).toNat % 4 = 0 ∧ mappedOffset tiny (0x107C : Offset).toNat ∧
      ¬writableOffset tiny (0x107C : Offset).toNat) := by
  exact ⟨by decide, by decide, by decide +kernel, by decide +kernel, by decide +kernel, by decide +kernel,
    by decide +kernel⟩

theorem witness_PlainReadsHaveNoSideEffect :
    (0x48 : Offset).toNat % 4 = 0 ∧ (0x48 : Offset) ≠ 0x104 ∧ mappedOffset base.params (0x48 : Offset).toNat ∧
    (0x10003C : Offset).toNat % 4 = 0 ∧ mappedOffset base.params (0x10003C : Offset).toNat := by
  decide +kernel

/-- The ends of the identification block, and a step that is taken. -/
theorem witness_ParameterRegistersAreConstant :
    ((0x000 : Offset).toNat ≤ 0x024 ∧ (0x000 : Offset).toNat % 4 = 0) ∧
    ((0x024 : Offset).toNat ≤ 0x024 ∧ (0x024 : Offset).toNat % 4 = 0) ∧ ∃ t, step State.reset = .next t := by
  exact ⟨by decide, by decide, completes (by decide +kernel)⟩

/-- The first and the last word of IN. -/
theorem witness_InBufWriteStoresOneWord :
    base.params.wellFormed = true ∧ (0 < base.params.pMaxBatch ∧ ((0 : Nat) = 0 ∨ (0 : Nat) = 4)) ∧
    (7 < base.params.pMaxBatch ∧ ((4 : Nat) = 0 ∨ (4 : Nat) = 4)) ∧ base.inBuf.wf := by
  exact ⟨by decide +kernel, by decide, by decide, List.Pairwise.nil⟩

theorem witness_UnwrittenInWordReadsFreeDraw :
    base.params.wellFormed = true ∧ 7 < base.params.pMaxBatch ∧
    base.inBuf.readWord (0x100000 + 8 * 0 + 0) = none ∧ base.inBuf.readWord (0x100000 + 8 * 7 + 4) = none := by
  decide +kernel

theorem witness_ConfigurationChangedOnlyByCommands :
    (0x080 ≤ (0x080 : Offset).toNat ∧ (0x080 : Offset).toNat % 4 = 0) ∧
    ((0x0A0 : Offset).toNat ≤ 0x0A0 ∧ (0x0A0 : Offset).toNat % 4 = 0) ∧
    ∃ t, step (waiting readStatus) = .next t ∧
      decide ((waiting readStatus).pending = readStatus :: [] ∧ readStatus ≠ .powerOn ∧
        readStatus.offset Config.reference ≠ some 0x40) = true := by
  exact ⟨by decide, by decide, exists_next (by decide +kernel)⟩

/-- A READER read that steps; and the four kinds of refused READER write, IN at both ends. -/
theorem witness_ReaderCannotDisturbTheStream :
    (∃ t, step (waiting readAudio) = .next t ∧
      decide ((waiting readAudio).pending = readAudio :: [] ∧ readAudio.agent? = some .reader) = true) ∧
    State.reset.params.isInstance = true ∧
    (feedOnlyOffset Config.reference (0x040 : Offset).toNat ∧ feedOnlyOffset Config.reference (0x044 : Offset).toNat ∧
      feedOnlyOffset Config.reference (0x054 : Offset).toNat) ∧
    (feedOnlyOffset Config.reference (0x100000 : Offset).toNat ∧
      feedOnlyOffset Config.reference (0x11FFFC : Offset).toNat ∧ (0x11FFFC : Offset).toNat % 4 = 0) ∧
    (waiting (.write .reader 0x11FFFC .b4 1)).pending =
      .write .reader (Config.reference.pBase + (0x11FFFC : Offset).toNat) .b4 1 :: [] := by
  exact ⟨exists_next (by decide +kernel), by decide +kernel, by decide +kernel, by decide +kernel, by decide +kernel⟩

/-- Each rejecting command, from a state without an error. -/
theorem witness_RejectedCommandsArePrecise :
    let s := { base with cmdArg := 0xFFC00000, batchLen := 9 }
    s.status &&& 0x2 = 0 ∧
    ∀ i ∈ [Instr.process, .spectrum, .setBw, .setSquelch, .setAgcTarget, .setAgcAttack, .setAgcDecay, .setFftSize,
      .setAvg], ∃ t, exec i s = .next t ∧ decide (t.status &&& 0x2 ≠ 0) = true := by
  refine ⟨by decide +kernel, fun i hi => exists_next ?_⟩
  revert i
  decide +kernel

theorem witness_CommandsRaiseOnlyCfgErrAndOverflow :
    (∃ t, exec .setFftSize base = .next t) ∧ Instr.setFftSize ≠ .reset ∧ ∃ t, exec .reset base = .next t :=
  ⟨⟨_, rfl⟩, by decide, _, rfl⟩

theorem witness_ResetGivesTheResetValues :
    (waiting .powerOn).params.isInstance = true ∧ (waiting .powerOn).pending = .powerOn :: [] := by
  decide +kernel

theorem witness_FirstErrorCaptureIsKept :
    let s := { waiting (.write .feed 0x40 .b4 0xFF) with status := 0x4, errCode := 18 }
    (∃ t, step s = .next t ∧ t.errCode == 18) ∧
    s.pending = .write .feed 0x40 .b4 0xFF :: [] ∧
    (Request.write .feed 0x40 .b4 0xFF).resets s.params = false ∧
    (Request.write .feed 0x40 .b4 0xFF).offset s.params ≠ some 0x48 ∧ s.status &&& 0x7 ≠ 0 := by
  exact ⟨exists_next (by decide +kernel), by decide +kernel, by decide +kernel, by decide +kernel, by decide +kernel⟩

theorem witness_SetModeResetsTheDemodulator : Mode.lsb ≠ base.cfgMode ∧ Mode.usb = base.cfgMode := by decide

/-- Both ends of both ranges. -/
theorem witness_SetBwRebuildsTheFilter :
    let legal := fun v : Word => v ≠ 0 ∧ v.toNat < base.params.pFs
    ((0 : Word) = 0) ∧ base.params.pFs ≤ (2048000 : Word).toNat ∧ legal 1 ∧ legal 2047999 := by
  decide +kernel

/-- The reset bandwidth, written again, takes the accepting branch: its tap sum is the one `Launch` says R101 accepts. -/
theorem witness_SetBwRebuildsTheFilter_accepted :
    let s := { State.reset with cmdArg := 100000 }
    let S := tapSum Config.num s.params s.cmdArg
    s.cmdArg ≠ 0 ∧ s.cmdArg.toNat < s.params.pFs ∧ ¬(isNaN S ∨ isInf S ∨ keyf S ≤ 0) := by
  have h : (!badTapSum (tapSum Config.num Config.reference Config.reference.pRstBw)) = true := Config.launch.tapSumOk
  have accepted : ∀ S, (!badTapSum S) = true → ¬(isNaN S ∨ isInf S ∨ keyf S ≤ 0) := by
    intro S hS
    obtain ⟨hn, hi, hp⟩ := badTapSum_eq_false.1 (by simpa using hS)
    simpa [hn, hi] using hp
  exact ⟨by decide, by decide, accepted _ h⟩

theorem witness_SetSquelchAcceptsFiniteLevels :
    (0xFF7FFFFF : Word).extractLsb' 23 8 ≠ 0xFF ∧ (0x7F800000 : Word).extractLsb' 23 8 = 0xFF := by decide

theorem witness_SetAgcTargetAcceptsNonNegativeFinite :
    ((0x7F7FFFFF : Word).toNat < 0x7F800000) ∧ ((0x80000000 : Word) = 0x80000000) ∧
    ¬((0x7F800000 : Word).toNat < 0x7F800000 ∨ (0x7F800000 : Word) = 0x80000000) ∧
    ¬((0x80000001 : Word).toNat < 0x7F800000 ∨ (0x80000001 : Word) = 0x80000000) := by
  decide

theorem witness_FractionSettersAcceptZeroToOne :
    ((0x3F800000 : Word).toNat ≤ 0x3F800000) ∧ ((0x80000000 : Word) = 0x80000000) ∧
    ¬((0x3F800001 : Word).toNat ≤ 0x3F800000 ∨ (0x3F800001 : Word) = 0x80000000) ∧
    ¬((0x80000001 : Word).toNat ≤ 0x3F800000 ∨ (0x80000001 : Word) = 0x80000000) := by
  decide

theorem witness_SetFftSizeRoundsUp :
    base.params.wellFormed = true ∧ 2 ≤ (2 : Word).toNat ∧ (4 : Word).toNat ≤ base.params.pFftMax ∧
    (1 : Word).toNat < 2 ∧ base.params.pFftMax < (5 : Word).toNat := by
  decide +kernel

/-- Every command but RESET completes from one loaded state, so each clause has a command it speaks of. -/
theorem witness_ConfigRegisterWriters_CarriedStateWriters :
    ∀ i ∈ [Instr.nop, .process, .setMode .am, .setAgcTarget, .setAgcAttack, .setAgcDecay, .setFftSize, .setAvg],
      (∃ t, exec i (batchOf [⟨Config.ONE, 0⟩]) = .next t) ∧ i ≠ .reset := by
  intro i hi
  refine ⟨completes ?_, ?_⟩ <;> revert i <;> decide +kernel

theorem witness_CmdArgIgnoredWithoutOperand : ∃ t, exec .process (batchOf [⟨Config.ONE, 0⟩]) = .next t :=
  completes (by decide +kernel)

theorem witness_ImpulseResponseIsTheTapFile :
    let s := { base with taps := [0x3DC7AEE7, 0xB99F7FED], delay := List.replicate 2 ⟨0, 0⟩ }
    s.delay = List.replicate s.taps.length ⟨0, 0⟩ ∧ ∀ h ∈ s.taps, isFinite h = true ∧ h ≠ 0x80000000 := by
  refine ⟨rfl, fun h hh => ?_⟩
  simp only [List.mem_cons, List.not_mem_nil, or_false] at hh
  rcases hh with rfl | rfl <;> decide

theorem witness_DelayLineHoldsTheNewestSamples :
    let s := batchOf [⟨Config.ONE, 0⟩, ⟨Config.TWO, 0⟩]
    (∃ t, exec .process s = .next t) ∧ s.batch ≤ s.params.pMaxBatch ∧ 1 ≤ s.delay.length ∧
    s.inBuf.samples 0 s.batch = some [⟨Config.ONE, 0⟩, ⟨Config.TWO, 0⟩] := by
  exact ⟨completes (by decide +kernel), by decide +kernel, by decide +kernel, by decide +kernel⟩

/-- A batch of three, and the same samples as batches of two and one. -/
theorem witness_BatchBoundariesDoNotShow :
    let s := batchOf [⟨Config.ONE, 0⟩, ⟨Config.TWO, 0⟩, ⟨Config.TEN, 0⟩]
    let m := filled [⟨Config.TEN, 0⟩]
    s.batch = (2 : Word).toNat + (1 : Word).toNat ∧ s.batch ≤ s.params.pMaxBatch ∧
    s.inBuf.samples 0 (2 : Word).toNat = some [⟨Config.ONE, 0⟩, ⟨Config.TWO, 0⟩] ∧
    s.inBuf.samples 0 s.batch = some ([⟨Config.ONE, 0⟩, ⟨Config.TWO, 0⟩] ++ [⟨Config.TEN, 0⟩]) ∧
    m.samples 0 (1 : Word).toNat = some [⟨Config.TEN, 0⟩] ∧
    (∃ t, exec .process s = .next t) ∧
    ∃ t1, exec .process { s with batchLen := 2 } = .next t1 ∧
      (next? (exec .process { t1 with batchLen := 1, inBuf := m })).isSome = true := by
  exact ⟨by decide +kernel, by decide +kernel, by decide +kernel, by decide +kernel, by decide +kernel,
    completes (by decide +kernel), exists_next (by decide +kernel)⟩

/-- One sample in FM mode and in another mode. -/
theorem witness_FmReferenceIsTheLastFilteredSample :
    let s := batchOf [⟨Config.ONE, 0⟩]
    s.batch ≤ s.params.pMaxBatch ∧ 1 ≤ s.batch ∧ s.cfgMode ≠ .fm ∧ ({ s with cfgMode := .fm } : State).cfgMode = .fm ∧
    (∃ t, exec .process s = .next t) ∧
    ∃ t, exec .process { s with cfgMode := .fm } = .next t := by
  exact ⟨by decide +kernel, by decide +kernel, by decide +kernel, rfl, completes (by decide +kernel),
    completes (by decide +kernel)⟩

/-- FM without and with a reference, and the other three modes. -/
theorem witness_DemodulatorCornerCases :
    let fm := { base with cfgMode := .fm }
    let fmRef := { fm with fmValid := true, fmPrev := ⟨Config.ONE, 0⟩ }
    (fm.cfgMode = .fm ∧ fm.fmValid = false) ∧ (fmRef.cfgMode = .fm ∧ fmRef.fmValid = true) ∧
    ({ base with cfgMode := .am } : State).cfgMode = .am ∧ base.cfgMode = .usb ∧
    ({ base with cfgMode := .lsb } : State).cfgMode = .lsb := by
  decide

/-- Each clause: no signal, below the target, above it. -/
theorem witness_AgcMovesTowardTheTarget :
    legalTarget 0x3F000000 = true ∧ legalFraction 0x3DCCCCCD = true ∧ legalFraction 0x3C23D70A = true ∧
    lef 0x3DCCCCCD Config.ONE = true ∧ lef Config.ONE 0x41200000 = true ∧ ltf 0 0 = false ∧
    (ltf 0 0x3EAAAAAB = true ∧ ltf Config.ONE (divf 0x3F000000 0x3EAAAAAB) = true) ∧
    (ltf 0 Config.ONE = true ∧ ltf Config.ONE (divf 0x3F000000 Config.ONE) = false) := by
  decide +kernel

/-- The three ways of the clamp: V-AGC-4 above it, V-AGC-5 below it and inside it; and a gain update that is a NaN,
0 · ∞ (R142). -/
theorem witness_AgcMovesTowardTheTarget_clamp :
    ltf 0x41200000 (addf 0x411E6666 (mulf 0x3DCCCCCD (subf (divf 0x3F000000 0x3A03126F) 0x411E6666))) = true ∧
    ltf (addf 0x3DCCCCCD (mulf 0x3C23D70A (subf (divf 0x3F000000 Config.TEN) 0x3DCCCCCD))) 0x3DCCCCCD = true ∧
    addf 0x3DCCCCCD (mulf 0x3DCCCCCD (subf (divf 0x3F000000 Config.ONE) 0x3DCCCCCD)) = 0x3E0F5C29 ∧
    isNaN (addf Config.ONE (mulf 0 (subf (divf 0x7F7FFFFF 1) Config.ONE))) = true := by
  decide +kernel

/-- V-SQ-2: a batch below the threshold, and one exactly at it. -/
theorem witness_SquelchMutesAndIsIdempotent :
    ltf (batchRms [0x3D4CCCCD, 0x3D4CCCCD, 0x3D4CCCCD]) 0x3DCCCCCD = true ∧
    ltf (batchRms [0x3DCCCCCD, 0x3DCCCCCD]) 0x3DCCCCCD = false := by
  decide +kernel

theorem witness_FifoKeepsTheNewestSamples : base.fifo = [] := by decide +kernel

/-- A loaded batch that gives an audio sample, and the empty batch, which gives none. -/
theorem witness_ProcessCompletes :
    let s := batchOf [⟨Config.ONE, 0⟩, ⟨Config.TWO, 0⟩]
    s.batch ≤ s.params.pMaxBatch ∧ s.loaded 0 s.batch ∧ s.cnt.toNat < s.params.pDecim ∧ s.params.pDecim ≤ 65535 ∧
    (s.cnt.toNat + s.batch) / s.params.pDecim = 1 ∧ base.loaded 0 base.batch := by
  refine ⟨by decide +kernel, ?_, by decide +kernel, by decide +kernel, by decide +kernel, ?_⟩
  · exact (Memory.samples_isSome _ _).1 (by decide +kernel)
  · exact (Memory.samples_isSome _ _).1 (by decide +kernel)

theorem witness_ProcessWithoutTickProducesNothing :
    let s := batchOf [⟨Config.ONE, 0⟩]
    s.batch ≤ s.params.pMaxBatch ∧ s.cnt.toNat + s.batch < s.params.pDecim ∧ s.params.pDecim ≤ 65535 ∧
    ∃ t, exec .process s = .next t := by
  exact ⟨by decide +kernel, by decide +kernel, by decide +kernel, completes (by decide +kernel)⟩

/-- The three lengths, each at its boundary: P_MAX_BATCH + 1, 0, and F − 1. -/
theorem witness_BatchLengthChecks :
    base.params.pMaxBatch < (9 : Word).toNat ∧ base.batchLen = 0 ∧ (1 : Word).toNat ≤ base.params.pMaxBatch ∧
    (1 : Word).toNat < base.cfgFftSize.toNat := by
  decide +kernel

/-- One loaded sample of a batch of two: the batch is legal and SPECTRUM's segment reaches the missing one. -/
theorem witness_UnwrittenInputFaults :
    let s := { batchOf [⟨1, 2⟩] with batchLen := 2 }
    s.batch ≤ s.params.pMaxBatch ∧ s.fftSize ≤ s.batch ∧ s.inBuf.readWord (0x100000 + 8 * 1) = none ∧
    s.inBuf.readWord (0x100000 + 8 * 0) ≠ none := by
  decide +kernel

theorem witness_PopReturnsTheOldestSample :
    base.fifo = [] ∧ ({ base with fifo := [1, 2] } : State).fifo = 1 :: [2] := by decide +kernel

theorem witness_DrainReturnsTheFifoInOrder :
    let s := { State.reset with fifo := [1, 2], pending := [readAudio, readAudio] }
    s.params.isInstance = true ∧
    s.pending = List.replicate s.fifo.length (.read .reader (s.params.pBase + 0x104) .b4) := by
  decide +kernel

/-- Two samples, two pops and a write between them. -/
theorem witness_DrainNeverUnderflows :
    let s := { State.reset with fifo := [1, 2], pending := [readAudio, .write .feed 0x44 .b4 7, readAudio] }
    s.params.isInstance = true ∧ s.fifo.length ≤ s.params.pAudioLimit ∧
    s.pending.countP (Request.isPop s.params) ≤ s.fifo.length ∧ (∀ r ∈ s.pending, r.resets s.params = false) ∧
    s.status &&& 0x200 = 0 ∧
    ∃ t, Sys2Proof.core.run s.pending.length s = .next t ∧ decide (t.fifo = []) = true := by
  exact ⟨by decide +kernel, by decide +kernel, by decide +kernel, by decide +kernel, by decide +kernel,
    exists_next (by decide +kernel)⟩

theorem witness_BitReversalReversesTheLowBits :
    2 < 3 ∧ ([⟨0, 0⟩, ⟨1, 0⟩, ⟨2, 0⟩, ⟨3, 0⟩] : List Sample).length = 2 ^ 2 ∧ 3 < 2 ^ 2 := by decide

theorem witness_EmaAtTheEndsOfItsRange :
    isFinite 0xC1A00000 = true ∧ isFinite 0xC0600000 = true ∧ isZero 0xC0600000 = false ∧
    isZero 0xC1A00000 = false := by
  decide +kernel

theorem witness_SpectrumCompletes :
    let s := batchOf [⟨Config.ONE, 0⟩, ⟨Config.TWO, 0⟩, ⟨Config.TEN, 0⟩]
    s.batch ≤ s.params.pMaxBatch ∧ s.fftSize ≤ s.batch ∧ isPow2 s.fftSize = true ∧
    s.loaded (s.batch - s.fftSize) s.fftSize := by
  refine ⟨by decide +kernel, by decide +kernel, by decide +kernel, ?_⟩
  exact (Memory.samples_isSome _ _).1 (by decide +kernel)

theorem witness_WaterfallKeepsTheNewestRows :
    base.wf = [] ∧ 1 ≤ base.params.pWfDepth ∧
    ([[1], [2], [3], [4], [5], [6], [7]] : List (List F32)).length = base.params.pWfDepth + 5 := by
  decide +kernel

/-- The reference instance in the middle of a run: a sample loaded, an audio sample waiting, an error pending, one
row in the waterfall, and a read waiting. -/
def live : State :=
  { State.reset with
    inBuf := Memory.writeWord (Memory.writeWord [] 0x100000 Config.ONE) 0x100004 0
    batchLen := 1, fifo := [Config.ONE], wf := [List.replicate 512 0xC3480000], status := 0x4, errCode := 18
    errInfo := 3, pending := [readStatus] }

theorem live_inv : live.Inv Config.num where
  params := by decide +kernel
  cnt_lt := by decide +kernel
  gain_ge := by decide +kernel
  gain_le := by decide +kernel
  fifo_le := by decide +kernel
  wf_le := by decide +kernel
  bw := by decide +kernel
  sqDb := by decide +kernel
  sqThr := rfl
  target := by decide +kernel
  attack := by decide +kernel
  decay := by decide +kernel
  fft := by decide +kernel
  alpha := by decide +kernel
  taps := rfl
  delay_len := List.length_replicate
  avg_len := List.length_replicate
  row_len := by
    intro row h
    obtain rfl := List.mem_singleton.1 h
    exact List.length_replicate
  spec_len := List.length_replicate
  snapWf_len := List.length_replicate
  bins_le := by decide +kernel
  rows_le := by decide +kernel
  fm_idle := fun _ => ⟨rfl, rfl⟩
  reserved := by decide +kernel
  capture := ⟨.busWidth, rfl⟩
  in_wf := Memory.wf_writeWord (Memory.wf_writeWord List.Pairwise.nil _ _) _ _
  in_window := by decide +kernel
  in_whole := by
    intro a h
    have ha : a / 4 * 4 = 0x100000 ∨ a / 4 * 4 = 0x100004 := by
      have h2 : (Memory.readByte live.inBuf a).isSome = true := h
      unfold live at h2
      simp only [Memory.readByte_writeWord, Memory.readByte] at h2
      split at h2
      · omega
      · split at h2
        · omega
        · simp at h2
    rcases ha with ha | ha <;> rw [ha] <;> decide +kernel

theorem witness_SnapshotIsAFaithfulCopy :
    live.Inv Config.num ∧ 4095 < live.params.pFftMax / 2 ∧ 409599 < live.params.pWfDepth * (live.params.pFftMax / 2) :=
  ⟨live_inv, by decide +kernel, by decide +kernel⟩

theorem witness_SnapshotReadsAreIdempotent :
    let s := { State.reset with pending := [.read .reader 0x200000 .b4, readAudio, cmdWrite Config.reference 0x322] }
    (∀ r ∈ s.pending, r.touchesSpectrum s.params = false) ∧
    ∃ t, Sys2Proof.core.run s.pending.length s.snapshot = .next t ∧ decide (t.cfgMode = .lsb) = true := by
  exact ⟨by decide +kernel, exists_next (by decide +kernel)⟩

/-- PROCESS then SPECTRUM on an undersized batch both complete. -/
theorem witness_ProcessAndSpectrumCommute :
    ∃ u, exec .process (batchOf [⟨Config.ONE, 0⟩]) = .next u ∧ (next? (exec .spectrum u)).isSome = true :=
  exists_next (by decide +kernel)

theorem witness_InvariantHoldsAtReset : Config.reference.wellFormed = true ∧ tiny.wellFormed = true :=
  ⟨test_reference_wellFormed, test_tiny_wellFormed⟩

theorem witness_EveryStepKeepsTheInvariant :
    live.Inv Config.num ∧ ∃ t, step live = .next t ∧ decide (t.responses = [(.reader, 4)]) = true :=
  ⟨live_inv, exists_next (by decide +kernel)⟩

/-- The tiny instance after reset meets the invariant under the stand-in `NUM`. -/
theorem base_inv : base.Inv stub where
  params := by decide +kernel
  cnt_lt := by decide +kernel
  gain_ge := by decide +kernel
  gain_le := by decide +kernel
  fifo_le := by decide +kernel
  wf_le := by decide +kernel
  bw := by decide +kernel
  sqDb := by decide +kernel
  sqThr := rfl
  target := by decide +kernel
  attack := by decide +kernel
  decay := by decide +kernel
  fft := by decide +kernel
  alpha := by decide +kernel
  taps := rfl
  delay_len := List.length_replicate
  avg_len := List.length_replicate
  row_len := fun _ h => by cases h
  spec_len := List.length_replicate
  snapWf_len := List.length_replicate
  bins_le := by decide +kernel
  rows_le := by decide +kernel
  fm_idle := fun _ => ⟨rfl, rfl⟩
  reserved := by decide +kernel
  capture := ⟨rfl, rfl⟩
  in_wf := List.Pairwise.nil
  in_window := fun _ h => by cases h
  in_whole := fun _ h => by cases h

theorem witness_SquelchThresholdIsLegal :
    (∀ x : F32, isNaN x = false → lef 0 (stub.fPow10 x) = true) ∧ base.Inv stub := by
  refine ⟨fun x hx => ?_, base_inv⟩
  have h : stub.fPow10 x = 0x3C23D70A ∨ stub.fPow10 x = 0x3727C5AC := by
    unfold Numerics.fPow10 nan1 stub
    rw [hx]
    by_cases hc : x = 0xC0000000
    · left; subst hc; rfl
    · right; simp only [if_neg hc]; rfl
  rcases h with h | h <;> rw [h] <;> decide

/-- A tap count one below R5's range. -/
theorem witness_OnlyInstancesTakeSteps :
    ¬(32 ≤ ({ base with params := { tiny with pNtaps := 31 } } : State).params.pNtaps) := by decide

theorem witness_TapsAndDelayWindowsReadTheirArrays :
    live.Inv Config.num ∧ 0 < live.params.pNtaps ∧ 63 < live.params.pNtaps :=
  ⟨live_inv, by decide +kernel, by decide +kernel⟩

/-- The last entry of each table: 32 taps, and F = 2. -/
theorem witness_TablesFollowTheirFormulas : 31 < tiny.pNtaps ∧ 1 < 2 ∧ 0 < 2 / 2 := by decide

end Sys2Proof.Tests
end

section
/-! PROOFS. The parameter sets that are instances of the block (R5, R6, R261). The legal values of R6's range checks
are written out as encodings first. -/

namespace Sys2Proof

/-! ## The legal float values, as encodings -/

theorem isNaN_eq_false_iff {v : F32} : isNaN v = false ↔ magf v ≤ 0x7F800000 := by
  rw [isNaN, decide_eq_false_iff_not, Nat.not_lt]

theorem isInf_eq_false_iff {v : F32} : isInf v = false ↔ magf v ≠ 0x7F800000 := by
  rw [isInf, decide_eq_false_iff_not]

/-- The encoding and the place in the order, for either sign. -/
theorem toNat_keyf_cases (v : F32) :
    (v.toNat = magf v ∧ keyf v = magf v) ∨ (v.toNat = magf v + 2 ^ 31 ∧ keyf v = -magf v) := by
  rw [toNat_eq_of_fields, keyf]
  cases signf v
  · exact .inl ⟨rfl, rfl⟩
  · exact .inr ⟨rfl, rfl⟩

theorem eq_negZero_iff {v : F32} : v = 0x80000000 ↔ v.toNat = 0x80000000 := BitVec.toNat_inj.symm

theorem lef_zero_left_iff {v : F32} : lef 0 v = true ↔ magf v ≤ 0x7F800000 ∧ 0 ≤ keyf v := by
  have h0 : isNaN 0 = false ∧ keyf 0 = 0 := by decide
  rw [lef_iff, h0.2, isNaN_eq_false_iff (v := v)]
  exact and_iff_right h0.1

/-- R148: finite is an exponent field that is not all ones. -/
theorem legalSquelch_iff {v : F32} : legalSquelch v = true ↔ v.extractLsb' 23 8 ≠ 0xFF := by
  have hfield : v.extractLsb' 23 8 = 0xFF ↔ v.toNat / 2 ^ 23 % 2 ^ 8 = 0xFF := by
    rw [← BitVec.toNat_inj, BitVec.extractLsb'_toNat, Nat.shiftRight_eq_div_pow]
    rfl
  rw [legalSquelch, Bool.not_eq_true', Bool.or_eq_false_iff, isNaN_eq_false_iff, isInf_eq_false_iff, ne_eq, ne_eq,
    hfield, magf]
  omega

/-- R149: a negative value is accepted only if it is -0.0. -/
theorem legalTarget_iff {v : F32} : legalTarget v = true ↔ v.toNat < 0x7F800000 ∨ v = 0x80000000 := by
  rw [legalTarget, Bool.and_eq_true, Bool.not_eq_true', lef_zero_left_iff, isInf_eq_false_iff, eq_negZero_iff]
  have hlt := magf_lt v
  rcases toNat_keyf_cases v with ⟨hv, hk⟩ | ⟨hv, hk⟩ <;> omega

/-- R150, R151, R198: the encodings of [0, 1] are those up to 1.0's, and -0.0. -/
theorem legalFraction_iff {v : F32} : legalFraction v = true ↔ v.toNat ≤ 0x3F800000 ∨ v = 0x80000000 := by
  have hone : isNaN Config.ONE = false ∧ keyf Config.ONE = 0x3F800000 := by decide
  rw [legalFraction, Bool.and_eq_true, lef_zero_left_iff, lef_iff, hone.1, hone.2, eq_self_iff_true, true_and,
    isNaN_eq_false_iff, eq_negZero_iff]
  have hlt := magf_lt v
  rcases toNat_keyf_cases v with ⟨hv, hk⟩ | ⟨hv, hk⟩ <;> omega

/-! ## The instance -/

theorem legalFftSize_iff {p : Params} {F : Word} :
    legalFftSize p F = true ↔ (∃ e, F.toNat = 2 ^ e) ∧ 2 ≤ F.toNat ∧ F.toNat ≤ p.pFftMax := by
  rw [legalFftSize, Bool.and_eq_true, isPow2_iff, legalFftRequest, decide_eq_true_iff]

theorem fftMaxOk_iff {p : Params} :
    p.fftMaxOk = true ↔
      (∃ e, p.pFftMax = 2 ^ e) ∧ 2 ≤ p.pFftMax ∧ p.pFftMax ≤ 131072 ∧ p.pWfDepth * (p.pFftMax / 2) ≤ 1048576 := by
  rw [Params.fftMaxOk, Bool.and_eq_true, isPow2_iff, decide_eq_true_iff]

theorem rstTapSumOk_iff {num : Numerics} {p : Params} :
    p.rstTapSumOk num = true ↔ isNaN (tapSum num p p.pRstBw) = false ∧ isInf (tapSum num p p.pRstBw) = false ∧
      0 < keyf (tapSum num p p.pRstBw) := by
  rw [Params.rstTapSumOk, Bool.not_eq_true', badTapSum_eq_false]

/-- The reference instance's tap sum needs no computation: `Launch` says it of the free `NUM` (log entry 5). -/
theorem reference_isInstance : Config.reference.isInstance = true :=
  Machine.isInstance_iff.2 ⟨by decide, Config.launch.tapSumOk⟩

end Sys2Proof

namespace Sys2Proof.Machine

/-- Settles O57: each check of `Params.isInstance` is one clause of R5, R6 or R261, and `step` asks that test before
anything else. -/
theorem onlyInstancesTakeSteps : Obligations.OnlyInstancesTakeSteps := by
  unfold Obligations.OnlyInstancesTakeSteps
  refine ⟨fun s => ?_, reference_isInstance⟩
  intro p S fraction valid
  have hvalid : p.isInstance = true ↔ valid := by
    rw [isInstance_iff, rstTapSumOk_iff]
    simp only [Params.wellFormed, Params.rstOk, Bool.and_eq_true, Params.fsOk, Params.ntapsOk, Params.decimOk,
      Params.maxBatchOk, fftMaxOk_iff, Params.wfDepthOk, Params.audioCapOk, Params.audioLimitOk, legalBw,
      legalSquelch_iff, legalTarget_iff, legalFraction_iff, legalFftSize_iff, decide_eq_true_eq, and_assoc,
      valid, fraction, S]
  exact ⟨hvalid, fun h => step_refused (Bool.eq_false_iff.2 (mt hvalid.1 h))⟩

end Sys2Proof.Machine
end

section
/-! PROOFS. The state of the block (spec/10_state.md): what one step can do to it, case by case; the invariant of R44
through every update, command and step; who writes each item; and what its registers read. -/

namespace Sys2Proof

/-! ## What the constraints of R5 and R6 give -/

theorem Params.ranges_of_wellFormed {p : Params} (h : p.wellFormed = true) :
    32 ≤ p.pNtaps ∧ 1 ≤ p.pDecim ∧ p.pDecim ≤ 65535 ∧ p.pMaxBatch ≤ 131072 ∧ p.pFftMax ≤ 131072 ∧
      isPow2 p.pFftMax = true := by
  simp only [Params.wellFormed, Params.ntapsOk, Params.decimOk, Params.maxBatchOk, Params.fftMaxOk, Bool.and_eq_true,
    decide_eq_true_eq] at h
  obtain ⟨⟨⟨⟨⟨⟨⟨⟨-, hN, -⟩, hD, hD'⟩, -, hB⟩, hpow, -, hF, -⟩, -⟩, -⟩, -⟩, -⟩ := h
  exact ⟨hN, hD, hD', hB, hF, hpow⟩

theorem Params.rstOk_of_wellFormed {p : Params} (h : p.wellFormed = true) : p.rstOk = true := by
  rw [Params.wellFormed, Bool.and_eq_true] at h
  exact h.2

end Sys2Proof

namespace Sys2Proof.Machine

/-! ## The sizes and ranges the updates keep -/

/-- The gain stays between its clamps, whatever the batch (R142, R144). -/
theorem agcGain_bounds {target attack decay g r : F32} (h1 : lef Config.GMIN g = true)
    (h2 : lef g Config.GMAX = true) :
    lef Config.GMIN (agcGain target attack decay g r) = true ∧
      lef (agcGain target attack decay g r) Config.GMAX = true := by
  have hclamp (gn : F32) : lef Config.GMIN (agcClamp g gn) = true ∧ lef (agcClamp g gn) Config.GMAX = true := by
    cases hn : isNaN gn
    · simpa [agcClamp, hn] using clampf_bounds hn (by decide)
    · simpa [agcClamp, hn] using ⟨h1, h2⟩
  unfold agcGain
  split
  · exact hclamp _
  · exact ⟨h1, h2⟩

/-- The size SET_FFT_SIZE takes for a legal request is one CFG_FFT_SIZE may hold, and fits its register (R197). -/
theorem legalFftSize_nextPow2 {p : Params} {n : Word} (hp : p.wellFormed = true)
    (h : legalFftRequest p n = true) :
    (BitVec.ofNat 32 (nextPow2 n.toNat)).toNat = nextPow2 n.toNat ∧
      legalFftSize p (BitVec.ofNat 32 (nextPow2 n.toNat)) = true := by
  obtain ⟨-, -, -, -, hmax, hpow⟩ := Params.ranges_of_wellFormed hp
  obtain ⟨h2, hn⟩ : 2 ≤ n.toNat ∧ n.toNat ≤ p.pFftMax := of_decide_eq_true h
  obtain ⟨e, he, hle, -⟩ := nextPow2_spec h2
  have hnext := nextPow2_le h2 hpow hn
  have hword : (BitVec.ofNat 32 (nextPow2 n.toNat)).toNat = nextPow2 n.toNat := by
    rw [BitVec.toNat_ofNat, Nat.mod_eq_of_lt (by omega)]
  refine ⟨hword, legalFftSize_iff.2 ⟨⟨e, ?_⟩, ?_⟩⟩ <;> rw [hword]
  · exact he
  · omega

theorem Memory.mem_writeWord {m : Memory} {a : Nat} {w : Word} {c : Host.Cell} (h : c ∈ m.writeWord a w) :
    (a ≤ c.1 ∧ c.1 < a + 4) ∨ c ∈ m := by
  unfold Memory.writeWord at h
  rcases Memory.mem_writeByte h with rfl | h
  · simp
  rcases Memory.mem_writeByte h with rfl | h
  · simp
  rcases Memory.mem_writeByte h with rfl | h
  · simp
  rcases Memory.mem_writeByte h with rfl | h
  · simp
  · exact .inr h

/-- A write of a whole word leaves every word whole or without a value (R47). -/
theorem Memory.whole_writeWord {m : Memory} {o : Nat} (w : Word) (ho : o % 4 = 0)
    (h : ∀ a, (m.readByte a).isSome → (m.readWord (a / 4 * 4)).isSome) (a : Nat)
    (ha : ((m.writeWord o w).readByte a).isSome) : ((m.writeWord o w).readWord (a / 4 * 4)).isSome := by
  by_cases hin : a / 4 * 4 = o
  · rw [hin, Memory.readWord_writeWord]
    rfl
  · rw [Memory.readByte_writeWord, if_neg (by omega)] at ha
    rw [Memory.readWord_writeWord_of_disjoint _ _ (by omega)]
    exact h a ha

/-! ## The invariant through each update of the state -/

namespace State.Inv

variable {num : Numerics} {s : State}

/-- The invariant does not speak of CMD_ARG, BATCH_LEN or the model's own fields. -/
theorem operands (h : s.Inv num) (arg len : Word) (p : List Request) (r : List (Agent × Word)) (d : Nat) :
    ({ s with cmdArg := arg, batchLen := len, pending := p, responses := r, draws := d } : State).Inv num :=
  { h with params := h.params }

/-- Setting a flag that is no error bit leaves the error capture's clause as it was. -/
theorem withStatus (h : s.Inv num) {b : Word} (hdef : b &&& ~~~definedBits = 0) (herr : b &&& errorBits = 0) :
    ({ s with status := s.status ||| b } : State).Inv num :=
  have hno : ({ s with status := s.status ||| b } : State).noError = s.noError := by
    simp only [State.noError, noError_or herr]
  { h with
    reserved := by rw [BitVec.and_or_distrib_right, h.reserved, hdef]; rfl
    capture := by rw [hno]; exact h.capture }

theorem withFifo (h : s.Inv num) {q : List F32} (hq : q.length ≤ s.params.pAudioLimit) :
    ({ s with fifo := q } : State).Inv num :=
  { h with fifo_le := hq }

theorem record (h : s.Inv num) (c : ErrCode) (info : Word) : (s.record c info).Inv num :=
  { h with
    reserved := by
      rw [State.record_status, BitVec.and_or_distrib_right, h.reserved, c.classBit_defined]; rfl
    capture := by
      rw [State.record_noError, if_neg Bool.false_ne_true, State.record_errCode]
      have hold := h.capture
      cases hno : s.noError
      · simpa [hno] using hold
      · exact ⟨c, if_pos rfl⟩ }

theorem clear (h : s.Inv num) (v : Word) : (s.clear v).Inv num :=
  have hmask (b : Word) (hb : s.status &&& b = 0) : s.status &&& ~~~(v &&& definedBits) &&& b = 0 := by
    rw [BitVec.and_assoc, BitVec.and_comm _ b, ← BitVec.and_assoc, hb]
    exact BitVec.zero_and
  { h with
    reserved := hmask _ h.reserved
    capture := by
      by_cases hst : s.status &&& ~~~(v &&& definedBits) &&& errorBits = 0
      · rw [if_pos (State.noError_iff.2 hst), State.clear_errCode, State.clear_errInfo, if_pos hst, if_pos hst]
        exact ⟨rfl, rfl⟩
      · have hold : s.noError = false := State.noError_eq_false_iff.2 fun h0 => hst (hmask _ h0)
        have hnew : (s.clear v).noError = false := State.noError_eq_false_iff.2 hst
        have hcode := h.capture
        rw [hold, if_neg Bool.false_ne_true] at hcode
        rwa [hnew, if_neg Bool.false_ne_true, State.clear_errCode, if_neg hst] }

theorem popped (h : s.Inv num) : s.popped.Inv num := by
  have htail : s.fifo.tail.length ≤ s.params.pAudioLimit := by
    have := h.fifo_le
    rw [List.length_tail]
    omega
  unfold State.popped
  split
  · exact (h.withStatus (b := AUDIO_UDF) (by decide) (by decide)).withFifo htail
  · exact h.withFifo htail

theorem fifoAppend (h : s.Inv num) (a : List F32) : (s.fifoAppend a).Inv num := by
  have hlen : (s.fifoAppend a).fifo.length ≤ s.params.pAudioLimit :=
    (State.fifoAppend_length s a).trans_le (Nat.min_le_right _ _)
  unfold State.fifoAppend
  dsimp only
  split
  · exact (h.withStatus (b := AUDIO_OVF) (by decide) (by decide)).withFifo hlen
  · exact h.withFifo hlen

theorem bins_le_max (h : s.Inv num) : s.bins ≤ s.params.pFftMax / 2 := by
  obtain ⟨-, -, hle⟩ := legalFftSize_iff.1 h.fft
  exact Nat.div_le_div_right hle

theorem flatten_length (h : s.Inv num) : s.wf.flatten.length = s.wf.length * s.bins := by
  have hrows : ∀ n ∈ s.wf.map List.length, n = s.bins := by
    simpa using h.row_len
  rw [List.length_flatten, List.sum_eq_card_nsmul _ _ hrows, List.length_map, smul_eq_mul]

theorem snapshot (h : s.Inv num) : s.snapshot.Inv num :=
  { h with
    spec_len := by
      rw [State.snapshot_snapSpec, overwrite_length (by rw [h.avg_len, h.spec_len]; exact h.bins_le_max)]
      exact h.spec_len
    snapWf_len := by
      have hfit : s.wf.flatten.length ≤ s.snapWf.length := by
        rw [h.flatten_length, h.snapWf_len]
        exact Nat.mul_le_mul h.wf_le h.bins_le_max
      rw [State.snapshot_snapWf, overwrite_length hfit]
      exact h.snapWf_len
    bins_le := (BitVec.toNat_ofNat _ _).trans_le ((Nat.mod_le _ _).trans h.bins_le_max)
    rows_le := (BitVec.toNat_ofNat _ _).trans_le ((Nat.mod_le _ _).trans h.wf_le) }

theorem writeIn (h : s.Inv num) {o : Nat} (ha : o % 4 = 0) (hw : inBufWord s.params o) (v : Word) :
    ({ s with inBuf := s.inBuf.writeWord o v } : State).Inv num :=
  { h with
    in_wf := Memory.wf_writeWord h.in_wf o v
    in_window := fun c hc => by
      obtain ⟨hlo, -, hhi⟩ := hw
      rcases Memory.mem_writeWord hc with hc | hc
      · dsimp only
        omega
      · exact h.in_window c hc
    in_whole := Memory.whole_writeWord v ha h.in_whole }

/-- R45: every item's reset value is legal, with R6 for the configuration. -/
theorem powerOn {p : Params} (hp : p.wellFormed = true) : (State.powerOn num p).Inv num := by
  obtain ⟨-, hD, -, -, -, -⟩ := Params.ranges_of_wellFormed hp
  have hrst := Params.rstOk_of_wellFormed hp
  simp only [Params.rstOk, Bool.and_eq_true] at hrst
  obtain ⟨⟨⟨⟨⟨⟨hbw, hsq⟩, htarget⟩, hattack⟩, hdecay⟩, hfft⟩, halpha⟩ := hrst
  obtain ⟨-, -, hF⟩ := legalFftSize_iff.1 hfft
  exact {
    params := hp
    cnt_lt := hD
    gain_ge := (by decide : lef Config.GMIN Config.ONE = true)
    gain_le := (by decide : lef Config.ONE Config.GMAX = true)
    fifo_le := Nat.zero_le _
    wf_le := Nat.zero_le _
    bw := hbw
    sqDb := hsq
    sqThr := rfl
    target := htarget
    attack := hattack
    decay := hdecay
    fft := hfft
    alpha := halpha
    taps := rfl
    delay_len := List.length_replicate
    avg_len := List.length_replicate
    row_len := fun _ hrow => nomatch hrow
    spec_len := List.length_replicate
    snapWf_len := List.length_replicate
    bins_le := (BitVec.toNat_ofNat _ _).trans_le ((Nat.mod_le _ _).trans (Nat.div_le_div_right hF))
    rows_le := Nat.zero_le _
    fm_idle := fun _ => ⟨rfl, rfl⟩
    reserved := BitVec.zero_and
    capture := by
      rw [if_pos (State.noError_iff.2 BitVec.zero_and)]
      exact ⟨rfl, rfl⟩
    in_wf := List.Pairwise.nil
    in_window := fun _ hc => nomatch hc
    in_whole := fun _ ha => nomatch ha }

theorem resetSequence (h : s.Inv num) (keepIn : Bool) : (s.resetSequence num keepIn).Inv num := by
  have hp : (State.powerOn num s.params).Inv num := powerOn h.params
  cases keepIn
  · exact { hp with params := h.params }
  · exact { hp with in_wf := h.in_wf, in_window := h.in_window, in_whole := h.in_whole }

/-! ### The data path -/

theorem sampleNext (h : s.Inv num) (x : Sample) : (s.sampleNext x).Inv num :=
  have hp := Params.ranges_of_wellFormed h.params
  { h with
    cnt_lt := by
      obtain ⟨-, hD, hD', -⟩ := hp
      rw [State.sampleNext_cnt_toNat x h.cnt_lt hD']
      exact Nat.mod_lt _ hD
    delay_len := by
      have hlen := h.delay_len
      exact (shiftIn_length (by omega)).trans hlen
    fm_idle := fun hm => by
      obtain ⟨hvalid, hprev⟩ := State.runSamples_fm_idle (s := s) hm [x]
      exact (h.fm_idle hm).imp hvalid.trans hprev.trans }

theorem runSamples (h : s.Inv num) (xs : List Sample) : (s.runSamples xs).Inv num := by
  induction xs generalizing s with
  | nil => exact h
  | cons x xs ih => exact ih (h.sampleNext x)

theorem agcUpdate (h : s.Inv num) (a : List F32) : (s.agcUpdate a).Inv num :=
  have hgain := agcGain_bounds h.gain_ge h.gain_le
  { h with gain_ge := hgain.1, gain_le := hgain.2 }

theorem deliver (h : s.Inv num) (a : List F32) : (s.deliver a).Inv num := by
  by_cases ha : a = []
  · rw [ha, State.deliver_nil]
    exact h
  · rw [State.deliver_of_ne_nil s ha]
    exact (h.agcUpdate a).fifoAppend _

theorem processSamples (h : s.Inv num) (xs : List Sample) : (processSamples num xs s).Inv num :=
  (h.runSamples xs).deliver _

theorem spectrumUpdate (h : s.Inv num) {db : List F32} (hdb : db.length = s.bins) : (s.spectrumUpdate db).Inv num :=
  { h with
    wf_le := List.length_take_le _ _
    avg_len := by
      rw [State.spectrumUpdate_avg, List.length_zipWith, h.avg_len, hdb, Nat.min_self]
      rfl
    row_len := fun row hrow => by
      rcases List.mem_cons.1 (List.mem_of_mem_take hrow) with rfl | hold
      · exact hdb
      · exact h.row_len row hold }

/-! ### The configuration commands -/

theorem withBw (h : s.Inv num) {bw : Word} (hbw : legalBw s.params bw = true) : (s.withBw num bw).Inv num :=
  { h with bw := hbw, taps := rfl, delay_len := List.length_replicate }

theorem withSquelch (h : s.Inv num) {v : F32} (hv : legalSquelch v = true) :
    ({ s with cfgSqDb := v, cfgSqThr := sqThreshold num v } : State).Inv num :=
  { h with sqDb := hv, sqThr := rfl }

theorem setMode (h : s.Inv num) (m : Mode) : (s.setMode m).Inv num := by
  have hD : 0 < s.params.pDecim := Nat.zero_lt_of_lt h.cnt_lt
  unfold State.setMode
  split
  · exact h
  · exact { h with cnt_lt := hD, fm_idle := fun _ => ⟨rfl, rfl⟩ }

theorem withFftSize (h : s.Inv num) {n : Word} (hn : legalFftRequest s.params n = true) :
    (s.withFftSize n.toNat).Inv num :=
  have hsize := legalFftSize_nextPow2 h.params hn
  { h with
    fft := hsize.2
    wf_le := Nat.zero_le _
    avg_len := by
      rw [State.withFftSize_avg, List.length_replicate, State.bins, State.fftSize, State.withFftSize_cfgFftSize,
        hsize.1]
    row_len := fun _ hrow => nomatch hrow }

/-- Every command keeps the invariant, rejected or not. -/
theorem exec {i : Instr} {t : State} (h : s.Inv Config.num) (he : Machine.exec i s = .next t) : t.Inv Config.num := by
  rcases exec_next he with heff | ⟨c, info, -, -, rfl⟩
  case inr => exact h.record c info
  cases i with
  | nop => exact heff ▸ h
  | reset => exact heff ▸ h.resetSequence true
  | process =>
    obtain ⟨-, xs, -, rfl⟩ := heff
    exact h.processSamples xs
  | spectrum =>
    obtain ⟨-, ⟨-, rfl⟩ | ⟨-, seg, -, rfl⟩⟩ := heff
    · exact h
    · exact h.spectrumUpdate (dbRow_length _ (Bool.and_eq_true_iff.1 h.fft).1 seg)
  | setBw =>
    obtain ⟨hbw, -, rfl⟩ := heff
    exact h.withBw hbw
  | setSquelch =>
    obtain ⟨hv, rfl⟩ := heff
    exact h.withSquelch hv
  | setMode m => exact heff ▸ h.setMode m
  | setAgcTarget =>
    obtain ⟨hv, rfl⟩ := heff
    exact { h with target := hv }
  | setAgcAttack =>
    obtain ⟨hv, rfl⟩ := heff
    exact { h with attack := hv }
  | setAgcDecay =>
    obtain ⟨hv, rfl⟩ := heff
    exact { h with decay := hv }
  | setFftSize =>
    obtain ⟨hn, rfl⟩ := heff
    exact h.withFftSize hn
  | setAvg =>
    obtain ⟨hv, rfl⟩ := heff
    exact { h with alpha := hv }

end State.Inv

/-! ## Everything one step can do -/

/-- All an access that runs no command can do to the state the block holds (R58, R67, R68). -/
inductive PortUpdate (s : State) : State → Prop
  | none : PortUpdate s s
  | record (c : ErrCode) (info : Word) : PortUpdate s (s.record c info)
  | pop : PortUpdate s s.popped
  | clear (v : Word) : PortUpdate s (s.clear v)
  | snap : PortUpdate s s.snapshot
  | cmdArg (v : Word) : PortUpdate s { s with cmdArg := v }
  | batchLen (v : Word) : PortUpdate s { s with batchLen := v }
  | inWord (o : Nat) (v : Word) (ha : o % 4 = 0) (hw : inBufWord s.params o) :
      PortUpdate s { s with inBuf := s.inBuf.writeWord o v }

theorem memReadNext_update (off : Offset) (w : Width) (s : State) : PortUpdate s (memReadNext off w s) := by
  rcases memReadNext_cases off w s with ⟨c, -, h⟩ | ⟨-, h⟩ | h <;> rw [h]
  · exact .record c _
  · exact .pop
  · exact .none

theorem offset_of_writeCheck_cmd {p : Params} {off : Offset} {w : Width} (h : writeCheck p off w = .ok .cmd) :
    off = 0x40 := by
  obtain ⟨l, hl, ht⟩ := writeCheck_ok h
  obtain ⟨-, -, hloc⟩ := accessCheck_ok hl
  have key : ∀ row ∈ regMap, (Loc.reg row.2).target = some .cmd → row.1 = 0x40 := by decide
  cases l with
  | reg r => exact BitVec.eq_of_toNat_eq (key _ (locate_eq_reg hloc) ht)
  | _ => cases ht

theorem inWord_of_writeCheck {p : Params} {off : Offset} {w : Width} {o : Nat}
    (h : writeCheck p off w = .ok (.inWord o)) : o % 4 = 0 ∧ inBufWord p o := by
  obtain ⟨l, hl, ht⟩ := writeCheck_ok h
  obtain ⟨-, hal, hloc⟩ := accessCheck_ok hl
  cases l with
  | inWord a =>
    obtain rfl : a = o := by simpa [Loc.target] using ht
    obtain ⟨rfl, hlo, hhi, hmax⟩ := locate_eq_inWord hloc
    exact ⟨(low_bits_eq_zero_iff off).1 hal, hlo, hhi, by omega⟩
  | reg r => cases r <;> simp [Loc.target] at ht
  | _ => cases ht

/-- A write updates the state as the port does, or runs the command written to CMD. -/
theorem memWrite_update {off : Offset} {w : Width} {v : Word} {s t : State} (h : memWrite off w v s = .next t) :
    PortUpdate s t ∨ (off = 0x40 ∧ ∃ i, exec i s = .next t) := by
  rcases memWrite_next h with ⟨c, -, -, rfl⟩ | ⟨tgt, hc, ht⟩
  · exact .inl (.record c _)
  cases tgt with
  | cmd =>
    rcases execute_next ht with ⟨e, -, rfl⟩ | ⟨i, -, hi⟩
    · exact .inl (.record .illegalCmd v)
    · exact .inr ⟨offset_of_writeCheck_cmd hc, i, hi⟩
  | cmdArg => cases ht; exact .inl (.cmdArg v)
  | status => cases ht; exact .inl (.clear v)
  | batchLen => cases ht; exact .inl (.batchLen v)
  | snap => cases ht; exact .inl .snap
  | inWord o =>
    obtain ⟨ha, hw⟩ := inWord_of_writeCheck hc
    cases ht
    exact .inl (.inWord o v ha hw)

/-- What serving `r` does to the state, its bookkeeping aside: the port's update, the command written to CMD, or the
power-on reset. -/
inductive Served (s : State) (r : Request) : State → Prop
  | port {t : State} (h : PortUpdate s t) : Served s r t
  | command {i : Instr} {t : State} (ho : r.offset s.params = some 0x40) (h : exec i s = .next t) : Served s r t
  | powerOn (hr : r = .powerOn) : Served s r (s.resetSequence Config.num false)

/-- Every step that serves an event takes it off the list, may move on to the next free draw and may answer a word, and
does what `Served` lists in between. -/
theorem step_served {s t : State} {r : Request} {rest : List Request} (hp : s.pending = r :: rest)
    (h : step s = .next t) :
    ∃ (d : Nat) (u : State) (resp : List (Agent × Word)),
      Served { s with pending := rest, draws := d } r u ∧ t = { u with responses := resp } := by
  obtain ⟨-, ⟨hnil, -⟩ | ⟨r', rest', hp', hs⟩⟩ := step_next h
  · simp [hp] at hnil
  obtain ⟨rfl, rfl⟩ : r = r' ∧ rest = rest' := by simpa [hp] using hp'
  cases r with
  | read a addr w =>
    obtain ⟨off, -, rfl⟩ := serve_read hs
    exact ⟨s.draws, _, _, .port (memReadNext_update off w _), rfl⟩
  | write a addr w v =>
    obtain ⟨off, hoff, -, hw⟩ := serve_write hs
    refine ⟨s.draws + 1, t, t.responses, ?_, rfl⟩
    rcases memWrite_update hw with hu | ⟨rfl, i, hi⟩
    · exact .port hu
    · exact .command hoff hi
  | powerOn =>
    obtain rfl := serve_powerOn hs
    exact ⟨s.draws + 1, _, _, .powerOn rfl, rfl⟩

theorem State.Inv.portUpdate {num : Numerics} {s t : State} (h : s.Inv num) (hu : PortUpdate s t) : t.Inv num := by
  cases hu with
  | none => exact h
  | record c info => exact h.record c info
  | pop => exact h.popped
  | clear v => exact h.clear v
  | snap => exact h.snapshot
  | cmdArg v => exact h.operands v s.batchLen s.pending s.responses s.draws
  | batchLen v => exact h.operands s.cmdArg v s.pending s.responses s.draws
  | inWord o v ha hw => exact h.writeIn ha hw v

theorem State.Inv.served {s t : State} {r : Request} (h : s.Inv Config.num) (hs : Served s r t) :
    t.Inv Config.num := by
  cases hs with
  | port hu => exact h.portUpdate hu
  | command _ he => exact h.exec he
  | powerOn _ => exact h.resetSequence false

/-- Settles O55: a step is an update of the port, a command or a reset, with the bookkeeping the invariant does not
speak of, and each keeps the invariant. -/
theorem everyStepKeepsTheInvariant : Obligations.EveryStepKeepsTheInvariant := by
  unfold Obligations.EveryStepKeepsTheInvariant
  intro s t h hstep
  obtain ⟨-, ⟨-, rfl⟩ | ⟨r, rest, hp, -⟩⟩ := step_next hstep
  · exact h
  obtain ⟨d, u, resp, hs, rfl⟩ := step_served hp hstep
  have hu := (h.operands s.cmdArg s.batchLen rest s.responses d).served hs
  exact hu.operands u.cmdArg u.batchLen u.pending resp u.draws

/-! ## The configuration and the parameters -/

/-- The registers of R28, which the commands set. -/
def SameConfig (s t : State) : Prop :=
  t.cfgBw = s.cfgBw ∧ t.cfgSqDb = s.cfgSqDb ∧ t.cfgSqThr = s.cfgSqThr ∧ t.cfgMode = s.cfgMode ∧
  t.cfgAgcTarget = s.cfgAgcTarget ∧ t.cfgAgcAttack = s.cfgAgcAttack ∧ t.cfgAgcDecay = s.cfgAgcDecay ∧
  t.cfgFftSize = s.cfgFftSize ∧ t.cfgAvgAlpha = s.cfgAvgAlpha

theorem PortUpdate.sameConfig {s t : State} (h : PortUpdate s t) : SameConfig s t := by
  cases h <;> simp [SameConfig]

theorem PortUpdate.params {s t : State} (h : PortUpdate s t) : t.params = s.params := by
  cases h <;> rfl

theorem Served.params {s t : State} {r : Request} (h : Served s r t) : t.params = s.params := by
  cases h with
  | port hu => exact hu.params
  | command _ he => exact exec_params he
  | powerOn _ => rfl

theorem step_params {s t : State} (h : step s = .next t) : t.params = s.params := by
  obtain ⟨-, ⟨-, rfl⟩ | ⟨r, rest, hp, -⟩⟩ := step_next h
  · rfl
  obtain ⟨d, u, resp, hs, rfl⟩ := step_served hp h
  exact hs.params

/-! ## Registers read and written at their offsets -/

theorem regMap_aligned {o : Nat} {r : Reg} (h : regMap.lookup o = some r) : o % 4 = 0 ∧ o < 0x1000 := by
  have key : ∀ row ∈ regMap, row.1 % 4 = 0 ∧ row.1 < 0x1000 := by decide
  exact key _ (mem_of_lookup h)

theorem locate_of_lookup {o : Nat} {r : Reg} (p : Params) (h : regMap.lookup o = some r) :
    locate p o = some (.reg r) := by
  rw [locate, if_pos (regMap_aligned h).2, h]
  rfl

/-- A read at a register's offset returns the register (R22-R32). -/
theorem memReadWord_reg {off : Offset} (s : State) (r : Reg) (h : regMap.lookup off.toNat = some r) :
    memReadWord off .b4 s = s.regWord r := by
  rw [memReadWord, accessCheck_of_locate (regMap_aligned h).1 (locate_of_lookup _ h)]
  rfl

/-- A write at a register's offset that reaches a target is a write to the target (R67). -/
theorem memWrite_reg {off : Offset} {t : Target} (s : State) (v : Word) (r : Reg)
    (h : regMap.lookup off.toNat = some r) (ht : (Loc.reg r).target = some t) :
    memWrite off .b4 v s = writeTarget t v s := by
  rw [memWrite, writeCheck_of_locate (regMap_aligned h).1 (locate_of_lookup _ h) ht]

/-- A write to a read-only register is an RO write (R56). -/
theorem memWrite_readOnly_reg {off : Offset} {r : Reg} (s : State) (v : Word)
    (h : regMap.lookup off.toNat = some r) (ht : (Loc.reg r).target = none) :
    memWrite off .b4 v s = .next (s.recorded 0x4 19 (off.zeroExtend 32)) := by
  have hc : writeCheck s.params off .b4 = .error .busRoWrite := by
    simp only [writeCheck, accessCheck_of_locate (regMap_aligned h).1 (locate_of_lookup _ h), ht]
  rw [memWrite, hc]
  exact congrArg _ (State.record_eq_recorded _ _ _)

/-- Every aligned offset of the identification, parameter and configuration registers holds a read-only register. -/
theorem readOnly_registers {o : Nat} (ha : o % 4 = 0) (h : o ≤ 0x024 ∨ (0x080 ≤ o ∧ o ≤ 0x0A0)) :
    ∃ r, regMap.lookup o = some r ∧ (Loc.reg r).target = none := by
  have key : ∀ k ≤ 0x28, k ≤ 9 ∨ 0x20 ≤ k →
      ((regMap.lookup (4 * k)).any fun r => decide ((Loc.reg r).target = none)) = true := by decide
  obtain ⟨k, rfl⟩ : ∃ k, o = 4 * k := ⟨o / 4, by omega⟩
  simpa [Option.any_eq_true] using key k (by omega) (by omega)

/-- Settles O9: the ten offsets are rows of the map with read-only registers, and a step keeps the parameters. -/
theorem parameterRegistersAreConstant : Obligations.ParameterRegistersAreConstant := by
  unfold Obligations.ParameterRegistersAreConstant
  refine ⟨fun s => ?_, fun s off v hle ha => ?_, fun _ _ => step_params⟩
  · exact ⟨memReadWord_reg s .id rfl, memReadWord_reg s .version rfl, memReadWord_reg s .pNtaps rfl,
      memReadWord_reg s .pDecim rfl, memReadWord_reg s .pFs rfl, memReadWord_reg s .pMaxBatch rfl,
      memReadWord_reg s .pFftMax rfl, memReadWord_reg s .pWfDepth rfl, memReadWord_reg s .pAudioCap rfl,
      memReadWord_reg s .pAudioLimit rfl⟩
  · obtain ⟨r, hr, ht⟩ := readOnly_registers ha (.inl hle)
    exact memWrite_readOnly_reg s v hr ht

/-- Settles O13: the offsets hold read-only registers, and a step without a command or a reset is an update of the
port. -/
theorem configurationChangedOnlyByCommands : Obligations.ConfigurationChangedOnlyByCommands := by
  unfold Obligations.ConfigurationChangedOnlyByCommands
  refine ⟨fun s off v hlo hhi ha => ?_, fun s t r rest hp hstep hpower hcmd => ?_⟩
  · obtain ⟨r, hr, ht⟩ := readOnly_registers ha (.inr ⟨hlo, hhi⟩)
    exact memWrite_readOnly_reg s v hr ht
  · obtain ⟨d, u, resp, hs, rfl⟩ := step_served hp hstep
    cases hs with
    | port hu => exact hu.sameConfig
    | command ho _ => exact absurd ho hcmd
    | powerOn hr => exact absurd hr hpower

/-! ## Who writes each item -/

/-- What each command may write: the fields it names, with any value, or the error a rejected command records. -/
inductive Writes (s : State) : Instr → State → Prop
  | rejected (i : Instr) (c : ErrCode) (info : Word) : Writes s i (s.record c info)
  | nop : Writes s .nop s
  | reset : Writes s .reset (s.resetSequence Config.num true)
  | process (dl : List Sample) (n : Word) (valid : Bool) (prev : Sample) (g : F32) (q : List F32) (st : Word) :
      Writes s .process { s with
        delay := dl, cnt := n, fmValid := valid, fmPrev := prev, gain := g, fifo := q, status := st }
  | spectrum (avg : List F32) (wf : List (List F32)) : Writes s .spectrum { s with avg := avg, wf := wf }
  | setBw (bw : Word) (taps : List F32) (dl : List Sample) :
      Writes s .setBw { s with cfgBw := bw, taps := taps, delay := dl }
  | setSquelch (db thr : F32) : Writes s .setSquelch { s with cfgSqDb := db, cfgSqThr := thr }
  | setMode (m : Mode) (n : Word) (valid : Bool) (prev : Sample) :
      Writes s (.setMode m) { s with cfgMode := m, cnt := n, fmValid := valid, fmPrev := prev }
  | setAgcTarget (v : F32) : Writes s .setAgcTarget { s with cfgAgcTarget := v }
  | setAgcAttack (v : F32) : Writes s .setAgcAttack { s with cfgAgcAttack := v }
  | setAgcDecay (v : F32) : Writes s .setAgcDecay { s with cfgAgcDecay := v }
  | setFftSize (size : Word) (avg : List F32) (wf : List (List F32)) :
      Writes s .setFftSize { s with cfgFftSize := size, avg := avg, wf := wf }
  | setAvg (v : F32) : Writes s .setAvg { s with cfgAvgAlpha := v }

theorem setMode_writes (s : State) (m : Mode) : Writes s (.setMode m) (s.setMode m) := by
  unfold State.setMode
  split
  · rename_i hm
    subst hm
    exact .setMode s.cfgMode s.cnt s.fmValid s.fmPrev
  · exact .setMode m 0 false ⟨0, 0⟩

theorem processSamples_writes (s : State) (xs : List Sample) : Writes s .process (processSamples Config.num xs s) := by
  rw [processSamples_frame]
  exact .process ..

theorem exec_writes {i : Instr} {s t : State} (h : exec i s = .next t) : Writes s i t := by
  rcases exec_next h with heff | ⟨c, info, -, -, rfl⟩
  case inr => exact .rejected i c info
  cases i with
  | nop => obtain rfl : t = s := heff; exact .nop
  | reset => obtain rfl : t = s.resetSequence Config.num true := heff; exact .reset
  | process => obtain ⟨-, xs, -, rfl⟩ := heff; exact processSamples_writes s xs
  | spectrum =>
    obtain ⟨-, ⟨-, rfl⟩ | ⟨-, seg, -, rfl⟩⟩ := heff
    · exact .spectrum t.avg t.wf
    · exact .spectrum ..
  | setBw => obtain ⟨-, -, rfl⟩ := heff; exact .setBw ..
  | setSquelch => obtain ⟨-, rfl⟩ := heff; exact .setSquelch ..
  | setMode m => obtain rfl : t = s.setMode m := heff; exact setMode_writes s m
  | setAgcTarget => obtain ⟨-, rfl⟩ := heff; exact .setAgcTarget _
  | setAgcAttack => obtain ⟨-, rfl⟩ := heff; exact .setAgcAttack _
  | setAgcDecay => obtain ⟨-, rfl⟩ := heff; exact .setAgcDecay _
  | setFftSize => obtain ⟨-, rfl⟩ := heff; exact .setFftSize ..
  | setAvg => obtain ⟨-, rfl⟩ := heff; exact .setAvg _

/-- Settles O27: no command but RESET has another command's register among its writes. -/
theorem configRegisterWriters : Obligations.ConfigRegisterWriters := by
  unfold Obligations.ConfigRegisterWriters
  intro i s t h hi
  cases exec_writes h with
  | reset => exact absurd rfl hi
  | _ => simp

/-- Settles O28: the items of R34 to R43 stand among the writes of the named commands only. -/
theorem carriedStateWriters : Obligations.CarriedStateWriters := by
  unfold Obligations.CarriedStateWriters
  intro i s t h
  cases exec_writes h <;> simp

/-! ## Commands that take no operand -/

/-- The state with another value in CMD_ARG. -/
def State.withArg (s : State) (v : Word) : State := { s with cmdArg := v }

section
variable (s : State) (v : Word)

@[simp] theorem State.withArg_params : (s.withArg v).params = s.params := rfl
@[simp] theorem State.withArg_batch : (s.withArg v).batch = s.batch := rfl
@[simp] theorem State.withArg_batchLen : (s.withArg v).batchLen = s.batchLen := rfl
@[simp] theorem State.withArg_inBuf : (s.withArg v).inBuf = s.inBuf := rfl
@[simp] theorem State.withArg_fftSize : (s.withArg v).fftSize = s.fftSize := rfl
@[simp] theorem State.withArg_cfgMode : (s.withArg v).cfgMode = s.cfgMode := rfl
@[simp] theorem State.withArg_record (c : ErrCode) (info : Word) :
    (s.withArg v).record c info = (s.record c info).withArg v := rfl
@[simp] theorem State.withArg_spectrumUpdate (db : List F32) :
    (s.withArg v).spectrumUpdate db = (s.spectrumUpdate db).withArg v := rfl

theorem State.withArg_runSamples (xs : List Sample) : (s.withArg v).runSamples xs = (s.runSamples xs).withArg v := by
  induction xs generalizing s with
  | nil => rfl
  | cons x xs ih => exact ih (s.sampleNext x)

theorem State.withArg_audioBatch (num : Numerics) (xs : List Sample) :
    (s.withArg v).audioBatch num xs = s.audioBatch num xs := by
  induction xs generalizing s with
  | nil => rfl
  | cons x xs ih => exact congrArg ((s.sampleOut num x).toList ++ ·) (ih (s.sampleNext x))

theorem State.withArg_deliver (a : List F32) : (s.withArg v).deliver a = (s.deliver a).withArg v := by
  unfold State.deliver
  split <;> rfl

theorem State.withArg_processSamples (num : Numerics) (xs : List Sample) :
    processSamples num xs (s.withArg v) = (processSamples num xs s).withArg v := by
  simp only [processSamples, State.withArg_runSamples, State.withArg_audioBatch, State.withArg_deliver]

theorem State.withArg_setMode (m : Mode) : (s.withArg v).setMode m = (s.setMode m).withArg v := by
  by_cases h : m = s.cfgMode
  · rw [State.setMode, State.setMode, State.withArg_cfgMode, if_pos h, if_pos h]
  · rw [State.setMode, State.setMode, State.withArg_cfgMode, if_neg h, if_neg h]
    rfl

end

theorem process_withArg {num : Numerics} {s t : State} (v : Word) (h : process num s = .next t) :
    process num (s.withArg v) = .next (t.withArg v) := by
  rcases process_next h with ⟨hlt, rfl⟩ | ⟨hle, xs, hxs, rfl⟩
  · simp [process, hlt]
  · simp [process, hle.not_gt, hxs, State.withArg_processSamples]

theorem spectrum_withArg {num : Numerics} {s t : State} (v : Word) (h : spectrum num s = .next t) :
    spectrum num (s.withArg v) = .next (t.withArg v) := by
  rcases spectrum_next h with ⟨hlt, rfl⟩ | ⟨hle, hF, rfl⟩ | ⟨hle, hF, seg, hseg, rfl⟩
  · simp [spectrum, hlt]
  · simp [spectrum, hle.not_gt, hF]
  · simp [spectrum, hle.not_gt, hF.not_gt, hseg]

/-- Settles O29: each command commutes with another value in CMD_ARG, which RESET clears. -/
theorem cmdArgIgnoredWithoutOperand : Obligations.CmdArgIgnoredWithoutOperand := by
  unfold Obligations.CmdArgIgnoredWithoutOperand
  intro i s t v hi
  refine ⟨fun h => ?_, rfl⟩
  rcases hi with rfl | rfl | rfl | ⟨m, rfl⟩
  · cases h; rfl
  · exact process_withArg v h
  · exact spectrum_withArg v h
  · cases h; exact congrArg _ (State.withArg_setMode s v m)

/-! ## A sample read without a value -/

theorem Memory.sample_eq_none_iff {m : Memory} {j : Nat} :
    m.sample j = none ↔ m.readWord (0x100000 + 8 * j) = none ∨ m.readWord (0x100000 + 8 * j + 4) = none := by
  rw [← Option.not_isSome_iff_eq_none, Memory.sample_isSome, not_and_or, Option.not_isSome_iff_eq_none,
    Option.not_isSome_iff_eq_none]
  rfl

theorem Memory.samples_eq_none_iff {m : Memory} {start n : Nat} :
    m.samples start n = none ↔ ∃ j, start ≤ j ∧ j < start + n ∧
      (m.readWord (0x100000 + 8 * j) = none ∨ m.readWord (0x100000 + 8 * j + 4) = none) := by
  rw [← Option.not_isSome_iff_eq_none, Memory.samples_isSome]
  push Not
  simp only [Option.not_isSome_iff_eq_none, Memory.sample_eq_none_iff]

theorem process_eq_fault_iff {num : Numerics} {s : State} (h : s.batch ≤ s.params.pMaxBatch) :
    process num s = .fault .unwrittenInput ↔ s.inBuf.samples 0 s.batch = none := by
  rw [process, if_neg h.not_gt]
  cases s.inBuf.samples 0 s.batch <;> simp

theorem spectrum_eq_fault_iff {num : Numerics} {s : State} (h : s.batch ≤ s.params.pMaxBatch)
    (hF : s.fftSize ≤ s.batch) :
    spectrum num s = .fault .unwrittenInput ↔ s.inBuf.samples (s.batch - s.fftSize) s.fftSize = none := by
  rw [spectrum, if_neg h.not_gt, if_neg hF.not_gt]
  cases s.inBuf.samples (s.batch - s.fftSize) s.fftSize <;> simp

/-- Settles O42: the two commands fault exactly where their range of samples has no value. -/
theorem unwrittenInputFaults : Obligations.UnwrittenInputFaults := by
  unfold Obligations.UnwrittenInputFaults
  refine fun s hL => ⟨(process_eq_fault_iff hL).trans ?_, fun hF => (spectrum_eq_fault_iff hL hF).trans ?_⟩
  · rw [Memory.samples_eq_none_iff]
    simp
  · rw [Memory.samples_eq_none_iff, Nat.sub_add_cancel hF]

/-! ## The squelch threshold -/

/-- Settles O56: the level is finite, so its quotient by 20 is a number, and the premise speaks of its power. -/
theorem squelchThresholdIsLegal : Obligations.SquelchThresholdIsLegal := by
  unfold Obligations.SquelchThresholdIsLegal
  intro num s hpow h
  have hlevel : isFinite s.cfgSqDb = true := by
    simpa [legalSquelch, isFinite_iff] using h.sqDb
  have hthr : lef 0 s.cfgSqThr = true := by
    rw [h.sqThr]
    exact hpow _ (isNaN_divf hlevel (by decide))
  exact ⟨(lef_iff.1 hthr).2.1, hthr⟩

/-! ## The port and the reset -/

theorem offsetOf_base_add (p : Params) (off : Offset) : offsetOf p (p.pBase + off.toNat) = some off := by
  have := off.isLt
  rw [offsetOf, if_pos (by omega), Nat.add_sub_cancel_left, BitVec.ofNat_toNat, BitVec.setWidth_eq]

/-- Settles O5: the write passes the checks of CMD, where the word is decoded and run. -/
theorem stepRunsTheCommandWritten : Obligations.StepRunsTheCommandWritten := by
  unfold Obligations.StepRunsTheCommandWritten
  intro s w i rest hinst hp hdec
  have hoff : offsetOf s.params (s.params.pBase + 0x40) = some 0x40 := offsetOf_base_add s.params 0x40
  calc step s = serve (cmdWrite s.params w) { s with pending := rest } := step_of_pending hinst hp
    _ = memWrite 0x40 .b4 w { s with pending := rest, draws := s.draws + 1 } := by
        simp [serve, cmdWrite, hoff, readerMayNot, State.nextDraw]
    _ = execute w { s with pending := rest, draws := s.draws + 1 } := memWrite_reg _ w .cmd rfl rfl
    _ = exec i { s with pending := rest, draws := s.draws + 1 } := by rw [execute, hdec]

/-- Settles O10: both registers are writable rows of the map. -/
theorem operandRegistersStoreAnyValue : Obligations.OperandRegistersStoreAnyValue := by
  unfold Obligations.OperandRegistersStoreAnyValue
  exact fun s v => ⟨memWrite_reg s v .cmdArg rfl rfl, memWrite_reg s v .batchLen rfl rfl,
    memReadWord_reg _ .cmdArg rfl, memReadWord_reg _ .batchLen rfl⟩

/-- Settles O12: the offset is mapped to its IN word, and only AUDIO_DATA and an error have a side effect. -/
theorem unwrittenInWordReadsFreeDraw : Obligations.UnwrittenInWordReadsFreeDraw := by
  unfold Obligations.UnwrittenInWordReadsFreeDraw
  intro s j half hp hj hhalf o hnone
  obtain ⟨-, -, -, hmax, -⟩ := Params.ranges_of_wellFormed hp
  have ho : (BitVec.ofNat 23 o).toNat = o := by
    rw [BitVec.toNat_ofNat, Nat.mod_eq_of_lt (by omega)]
  have hc : accessCheck s.params (BitVec.ofNat 23 o) .b4 = .ok (.inWord o) := by
    refine accessCheck_of_locate (by omega) ?_
    rw [ho]
    exact locate_inWord (by omega) (by omega) (by omega)
  simp [memReadWord, memReadNext, hc, State.locWord, hnone]

/-- Settles O20: both resets are the reset sequence, which sets every item to its value of R45. -/
theorem resetGivesTheResetValues : Obligations.ResetGivesTheResetValues := by
  unfold Obligations.ResetGivesTheResetValues
  exact fun s => ⟨rfl, fun rest hinst hp => step_of_pending hinst hp⟩

/-- Settles O58: each offset is the row of its register in the map. -/
theorem registersReadTheirState : Obligations.RegistersReadTheirState := by
  unfold Obligations.RegistersReadTheirState
  intro s rd
  have hmode : s.regWord .cfgMode = (match s.cfgMode with | .am => 0 | .fm => 1 | .usb => 2 | .lsb => 3) := by
    rw [State.regWord]
    cases s.cfgMode <;> rfl
  exact ⟨⟨memReadWord_reg s .cmd rfl, memReadWord_reg s .snap rfl⟩,
    ⟨memReadWord_reg s .status rfl, memReadWord_reg s .errCode rfl, memReadWord_reg s .errInfo rfl⟩,
    ⟨memReadWord_reg s .cfgBw rfl, memReadWord_reg s .cfgSqDb rfl, memReadWord_reg s .cfgSqThr rfl,
      (memReadWord_reg s .cfgMode rfl).trans hmode, memReadWord_reg s .cfgAgcTarget rfl,
      memReadWord_reg s .cfgAgcAttack rfl, memReadWord_reg s .cfgAgcDecay rfl, memReadWord_reg s .cfgFftSize rfl,
      memReadWord_reg s .cfgAvgAlpha rfl⟩,
    ⟨memReadWord_reg s .stDemodCnt rfl, memReadWord_reg s .stFmValid rfl, memReadWord_reg s .stFmPrevI rfl,
      memReadWord_reg s .stFmPrevQ rfl, memReadWord_reg s .stAgcGain rfl, memReadWord_reg s .stWfRows rfl⟩,
    memReadWord_reg s .audioAvail rfl, memReadWord_reg s .snapBins rfl, memReadWord_reg s .snapWfRows rfl⟩

end Sys2Proof.Machine
end

section
/-! PROOFS. The slave port (spec/20_memory.md): the reads without a side effect (R58), the words of the windows (R33,
R34, R59), a write to IN (R35, R52, R213), and the order in which the step serves events (R61, R263, R266). -/

namespace Sys2Proof

theorem Params.pNtaps_le_of_wellFormed {p : Params} (h : p.wellFormed = true) : p.pNtaps ≤ 1024 := by
  simp only [Params.wellFormed, Params.ntapsOk, Bool.and_eq_true, decide_eq_true_eq] at h
  obtain ⟨⟨⟨⟨⟨⟨⟨⟨-, -, hN⟩, -⟩, -⟩, -⟩, -⟩, -⟩, -⟩, -⟩ := h
  exact hN

@[simp] theorem length_tapGen (num : Numerics) (p : Params) (bw : Word) : (tapGen num p bw).length = p.pNtaps := by
  simp [tapGen, rawTaps]

end Sys2Proof

namespace Sys2Proof.Machine

/-! ## Accesses at an aligned, mapped offset -/

/-- A read that passes its checks leaves the state alone, unless it is a pop (R58). -/
theorem memReadNext_of_accessCheck {s : State} {off : Offset} {w : Width} {l : Loc}
    (h : accessCheck s.params off w = .ok l) (hl : l ≠ .reg .audioData) : memReadNext off w s = s := by
  simp only [memReadNext, h, if_neg hl]

section
variable {o : Nat} (s : State) (ha : o % 4 = 0) (ho : o < 2 ^ 23)
include ha ho

/-- An aligned offset, given as a number, passes the checks at the location the map gives it. -/
theorem accessCheck_ofNat {p : Params} {l : Loc} (hl : locate p o = some l) :
    accessCheck p (BitVec.ofNat 23 o) .b4 = .ok l := by
  have hn : (BitVec.ofNat 23 o).toNat = o := by rw [BitVec.toNat_ofNat, Nat.mod_eq_of_lt ho]
  exact accessCheck_of_locate (hn.symm ▸ ha) (hn.symm ▸ hl)

/-- A read at an aligned offset returns the word of its location (R59). -/
theorem memReadWord_ofNat {l : Loc} (hl : locate s.params o = some l) :
    memReadWord (BitVec.ofNat 23 o) .b4 s = s.locWord l := by
  rw [memReadWord, accessCheck_ofNat ha ho hl]

/-- A write at an aligned offset of a writable location is a write to its target (R67). -/
theorem memWrite_ofNat {l : Loc} {t : Target} (v : Word) (hl : locate s.params o = some l) (ht : l.target = some t) :
    memWrite (BitVec.ofNat 23 o) .b4 v s = writeTarget t v s := by
  simp only [memWrite, writeCheck, accessCheck_ofNat ha ho hl, ht]

end

/-! ## The TAPS and DELAY windows in the map -/

section
variable {p : Params} {k : Nat} (hp : p.wellFormed = true) (hk : k < p.pNtaps)
include hp hk

theorem locate_tap : locate p (0x001000 + 4 * k) = some (.tap k) := by
  have := Params.pNtaps_le_of_wellFormed hp
  have hidx : (0x001000 + 4 * k - 0x001000) / 4 = k := by omega
  rw [locate, if_neg (by omega), if_pos (by omega), hidx, if_pos hk]

theorem locate_delayRe : locate p (0x002000 + 8 * k) = some (.delayRe k) := by
  have := Params.pNtaps_le_of_wellFormed hp
  have hidx : (0x002000 + 8 * k - 0x002000) / 8 = k := by omega
  rw [locate, if_neg (by omega), if_neg (by omega), if_pos (by omega), hidx, if_pos hk, if_pos (by omega)]

theorem locate_delayIm : locate p (0x002004 + 8 * k) = some (.delayIm k) := by
  have := Params.pNtaps_le_of_wellFormed hp
  have hidx : (0x002004 + 8 * k - 0x002000) / 8 = k := by omega
  rw [locate, if_neg (by omega), if_neg (by omega), if_pos (by omega), hidx, if_pos hk, if_neg (by omega)]

end

/-- Settles O59: each word is mapped to its array entry, and under the invariant the arrays have the window's length. -/
theorem tapsAndDelayWindowsReadTheirArrays : Obligations.TapsAndDelayWindowsReadTheirArrays := by
  unfold Obligations.TapsAndDelayWindowsReadTheirArrays
  intro num s k h hk
  have hN := Params.pNtaps_le_of_wellFormed h.params
  have htaps : k < s.taps.length := by rwa [h.taps, length_tapGen]
  have hdelay : k < s.delay.length := by rwa [h.delay_len]
  rw [memReadWord_ofNat s (by omega) (by omega) (locate_tap h.params hk),
    memReadWord_ofNat s (by omega) (by omega) (locate_delayRe h.params hk),
    memReadWord_ofNat s (by omega) (by omega) (locate_delayIm h.params hk)]
  simp [State.locWord, htaps, hdelay]

/-! ## Reads without a side effect -/

theorem eq_audioData_offset {p : Params} {off : Offset} (h : locate p off.toNat = some (.reg .audioData)) :
    off = 0x104 := by
  have key : ∀ row ∈ regMap, row.2 = .audioData → row.1 = 0x104 := by decide
  exact BitVec.eq_of_toNat_eq (key _ (locate_eq_reg h) rfl)

/-- Settles O8: a mapped offset has a location, and AUDIO_DATA stands at 0x104 only. -/
theorem plainReadsHaveNoSideEffect : Obligations.PlainReadsHaveNoSideEffect := by
  unfold Obligations.PlainReadsHaveNoSideEffect
  intro s off ha hne hmap
  obtain ⟨l, hl⟩ := Option.isSome_iff_exists.1 ((locate_isSome ha off.isLt).2 hmap)
  have hpop : l ≠ .reg .audioData := by
    rintro rfl
    exact hne (eq_audioData_offset hl)
  have hnext := memReadNext_of_accessCheck (accessCheck_of_locate ha hl) hpop
  exact ⟨hnext, by rw [hnext]⟩

/-! ## A write to IN -/

/-- An IN word reads back as written (R213). -/
theorem State.locWord_inWord_writeWord (s : State) (o : Nat) (v : Word) :
    ({ s with inBuf := s.inBuf.writeWord o v } : State).locWord (.inWord o) = v := by
  rw [State.locWord, Memory.readWord_writeWord, Option.getD_some]

/-- Settles O11: the offset is mapped to its IN word, and the memory is the one with that word replaced. -/
theorem inBufWriteStoresOneWord : Obligations.InBufWriteStoresOneWord := by
  unfold Obligations.InBufWriteStoresOneWord
  intro s j half v hp hj hhalf o
  obtain ⟨-, -, -, hmax, -⟩ := Params.ranges_of_wellFormed hp
  have ha : o % 4 = 0 := by omega
  have ho : o < 2 ^ 23 := by omega
  have hloc : locate s.params o = some (.inWord o) := locate_inWord (by omega) (by omega) (by omega)
  refine ⟨s.inBuf.writeWord o v, memWrite_ofNat s ha ho v hloc rfl, ?_, fun n hn => ?_, fun a hout => ?_,
    fun hwf => Memory.wf_writeWord hwf o v⟩
  · exact (memReadWord_ofNat { s with inBuf := s.inBuf.writeWord o v } ha ho hloc).trans
      (State.locWord_inWord_writeWord s o v)
  · rw [Memory.readByte_writeWord, if_pos (by omega), Nat.add_sub_cancel_left, laneOf]
  · rw [Memory.readByte_writeWord, if_neg (by omega)]

/-! ## The order of service -/

/-- A write is refused only to the READER, and only where it passes the checks and reaches a FEED location (R266). -/
theorem readerMayNot_eq_false {p : Params} {ag : Agent} {off : Offset} {w : Width}
    (h : ag = .feed ∨ w ≠ .b4 ∨ off.toNat % 4 ≠ 0 ∨ ¬feedOnlyOffset p off.toNat) :
    readerMayNot p ag off w = false := by
  cases ag with
  | feed => rfl
  | reader =>
    unfold readerMayNot
    cases hc : writeCheck p off w with
    | error c => rfl
    | ok t =>
      obtain ⟨l, hl, ht⟩ := writeCheck_ok hc
      obtain ⟨hw, hal, hloc⟩ := accessCheck_ok hl
      have hfeed : ¬feedOnlyOffset p off.toNat :=
        ((h.resolve_left nofun).resolve_left (not_not.2 hw)).resolve_left
          (not_not.2 ((low_bits_eq_zero_iff off).1 hal))
      exact Bool.eq_false_iff.2 (mt ((locate_target hloc).2 t ht).1 hfeed)

theorem step_of_pending_nil {s : State} (hi : s.params.isInstance = true) (hp : s.pending = []) :
    step s = .next s := by
  unfold step serveNext
  rw [if_pos hi, hp]

section
variable (s : State) (ag : Agent) (off : Offset) (w : Width)

/-- A read inside the block is answered with its word (R68). -/
theorem serve_read_base_add :
    serve (.read ag (s.params.pBase + off.toNat) w) s =
      .next { memReadNext off w s with responses := (ag, memReadWord off w s) :: s.responses } := by
  simp only [serve, offsetOf_base_add]

/-- A write inside the block that is not refused to its agent is a MemWrite (R67). -/
theorem serve_write_base_add (v : Word) (h : readerMayNot s.params ag off w = false) :
    serve (.write ag (s.params.pBase + off.toNat) w v) s = memWrite off w v s.nextDraw := by
  simp only [serve, offsetOf_base_add, h, Bool.false_eq_true, if_false]

end

/-- Settles O6: an instance serves the first event of the list, and the READER is refused FEED's locations only. -/
theorem stepServesInArrivalOrder : Obligations.StepServesInArrivalOrder := by
  unfold Obligations.StepServesInArrivalOrder
  refine fun s hinst => ⟨step_of_pending_nil hinst, fun ag off w rest hp => ?_, fun ag off w v rest hp hfree => ?_,
    fun rest hp => step_of_pending hinst hp⟩
  · exact (step_of_pending hinst hp).trans (serve_read_base_add { s with pending := rest } ag off w)
  · exact (step_of_pending hinst hp).trans
      (serve_write_base_add { s with pending := rest } ag off w v (readerMayNot_eq_false hfree))

end Sys2Proof.Machine
end

section
/-! PROOFS. The command word (spec/30_encoding.md): its fields, decoding as the inverse of encoding (R83, R84), the
rows of the opcode map (R83), and the illegal words (R85). -/

namespace Sys2Proof

/-! ## The fields of a word (R80) -/

/-- A word is its bits above OP and OP. -/
theorem extract_append_opField (w : Word) : w.extractLsb' 8 24 ++ opField w = w :=
  (BitVec.extractLsb'_append_extractLsb'_eq_extractLsb' rfl).trans BitVec.extractLsb'_eq_self

/-- A word is its bits above MODE, MODE and OP. -/
theorem extract_append_modeField_opField (w : Word) : w.extractLsb' 10 22 ++ (modeField w ++ opField w) = w := by
  have hlow : modeField w ++ opField w = w.extractLsb' 0 10 :=
    BitVec.extractLsb'_append_extractLsb'_eq_extractLsb' rfl
  rw [hlow]
  exact (BitVec.extractLsb'_append_extractLsb'_eq_extractLsb' rfl).trans BitVec.extractLsb'_eq_self

/-! ## Decoding inverts encoding (R84) -/

/-- The family of encodings, for every command. -/
theorem encoding_statement (i : Instr) : Laws.Encoding.Statement i :=
  match i with
  | .nop => Laws.Encoding.nop
  | .reset => Laws.Encoding.reset
  | .process => Laws.Encoding.process
  | .spectrum => Laws.Encoding.spectrum
  | .setBw => Laws.Encoding.setBw
  | .setSquelch => Laws.Encoding.setSquelch
  | .setMode m => Laws.Encoding.setMode m
  | .setAgcTarget => Laws.Encoding.setAgcTarget
  | .setAgcAttack => Laws.Encoding.setAgcAttack
  | .setAgcDecay => Laws.Encoding.setAgcDecay
  | .setFftSize => Laws.Encoding.setFftSize
  | .setAvg => Laws.Encoding.setAvg

@[simp] theorem decode_encode (i : Instr) : decode (encode i) = .ok i :=
  have ⟨_, hdec, _⟩ := encoding_statement i
  hdec

/-- A word accepted as a command without an immediate is determined by its OP field. -/
theorem encode_of_plainCommand {w : Word} {i j : Instr} {op : BitVec 8} (hop : opField w = op)
    (h : plainCommand w i = .ok j) (hi : encode i = (0 : BitVec 24) ++ op) : encode j = w := by
  rw [plainCommand] at h
  split at h
  · next hhigh =>
    cases h
    rw [hi, ← hhigh, ← hop, extract_append_opField]
  · cases h

/-- A SET_MODE word is determined by its MODE field. -/
theorem encode_setMode_of_fields {w : Word} (hop : opField w = 0x22) (hhigh : w.extractLsb' 10 22 = 0) :
    encode (.setMode (Mode.ofBits (modeField w))) = w := by
  have hmode : ∀ m : BitVec 2, encode (.setMode (Mode.ofBits m)) = 0#22 ++ (m ++ 0x22#8) := by decide
  calc encode (.setMode (Mode.ofBits (modeField w))) = 0#22 ++ (modeField w ++ 0x22#8) := hmode _
    _ = w.extractLsb' 10 22 ++ (modeField w ++ opField w) := by rw [hhigh, hop]; rfl
    _ = w := extract_append_modeField_opField w

theorem encode_of_decode {w : Word} {i : Instr} (h : decode w = .ok i) : encode i = w := by
  simp only [decode] at h
  rcases ite_eq_iff.1 h with ⟨hop, h⟩ | ⟨-, h⟩
  · rcases ite_eq_iff.1 h with ⟨hhigh, h⟩ | ⟨-, h⟩
    · cases h
      exact encode_setMode_of_fields hop hhigh
    · cases h
  iterate 11
    rcases ite_eq_iff.1 h with ⟨hop, h⟩ | ⟨-, h⟩
    · exact encode_of_plainCommand hop h rfl
  cases h

theorem decode_eq_ok_iff {w : Word} {i : Instr} : decode w = .ok i ↔ encode i = w :=
  ⟨encode_of_decode, fun h => h ▸ decode_encode i⟩

@[simp] theorem decodeBytes_lanes (w : Word) : decodeBytes (lanes w) = decode w :=
  congrArg decode (Machine.wordOfBytes_lanes w)

/-- Settles O2: each command's word decodes to it, a decoded word is put together again from its fields, and a word
is its lanes. -/
theorem decodeIffEncode : Obligations.DecodeIffEncode := by
  unfold Obligations.DecodeIffEncode
  exact fun w i => ⟨decode_eq_ok_iff, by rw [decodeBytes_lanes, decode_eq_ok_iff]⟩

/-! ## The rows of the opcode map (R83) -/

theorem opcodeMap_mnemonics_nodup : (opcodeMap.map OpcodeRow.mnemonic).Nodup := by decide

/-- The command's word matches every row of its mnemonic, of which there is one. -/
theorem encode_and_mask {i : Instr} {row : OpcodeRow} (hrow : row ∈ opcodeMap) (h : i.mnemonic = row.mnemonic) :
    encode i &&& row.mask = row.matchBits := by
  obtain ⟨-, -, row', hrow', hname, hmatch⟩ := encoding_statement i
  have heq : row' = row := List.inj_on_of_nodup_map opcodeMap_mnemonics_nodup hrow' hrow (hname.trans h)
  exact heq ▸ hmatch

/-- A row asks for every bit and its match is a command's word, except SET_MODE's, which leaves MODE free. -/
theorem opcodeMap_cases {row : OpcodeRow} (h : row ∈ opcodeMap) :
    (row.mask = BitVec.allOnes 32 ∧ ∃ i, encode i = row.matchBits ∧ i.mnemonic = row.mnemonic) ∨
    row = ⟨"SET_MODE", 0x00000022, 0xFFFFFCFF⟩ := by
  simp only [opcodeMap, List.mem_cons, List.not_mem_nil, or_false] at h
  rcases h with rfl | rfl | rfl | rfl | rfl | rfl | rfl | rfl | rfl | rfl | rfl | rfl
  · exact .inl ⟨rfl, .nop, rfl, rfl⟩
  · exact .inl ⟨rfl, .reset, rfl, rfl⟩
  · exact .inl ⟨rfl, .process, rfl, rfl⟩
  · exact .inl ⟨rfl, .spectrum, rfl, rfl⟩
  · exact .inl ⟨rfl, .setBw, rfl, rfl⟩
  · exact .inl ⟨rfl, .setSquelch, rfl, rfl⟩
  · exact .inr rfl
  · exact .inl ⟨rfl, .setAgcTarget, rfl, rfl⟩
  · exact .inl ⟨rfl, .setAgcAttack, rfl, rfl⟩
  · exact .inl ⟨rfl, .setAgcDecay, rfl, rfl⟩
  · exact .inl ⟨rfl, .setFftSize, rfl, rfl⟩
  · exact .inl ⟨rfl, .setAvg, rfl, rfl⟩

/-- The mask of SET_MODE selects OP and the reserved bits. -/
theorem fields_of_setMode_match {w : Word} (h : w &&& 0xFFFFFCFF = 0x00000022) :
    opField w = 0x22 ∧ w.extractLsb' 10 22 = 0 := by
  have hop : opField (w &&& 0xFFFFFCFF) = opField w := by
    rw [opField, BitVec.extractLsb'_and]
    exact BitVec.and_allOnes
  have hhigh : (w &&& 0xFFFFFCFF).extractLsb' 10 22 = w.extractLsb' 10 22 := by
    rw [BitVec.extractLsb'_and]
    exact BitVec.and_allOnes
  rw [h] at hop hhigh
  exact ⟨hop.symm, hhigh.symm⟩

theorem exists_encode_of_match {w : Word} {row : OpcodeRow} (hrow : row ∈ opcodeMap)
    (h : w &&& row.mask = row.matchBits) : ∃ i, encode i = w ∧ i.mnemonic = row.mnemonic := by
  rcases opcodeMap_cases hrow with ⟨hmask, i, hi, hname⟩ | rfl
  · rw [hmask, BitVec.and_allOnes] at h
    exact ⟨i, hi.trans h.symm, hname⟩
  · obtain ⟨hop, hhigh⟩ := fields_of_setMode_match h
    exact ⟨_, encode_setMode_of_fields hop hhigh, rfl⟩

theorem and_mask_eq_matchBits_iff {w : Word} {row : OpcodeRow} (hrow : row ∈ opcodeMap) :
    w &&& row.mask = row.matchBits ↔ ∃ i, decode w = .ok i ∧ i.mnemonic = row.mnemonic := by
  simp only [decode_eq_ok_iff]
  constructor
  · exact exists_encode_of_match hrow
  · rintro ⟨i, rfl, hname⟩
    exact encode_and_mask hrow hname

/-- Settles O3: every command has its row, so a word of no row is no command. -/
theorem opcodeMapSelectsTheCommand : Obligations.OpcodeMapSelectsTheCommand := by
  unfold Obligations.OpcodeMapSelectsTheCommand
  refine fun w => ⟨fun _ => and_mask_eq_matchBits_iff, fun hnone => ?_, fun ⟨e, he⟩ row hrow hmatch => ?_⟩
  · cases hdec : decode w with
    | error e => exact ⟨e, rfl⟩
    | ok i =>
      obtain ⟨-, -, row, hrow, -, hmatch⟩ := encoding_statement i
      exact absurd (encode_of_decode hdec ▸ hmatch) (hnone row hrow)
  · obtain ⟨i, hi, -⟩ := (and_mask_eq_matchBits_iff hrow).1 hmatch
    cases he.symm.trans hi

/-! ## The illegal words (R85) -/

/-- OP is none of the twelve opcodes, or a reserved bit is set: the three forms of R85. -/
abbrev illegalForm (w : Word) : Prop :=
  w.toNat % 256 ∉ [0x00, 0x01, 0x10, 0x11, 0x20, 0x21, 0x22, 0x23, 0x24, 0x25, 0x26, 0x27] ∨
    (w.toNat % 256 ≠ 0x22 ∧ w.toNat / 256 ≠ 0) ∨ (w.toNat % 256 = 0x22 ∧ w.toNat / 1024 ≠ 0)

theorem not_illegalForm_encode (i : Instr) : ¬illegalForm (encode i) := by
  cases i with
  | setMode m => cases m <;> decide
  | _ => decide

theorem decode_of_illegalForm {w : Word} (h : illegalForm w) : ∃ e, decode w = .error e := by
  cases hdec : decode w with
  | error e => exact ⟨e, rfl⟩
  | ok i => exact absurd (encode_of_decode hdec ▸ h) (not_illegalForm_encode i)

/-- Settles O4: no command's word has one of the three forms, so the write to CMD is answered with CmdErr. -/
theorem illegalWordRaisesCmdErr : Obligations.IllegalWordRaisesCmdErr := by
  unfold Obligations.IllegalWordRaisesCmdErr
  intro s w hform
  obtain ⟨e, he⟩ := decode_of_illegalForm hform
  calc Machine.memWrite 0x40 .b4 w s = Machine.execute w s := Machine.memWrite_reg s w .cmd rfl rfl
    _ = .next (s.record .illegalCmd w) := by rw [Machine.execute, he]
    _ = .next (s.recorded 0x1 1 w) := congrArg _ (s.record_eq_recorded .illegalCmd w)

/-! ## Table words -/

/-- A 32-bit table word is decoded whole. -/
theorem decodeTableWord_toNat (w : Word) : decodeTableWord 32 w.toNat = (decode w).toOption := by
  rw [decodeTableWord, decodeBytes_lanes, Nat.mod_eq_of_lt w.isLt, BitVec.ofNat_toNat, BitVec.setWidth_eq]

theorem decodeTableWord_encode (i : Instr) : decodeTableWord 32 (encode i).toNat = some i := by
  rw [decodeTableWord_toNat, decode_encode]
  rfl

theorem decodeTableWord_of_illegalForm {w : Word} (h : illegalForm w) : decodeTableWord 32 w.toNat = none := by
  obtain ⟨e, he⟩ := decode_of_illegalForm h
  rw [decodeTableWord_toNat, he]
  rfl

/-- Settles O1: ten of the words are those of commands, and six have a form of R85. -/
theorem specWordsDecode : Obligations.SpecWordsDecode := by
  unfold Obligations.SpecWordsDecode
  have legal := decodeTableWord_encode
  have illegal := @decodeTableWord_of_illegalForm
  exact ⟨legal .nop, legal .reset, legal .process, legal .spectrum, legal .setBw, legal (.setMode .am),
    legal (.setMode .fm), legal (.setMode .usb), legal (.setMode .lsb), legal .setAvg,
    illegal (w := 0xFF) (by decide), illegal (w := 0x02) (by decide), illegal (w := 0x28) (by decide),
    illegal (w := 0x120) (by decide), illegal (w := 0x80000010) (by decide), illegal (w := 0x422) (by decide)⟩

end Sys2Proof
end

section
/-! PROOFS. The filter (spec/40_filter.md): the tables of R100, R180 and R181 entry by entry, SET_BW (R101, R106), the
impulse response (R102, R107), and the delay line across batches (R103). -/

namespace Sys2Proof

/-! ## Ranges checked by SET_BW -/

theorem legalBw_iff {p : Params} {bw : Word} : legalBw p bw = true ↔ bw ≠ 0 ∧ bw.toNat < p.pFs := by
  rw [legalBw, decide_eq_true_iff, Nat.one_le_iff_ne_zero, ne_eq, ne_eq, BitVec.toNat_eq (y := 0)]
  rfl

/-- R101 in terms of the order of encodings. -/
theorem badTapSum_eq_true {S : F32} : badTapSum S = true ↔ isNaN S ∨ isInf S ∨ keyf S ≤ 0 := by
  rw [← Bool.not_eq_false, badTapSum_eq_false]
  simp only [not_and_or, Bool.not_eq_false, not_lt]

/-! ## The tables, entry by entry -/

section
variable (num : Numerics) (p : Params) (bw : Word)

/-- Raw tap `i` (R100). -/
def rawTap (i : Nat) : F32 :=
  mulf (sincTap num p.pNtaps (divf (u2f bw.toNat) (u2f p.pFs)) i) (hamming num p.pNtaps i)

theorem rawTaps_eq_map : rawTaps num p bw = (List.range p.pNtaps).map (rawTap num p bw) := rfl

theorem tapSum_eq_foldl :
    tapSum num p bw = (List.range p.pNtaps).foldl (fun S i => addf S (rawTap num p bw i)) 0 := by
  rw [tapSum, rawTaps_eq_map, List.foldl_map]

theorem getElem?_tapGen {i : Nat} (h : i < p.pNtaps) :
    (tapGen num p bw)[i]? = some (divf (rawTap num p bw i) (tapSum num p bw)) := by
  rw [tapGen, rawTaps_eq_map, List.getElem?_map, List.getElem?_map, List.getElem?_range h]
  rfl

@[simp] theorem length_winGen (F : Nat) : (winGen num F).length = F := by
  simp [winGen]

theorem getElem?_winGen {F n : Nat} (h : n < F) : (winGen num F)[n]? = some (hamming num F n) := by
  rw [winGen, List.getElem?_map, List.getElem?_range h]
  rfl

@[simp] theorem length_twGen (F : Nat) : (twGen num F).length = F / 2 := by
  simp [twGen]

/-- The angle of twiddle factor `k` (R181). -/
def twAngle (F k : Nat) : F32 := divf (mulf Config.TWO_PI (i2f k)) (i2f F)

theorem getElem?_twGen {F k : Nat} (h : k < F / 2) :
    (twGen num F)[k]? = some ⟨num.fCos (twAngle F k), negf (num.fSin (twAngle F k))⟩ := by
  rw [twGen, List.getElem?_map, List.getElem?_range h]
  rfl

end

/-- Settles O60: each table is a map over the range of its indices. -/
theorem tablesFollowTheirFormulas : Obligations.TablesFollowTheirFormulas := by
  unfold Obligations.TablesFollowTheirFormulas
  refine fun num => ⟨fun p bw => ?_, fun F => ?_, fun F => ?_⟩
  · have hS := tapSum_eq_foldl num p bw
    exact ⟨hS, length_tapGen num p bw, fun i hi => hS ▸ getElem?_tapGen num p bw hi⟩
  · exact ⟨length_winGen num F, fun _ => getElem?_winGen num⟩
  · exact ⟨length_twGen num F, fun _ => getElem?_twGen num⟩

/-! ## Sums with a zero, and the unit -/

/-- A finite value other than −0.0, which `+0.0 + x` and `x + ±0.0` give back. -/
def KeptByZero (a : F32) : Prop := isFinite a = true ∧ a ≠ 0x80000000

theorem keptByZero_zero : KeptByZero 0 := by
  unfold KeptByZero
  decide

/-- The only zero that is not −0.0 is +0.0. -/
theorem KeptByZero.eq_zero {a : F32} (h : KeptByZero a) (hz : isZero a = true) : a = 0 := by
  have hmag := magf_of_isZero hz
  cases hs : signf a
  · exact eq_of_fields hs hmag
  · exact absurd (eq_of_fields hs hmag) h.2

theorem KeptByZero.addf_zero {a z : F32} (h : KeptByZero a) (hz : isZero z = true) : addf a z = a := by
  cases h0 : isZero a
  · exact Sys2Proof.addf_zero h.1 hz h0
  · rw [h.eq_zero h0, addf_posZero hz]

theorem KeptByZero.zero_addf {a : F32} (h : KeptByZero a) : addf 0 a = a := by
  cases h0 : isZero a
  · exact Sys2Proof.zero_addf h.1 (by decide) h0
  · rw [h.eq_zero h0, addf_posZero (by decide)]

end Sys2Proof

namespace Sys2Proof.Machine

/-! ## SET_BW -/

/-- Settles O22: the range check and the tap sum check are those of `setBw_cases`, each rejection recorded as R232
says. -/
theorem setBwRebuildsTheFilter : Obligations.SetBwRebuildsTheFilter := by
  unfold Obligations.SetBwRebuildsTheFilter
  have hexec (s : State) : exec .setBw s = .next (setBw Config.num s) := rfl
  refine fun s => ⟨fun hrange => ?_, fun hne hlt => ?_⟩
  · have hillegal : ¬legalBw s.params s.cmdArg = true := by
      rw [legalBw_iff, not_and_or, not_not, not_lt]
      exact hrange
    rcases setBw_cases Config.num s with ⟨-, h⟩ | ⟨hlegal, -⟩ | ⟨hlegal, -⟩
    · rw [hexec, h, State.record_eq_recorded]
      rfl
    · exact absurd hlegal hillegal
    · exact absurd hlegal hillegal
  · intro S
    have hbad_iff : badTapSum S = true ↔ isNaN S ∨ isInf S ∨ keyf S ≤ 0 := badTapSum_eq_true
    rcases setBw_cases Config.num s with ⟨hillegal, -⟩ | ⟨-, hbad, h⟩ | ⟨-, hgood, h⟩
    · simp [legalBw_iff.2 ⟨hne, hlt⟩] at hillegal
    · rw [hexec, h, if_pos (hbad_iff.1 hbad), State.record_eq_recorded]
      rfl
    · rw [hexec, h, if_neg (mt hbad_iff.2 (Bool.eq_false_iff.1 hgood))]
      rfl

/-! ## The sum of products (R102) -/

theorem firSum_eq_foldl (hs : List F32) (ds : List Sample) (acc : Sample) :
    firSum hs ds acc = (hs.zip ds).foldl
      (fun acc e => ⟨addf acc.re (mulf e.1 e.2.re), addf acc.im (mulf e.1 e.2.im)⟩) acc := by
  induction hs generalizing ds acc with
  | nil => rfl
  | cons h hs ih =>
    cases ds with
    | nil => rfl
    | cons d ds => exact ih ds _

/-- Entries of the delay line past the last tap have no part in the sum. -/
theorem firSum_take (hs : List F32) (ds : List Sample) (acc : Sample) :
    firSum hs (ds.take hs.length) acc = firSum hs ds acc := by
  induction hs generalizing ds acc with
  | nil => rfl
  | cons h hs ih =>
    cases ds with
    | nil => rfl
    | cons d ds => exact ih ds _

/-- Zero samples leave an accumulator as it is. -/
theorem firSum_replicate_zero {hs : List F32} (hfin : ∀ h ∈ hs, isFinite h = true) (n : Nat) {acc : Sample}
    (hre : KeptByZero acc.re) (him : KeptByZero acc.im) : firSum hs (List.replicate n ⟨0, 0⟩) acc = acc := by
  induction hs generalizing n with
  | nil => rfl
  | cons h hs ih =>
    cases n with
    | zero => rfl
    | succ n =>
      have hz : isZero (mulf h 0) = true := isZero_mulf_right (hfin h List.mem_cons_self) (by decide)
      rw [List.replicate_succ, firSum, hre.addf_zero hz, him.addf_zero hz]
      exact ih (fun k hk => hfin k (List.mem_cons_of_mem h hk)) n

/-- With the unit at place `t` of an otherwise zero delay line, the sum of products is tap `t`. -/
theorem firSum_impulse {hs : List F32} (hkept : ∀ h ∈ hs, KeptByZero h) (t n : Nat) :
    firSum hs (List.replicate t ⟨0, 0⟩ ++ ⟨Config.ONE, 0⟩ :: List.replicate n ⟨0, 0⟩) ⟨0, 0⟩ =
      ⟨hs.getD t 0, 0⟩ := by
  induction hs generalizing t with
  | nil => rfl
  | cons h hs ih =>
    have hh : KeptByZero h := hkept h List.mem_cons_self
    have htail : ∀ k ∈ hs, KeptByZero k := fun k hk => hkept k (List.mem_cons_of_mem h hk)
    have hz : addf 0 (mulf h 0) = 0 := addf_posZero (isZero_mulf_right hh.1 (by decide))
    cases t with
    | zero =>
      calc firSum (h :: hs) (⟨Config.ONE, 0⟩ :: List.replicate n ⟨0, 0⟩) ⟨0, 0⟩
          = firSum hs (List.replicate n ⟨0, 0⟩) ⟨h, 0⟩ := by
            rw [firSum, mulf_one hh.1, hh.zero_addf, hz]
        _ = ⟨h, 0⟩ := firSum_replicate_zero (fun k hk => (htail k hk).1) n hh keptByZero_zero
    | succ t =>
      rw [List.replicate_succ, List.cons_append, firSum, hz]
      exact ih htail t

/-! ## The delay line (R103) -/

/-- The filter's shifts alone leave the delay line the sample loop leaves, and nothing else changed. -/
theorem State.foldl_firShift {s u : State} (xs : List Sample) (h : u.delay = s.delay) :
    xs.foldl State.firShift s = { s with delay := (u.runSamples xs).delay } := by
  induction xs generalizing s u with
  | nil => rw [State.runSamples, h]; rfl
  | cons x xs ih => exact ih (s := s.firShift x) (u := u.sampleNext x) (congrArg (shiftIn x) h)

/-- The output after an impulse and `t` zero samples into a zero delay line (R107). -/
theorem firOut_impulse {s : State} (hzero : s.delay = List.replicate s.taps.length ⟨0, 0⟩)
    (hkept : ∀ h ∈ s.taps, KeptByZero h) (t : Nat) :
    ((⟨Config.ONE, 0⟩ :: List.replicate t ⟨0, 0⟩ : List Sample).foldl State.firShift s).firOut =
      ⟨s.taps.getD t 0, 0⟩ := by
  rw [State.foldl_firShift _ rfl, State.firOut]
  dsimp only
  rcases Nat.eq_zero_or_pos s.taps.length with h0 | hpos
  · rw [List.length_eq_zero_iff.1 h0]
    rfl
  · have hlen : s.delay.length = s.taps.length := by rw [hzero, List.length_replicate]
    rw [State.runSamples_delay _ (hlen ▸ hpos), hlen, firSum_take, hzero, List.reverse_cons, List.reverse_replicate,
      List.append_assoc, List.singleton_append]
    exact firSum_impulse hkept t _

/-- Settles O30: the delay line holds the unit at place `t` among zeros, and a zero leaves the sum as it is. -/
theorem impulseResponseIsTheTapFile : Obligations.ImpulseResponseIsTheTapFile := by
  unfold Obligations.ImpulseResponseIsTheTapFile
  exact ⟨fun _ t hzero hkept => firOut_impulse hzero hkept t, fun s => firSum_eq_foldl s.taps s.delay _⟩

/-! ## PROCESS on a loaded batch -/

theorem eq_processSamples_of_exec {s t : State} {xs : List Sample} (hle : s.batch ≤ s.params.pMaxBatch)
    (hxs : s.inBuf.samples 0 s.batch = some xs) (h : exec .process s = .next t) :
    t = processSamples Config.num xs s := by
  rcases process_next h with ⟨hlt, -⟩ | ⟨-, xs', hxs', ht⟩
  · exact absurd hlt hle.not_gt
  · obtain rfl : xs = xs' := Option.some.inj (hxs.symm.trans hxs')
    exact ht

/-- Settles O31: PROCESS leaves the sample loop's delay line, and the samples are those of IN in order. -/
theorem delayLineHoldsTheNewestSamples : Obligations.DelayLineHoldsTheNewestSamples := by
  unfold Obligations.DelayLineHoldsTheNewestSamples
  intro s t xs hle hxs hdl hexec
  obtain rfl := eq_processSamples_of_exec hle hxs hexec
  obtain ⟨hlen, hsample⟩ := Memory.samples_spec hxs
  refine ⟨?_, hlen, fun j hj => by simpa using hsample j hj⟩
  rw [processSamples_frame]
  exact State.runSamples_delay xs hdl

/-! ## Across a batch boundary (R103, R121, R125) -/

/-- `u` is `s` but for items the sample loop neither reads nor writes: what the delivery of PROCESS writes, and the
batch the host puts in. -/
inductive SameLoopState (s : State) : State → Prop
  | intro (g : F32) (q : List F32) (st len : Word) (m : Memory) :
      SameLoopState s { s with gain := g, fifo := q, status := st, batchLen := len, inBuf := m }

section
variable {s u : State} (h : SameLoopState s u)
include h

theorem SameLoopState.withBatch (len : Word) (m : Memory) :
    SameLoopState s { u with batchLen := len, inBuf := m } := by
  cases h
  exact .intro ..

theorem SameLoopState.runSamples (xs : List Sample) : SameLoopState (s.runSamples xs) (u.runSamples xs) := by
  induction xs generalizing s u with
  | nil => exact h
  | cons x xs ih =>
    refine ih (s := s.sampleNext x) (u := u.sampleNext x) ?_
    cases h
    exact .intro ..

theorem SameLoopState.deliver (a : List F32) : SameLoopState s (u.deliver a) := by
  rw [State.deliver_frame]
  cases h
  exact .intro ..

/-- PROCESS moves the carried state as the sample loop does. -/
theorem SameLoopState.processSamples (num : Numerics) (xs : List Sample) :
    SameLoopState (s.runSamples xs) (processSamples num xs u) :=
  (h.runSamples xs).deliver _

end

theorem SameLoopState.refl (s : State) : SameLoopState s s := .intro s.gain s.fifo s.status s.batchLen s.inBuf

/-- Settles O32: the sample loop over a batch is the loop over its two parts, whatever the first PROCESS delivered and
the host wrote in between. -/
theorem batchBoundariesDoNotShow : Obligations.BatchBoundariesDoNotShow := by
  unfold Obligations.BatchBoundariesDoNotShow
  intro s t t1 t2 L1 L2 xs ys m hsplit hle hxs hall hys ht ht1 ht2
  obtain ⟨hle1, hle2⟩ : L1.toNat ≤ s.params.pMaxBatch ∧ L2.toNat ≤ s.params.pMaxBatch := by omega
  have hle2' : L2.toNat ≤ t1.params.pMaxBatch := by
    rw [exec_params ht1]
    exact hle2
  have hwhole : SameLoopState (s.runSamples (xs ++ ys)) t := by
    rw [eq_processSamples_of_exec hle hall ht]
    exact (SameLoopState.refl s).processSamples ..
  have hfirst : SameLoopState (s.runSamples xs) t1 := by
    rw [eq_processSamples_of_exec (s := { s with batchLen := L1 }) hle1 hxs ht1]
    exact ((SameLoopState.refl s).withBatch L1 s.inBuf).processSamples ..
  have hsecond : SameLoopState (s.runSamples (xs ++ ys)) t2 := by
    rw [eq_processSamples_of_exec (s := { t1 with batchLen := L2, inBuf := m }) hle2' hys ht2,
      State.runSamples_append]
    exact (hfirst.withBatch L2 m).processSamples ..
  cases hwhole
  cases hsecond
  exact ⟨rfl, rfl, rfl, rfl⟩

end Sys2Proof.Machine
end

section
/-! PROOFS. The demodulator (spec/41_demod.md): the formula and the range of each mode (R122-R127), the FM reference
after a batch (R125), and SET_MODE (R129). -/

namespace Sys2Proof

/-- R11: clamp1 lands in [−1, 1], unless it passes a NaN. -/
theorem clamp1_bounds (x : F32) :
    isNaN (clamp1 x) = true ∨ (lef Config.MINUS_ONE (clamp1 x) = true ∧ lef (clamp1 x) Config.ONE = true) := by
  unfold clamp1
  cases hx : isNaN x
  · exact .inr (clampf_bounds hx (by decide))
  · rw [clampf_nan hx]
    exact .inl hx

end Sys2Proof

namespace Sys2Proof.Machine

/-! ## MODE_OUT, mode by mode (R122) -/

section
variable {s : State}

theorem State.modeOut_am (h : s.cfgMode = .am) (num : Numerics) (y : Sample) : s.modeOut num y = amOut y := by
  rw [State.modeOut, h]

theorem State.modeOut_usb (h : s.cfgMode = .usb) (num : Numerics) (y : Sample) : s.modeOut num y = usbOut y := by
  rw [State.modeOut, h]

theorem State.modeOut_lsb (h : s.cfgMode = .lsb) (num : Numerics) (y : Sample) : s.modeOut num y = lsbOut y := by
  rw [State.modeOut, h]

theorem State.modeOut_fm_idle (h : s.cfgMode = .fm) (hv : s.fmValid = false) (num : Numerics) (y : Sample) :
    s.modeOut num y = 0 := by
  rw [State.modeOut, h]
  exact if_neg (Bool.eq_false_iff.1 hv)

theorem State.modeOut_fm (h : s.cfgMode = .fm) (hv : s.fmValid = true) (num : Numerics) (y : Sample) :
    s.modeOut num y = fmDiscriminate num s.fmPrev y := by
  rw [State.modeOut, h]
  exact if_pos hv

end

/-- Every mode clamps last; the +0.0 of FM without a reference is its own clamp. -/
theorem State.exists_modeOut_eq_clamp1 (num : Numerics) (s : State) (y : Sample) :
    ∃ x, s.modeOut num y = clamp1 x := by
  cases h : s.cfgMode with
  | am => exact ⟨_, State.modeOut_am h num y⟩
  | usb => exact ⟨_, State.modeOut_usb h num y⟩
  | lsb => exact ⟨_, State.modeOut_lsb h num y⟩
  | fm =>
    cases hv : s.fmValid
    · have hzero : clamp1 0 = 0 := by decide
      exact ⟨0, (State.modeOut_fm_idle h hv num y).trans hzero.symm⟩
    · exact ⟨_, State.modeOut_fm h hv num y⟩

/-- Settles O34: every mode's output is a value of clamp1. -/
theorem modeOutputIsClamped : Obligations.ModeOutputIsClamped := by
  unfold Obligations.ModeOutputIsClamped
  intro num s y
  obtain ⟨x, hx⟩ := State.exists_modeOut_eq_clamp1 num s y
  rw [hx]
  exact clamp1_bounds x

/-! ## The values R123, R126 and R127 work out -/

/-- R123: silence, an envelope of one half, of one quarter, and of one. -/
theorem amOut_worked_values :
    amOut ⟨0, 0⟩ = Config.MINUS_ONE ∧ amOut ⟨Config.HALF, 0⟩ = 0 ∧ amOut ⟨0x3E800000, 0⟩ = 0xBF000000 ∧
    amOut ⟨0x3F19999A, 0x3F4CCCCD⟩ = Config.ONE := by
  decide +kernel

/-- R126: 0.3 is doubled, and −0.0 keeps its sign. -/
theorem usbOut_worked_values :
    usbOut ⟨0x3E99999A, 0⟩ = 0x3F19999A ∧ usbOut ⟨0x80000000, 0⟩ = 0x80000000 := by
  decide +kernel

/-- R127: −0.6 doubles past the lower bound. -/
theorem lsbOut_worked_value : lsbOut ⟨0, 0xBF19999A⟩ = Config.MINUS_ONE := by decide +kernel

/-- Settles O35: the worked values, and the equation of `modeOut` in each mode. -/
theorem demodulatorCornerCases : Obligations.DemodulatorCornerCases := by
  unfold Obligations.DemodulatorCornerCases
  obtain ⟨hsilence, hhalf, hquarter, hone⟩ := amOut_worked_values
  obtain ⟨hdouble, hnegZero⟩ := usbOut_worked_values
  refine ⟨hsilence, hhalf, hquarter, hone, hdouble, hnegZero, lsbOut_worked_value,
    fun num s y h hv => State.modeOut_fm_idle h hv num y, fun num s y => ⟨?_, ?_, ?_, ?_⟩⟩
  · exact fun h hv => State.modeOut_fm h hv num y
  · exact fun h => State.modeOut_am h num y
  · exact fun h => State.modeOut_usb h num y
  · exact fun h => State.modeOut_lsb h num y

/-! ## The FM reference after a batch (R125) -/

/-- The filter's output and the FM reference are items of the sample loop. -/
theorem SameLoopState.fm_firOut_eq {s u : State} (h : SameLoopState s u) :
    u.fmValid = s.fmValid ∧ u.fmPrev = s.fmPrev ∧ u.firOut = s.firOut := by
  cases h
  exact ⟨rfl, rfl, rfl⟩

/-- Settles O33: the delivery of PROCESS leaves the reference and the delay line as the sample loop does. -/
theorem fmReferenceIsTheLastFilteredSample : Obligations.FmReferenceIsTheLastFilteredSample := by
  unfold Obligations.FmReferenceIsTheLastFilteredSample
  intro s t hle hpos hexec
  rcases process_next hexec with ⟨hlt, -⟩ | ⟨-, xs, hxs, rfl⟩
  · exact absurd hlt hle.not_gt
  · obtain ⟨hvalid, hprev, hout⟩ := ((SameLoopState.refl s).processSamples Config.num xs).fm_firOut_eq
    rw [hvalid, hprev, hout]
    have hne : xs ≠ [] := List.ne_nil_of_length_pos ((Memory.samples_spec hxs).1 ▸ hpos)
    exact ⟨fun h => State.runSamples_fm h hne, fun h => State.runSamples_fm_idle h xs⟩

/-! ## SET_MODE (R129) -/

theorem State.setMode_of_ne {s : State} {m : Mode} (h : m ≠ s.cfgMode) :
    s.setMode m = { s with cfgMode := m, cnt := 0, fmValid := false, fmPrev := ⟨0, 0⟩ } := if_neg h

theorem State.setMode_of_eq {s : State} {m : Mode} (h : m = s.cfgMode) : s.setMode m = s := if_pos h

/-- Settles O21: the two branches of SET_MODE. -/
theorem setModeResetsTheDemodulator : Obligations.SetModeResetsTheDemodulator := by
  unfold Obligations.SetModeResetsTheDemodulator
  have hexec (m : Mode) (s : State) : exec (.setMode m) s = .next (s.setMode m) := rfl
  intro m s
  rw [hexec]
  exact ⟨fun h => congrArg _ (State.setMode_of_ne h), fun h => congrArg _ (State.setMode_of_eq h)⟩

end Sys2Proof.Machine
end

section
/-! PROOFS. AGC and squelch (spec/42_agc_squelch.md): the SET commands that check CMD_ARG and store it (R148-R151,
R198), the gain update and its clamp (R141, R142), and the muting of a batch (R145, R152). -/

namespace Sys2Proof

/-- The difference of a value that is no NaN and a finite one: an infinite minuend outweighs the other operand. -/
theorem subf_sign_of_not_nan {a b : F32} (ha : isNaN a = false) (hb : isFinite b = true) :
    isNaN (subf a b) = false ∧ (keyf b ≤ keyf a → 0 ≤ keyf (subf a b)) ∧ (keyf a ≤ keyf b → keyf (subf a b) ≤ 0) := by
  cases hinf : isInf a
  · exact subf_sign (isFinite_iff.2 ⟨ha, hinf⟩) hb
  · obtain ⟨hnan, hfin⟩ := isFinite_iff.1 hb
    have hsub : subf a b = a := by
      rw [subf, addCore, hinf, isInf_negf, hfin]
      exact nan2_of_not_nan ha hnan ha
    have hmag : magf a = 0x7F800000 := of_decide_eq_true hinf
    have hlt : magf b < 0x7F800000 := of_decide_eq_true hb
    rw [hsub]
    rcases keyf_cases a with hk | hk <;> rcases keyf_cases b with hk' | hk' <;> exact ⟨ha, by omega, by omega⟩

theorem isFinite_of_legalTarget {v : F32} (h : legalTarget v = true) : isFinite v = true := by
  rw [legalTarget, Bool.and_eq_true, Bool.not_eq_true'] at h
  exact isFinite_iff.2 ⟨(lef_iff.1 h.1).2.1, h.2⟩

theorem isFinite_of_lef_lef {lo x hi : F32} (hlo : isFinite lo = true) (hhi : isFinite hi = true)
    (h1 : lef lo x = true) (h2 : lef x hi = true) : isFinite x = true := by
  have hlo' : magf lo < 0x7F800000 := of_decide_eq_true hlo
  have hhi' : magf hi < 0x7F800000 := of_decide_eq_true hhi
  obtain ⟨-, -, hk1⟩ := lef_iff.1 h1
  obtain ⟨-, -, hk2⟩ := lef_iff.1 h2
  have hcl := keyf_cases lo
  have hch := keyf_cases hi
  exact isFinite_of_keyf (by omega) (by omega)

theorem legalFraction_spec {v : F32} (h : legalFraction v = true) : isFinite v = true ∧ 0 ≤ keyf v := by
  obtain ⟨h0, h1⟩ : lef 0 v = true ∧ lef v Config.ONE = true := by rwa [legalFraction, Bool.and_eq_true] at h
  exact ⟨isFinite_of_lef_lef (by decide) (by decide) h0 h1, (lef_zero_left_iff.1 h0).2⟩

end Sys2Proof

namespace Sys2Proof.Machine

/-! ## The SET commands that check CMD_ARG and store it -/

/-- A command that stores CMD_ARG if `legal` holds of it and records `c` if not, for a check with the meaning `P`. -/
theorem checkedSet_next {legal : Bool} {P : Prop} (hlegal : legal = true ↔ P) (s stored : State) (c : ErrCode) :
    let answer : Host.Outcome State Fault Refusal := .next (if !legal then s.record c s.cmdArg else stored)
    (P → answer = .next stored) ∧ (¬P → answer = .next (s.recorded c.classBit c.num s.cmdArg)) := by
  refine ⟨fun hP => ?_, fun hP => ?_⟩
  · rw [hlegal.2 hP]
    rfl
  · rw [Bool.eq_false_iff.2 (mt hlegal.1 hP), ← State.record_eq_recorded]
    rfl

/-- Settles O23: the check is finiteness, the exponent field not all ones. -/
theorem setSquelchAcceptsFiniteLevels : Obligations.SetSquelchAcceptsFiniteLevels := by
  unfold Obligations.SetSquelchAcceptsFiniteLevels
  intro s
  obtain ⟨haccept, hreject⟩ := checkedSet_next (legalSquelch_iff (v := s.cmdArg)) s
    { s with cfgSqDb := s.cmdArg, cfgSqThr := sqThreshold Config.num s.cmdArg } .badSquelch
  exact ⟨haccept, fun h => hreject (not_not_intro h)⟩

/-- Settles O24: the check is `legalTarget`. -/
theorem setAgcTargetAcceptsNonNegativeFinite : Obligations.SetAgcTargetAcceptsNonNegativeFinite := by
  unfold Obligations.SetAgcTargetAcceptsNonNegativeFinite
  exact fun s => checkedSet_next legalTarget_iff s { s with cfgAgcTarget := s.cmdArg } .badAgcTarget

/-- Settles O25: the three commands make one check, `legalFraction`. -/
theorem fractionSettersAcceptZeroToOne : Obligations.FractionSettersAcceptZeroToOne := by
  unfold Obligations.FractionSettersAcceptZeroToOne
  intro s
  have hset := checkedSet_next (legalFraction_iff (v := s.cmdArg)) s
  obtain ⟨hattack, hattack'⟩ := hset { s with cfgAgcAttack := s.cmdArg } .badAgcAttack
  obtain ⟨hdecay, hdecay'⟩ := hset { s with cfgAgcDecay := s.cmdArg } .badAgcDecay
  obtain ⟨havg, havg'⟩ := hset { s with cfgAvgAlpha := s.cmdArg } .badAlpha
  exact ⟨fun h => ⟨hattack h, hdecay h, havg h⟩, fun h => ⟨hattack' h, hdecay' h, havg' h⟩⟩

/-! ## The clamp of the gain (R142) -/

section
variable {g gn : F32}

theorem agcClamp_of_isNaN (h : isNaN gn = true) : agcClamp g gn = g := if_pos h

theorem agcClamp_of_not_nan (h : isNaN gn = false) : agcClamp g gn = clampf gn Config.GMIN Config.GMAX :=
  if_neg (Bool.eq_false_iff.1 h)

theorem agcClamp_below (h : ltf gn Config.GMIN = true) : agcClamp g gn = Config.GMIN := by
  rw [agcClamp_of_not_nan (ltf_iff.1 h).1, clampf, if_pos h]

theorem agcClamp_above (h : ltf Config.GMAX gn = true) : agcClamp g gn = Config.GMAX := by
  obtain ⟨-, hnan, hk⟩ := ltf_iff.1 h
  have hge : ltf gn Config.GMIN = false := by
    rw [ltf_eq_false hnan (by decide)]
    exact le_trans (by decide) hk.le
  rw [agcClamp_of_not_nan hnan, clampf, hge, if_neg (by decide), if_pos h]

theorem agcClamp_within (hmin : lef Config.GMIN gn = true) (hmax : lef gn Config.GMAX = true) : agcClamp g gn = gn := by
  obtain ⟨hnmin, hnan, hk⟩ := lef_iff.1 hmin
  obtain ⟨-, hnmax, hk'⟩ := lef_iff.1 hmax
  rw [agcClamp_of_not_nan hnan, clampf, (ltf_eq_false hnan hnmin).2 hk, (ltf_eq_false hnmax hnan).2 hk']
  rfl

/-- The clamp keeps a gain that was not lowered from ending below the present one, which is in range. -/
theorem le_agcClamp (hg : lef g Config.GMAX = true) (h : isNaN gn = true ∨ lef g gn = true) :
    lef g (agcClamp g gn) = true := by
  rcases h with hnan | hle
  · rw [agcClamp_of_isNaN hnan]
    exact lef_refl (lef_iff.1 hg).1
  · rw [agcClamp_of_not_nan (lef_iff.1 hle).2.1]
    exact le_clampf hg hle

theorem agcClamp_le (hg : lef Config.GMIN g = true) (h : isNaN gn = true ∨ lef gn g = true) :
    lef (agcClamp g gn) g = true := by
  rcases h with hnan | hle
  · rw [agcClamp_of_isNaN hnan]
    exact lef_refl (lef_iff.1 hg).2.1
  · rw [agcClamp_of_not_nan (lef_iff.1 hle).1]
    exact clampf_le hg hle

end

/-! ## The gain update (R141) -/

/-- The gain before the clamp: from `g` by `fraction` of the way to `tg` (R141). -/
def agcStep (fraction g tg : F32) : F32 := addf g (mulf fraction (subf tg g))

theorem agcGain_of_noSignal {r : F32} (h : ltf 0 r = false) (target attack decay g : F32) :
    agcGain target attack decay g r = g := if_neg (Bool.eq_false_iff.1 h)

theorem agcGain_of_signal {r : F32} (h : ltf 0 r = true) (target attack decay g : F32) :
    agcGain target attack decay g r =
      agcClamp g (agcStep (if ltf g (divf target r) then attack else decay) g (divf target r)) := if_pos h

/-- A step by a legal fraction is a NaN (0 · ∞), or it moves toward `tg`: rounding never takes it past `g`. -/
theorem agcStep_moves {fraction g tg : F32} (hf : legalFraction fraction = true) (hg : isFinite g = true)
    (htg : isNaN tg = false) :
    isNaN (agcStep fraction g tg) = true ∨ ((keyf g ≤ keyf tg → lef g (agcStep fraction g tg) = true) ∧
      (keyf tg ≤ keyf g → lef (agcStep fraction g tg) g = true)) := by
  obtain ⟨hfin, hpos⟩ := legalFraction_spec hf
  obtain ⟨hdiff, hup, hdown⟩ := subf_sign_of_not_nan htg hg
  have hgn := (isFinite_iff.1 hg).1
  cases hm : isNaN (mulf fraction (subf tg g))
  · obtain ⟨hstep, hadd, hadd'⟩ := addf_moves hg hm
    rcases mulf_sign hfin hpos hdiff with hnan | ⟨hmul, hmul'⟩
    · simp [hm] at hnan
    · exact .inr ⟨fun h => lef_iff.2 ⟨hgn, hstep, hadd (hmul (hup h))⟩,
        fun h => lef_iff.2 ⟨hstep, hgn, hadd' (hmul' (hdown h))⟩⟩
  · exact .inl (isNaN_nan2_right hm)

/-- Settles O36: the clamp's outcomes are `agcClamp`'s, and the direction is that of the step before it. -/
theorem agcMovesTowardTheTarget : Obligations.AgcMovesTowardTheTarget := by
  unfold Obligations.AgcMovesTowardTheTarget
  intro target attack decay g r htarget hattack hdecay hmin hmax g' tg gn
  obtain ⟨hmin', hmax'⟩ : lef Config.GMIN g' = true ∧ lef g' Config.GMAX = true := agcGain_bounds hmin hmax
  refine ⟨hmin', hmax', fun hr => agcGain_of_noSignal hr target attack decay g, fun hr => ?_⟩
  have hg : isFinite g = true := isFinite_of_lef_lef (by decide) (by decide) hmin hmax
  have htg : isNaN tg = false := isNaN_divf (isFinite_of_legalTarget htarget) hr
  have hfraction : legalFraction (if ltf g tg then attack else decay) = true := by
    split
    · exact hattack
    · exact hdecay
  have hstep : gn = agcStep (if ltf g tg then attack else decay) g tg :=
    (apply_ite (fun fraction => agcStep fraction g tg) _ attack decay).symm
  have hclamp : g' = agcClamp g gn := hstep ▸ agcGain_of_signal hr target attack decay g
  have hmoves := agcStep_moves hfraction hg htg
  rw [← hstep] at hmoves
  rw [hclamp]
  refine ⟨agcClamp_of_isNaN, agcClamp_below, agcClamp_above, agcClamp_within, fun hlt => ?_, fun hge => ?_⟩
  · exact le_agcClamp hmax (hmoves.imp_right fun h => h.1 (ltf_iff.1 hlt).2.2.le)
  · have hk : keyf tg ≤ keyf g := (ltf_eq_false (isFinite_iff.1 hg).1 htg).1 hge
    exact agcClamp_le hmin (hmoves.imp_right fun h => h.2 hk)

/-! ## The squelch (R145, R152) -/

theorem squelch_of_below {thr : F32} {a : List F32} (h : ltf (batchRms a) thr = true) :
    squelch thr a = List.replicate a.length 0 := by
  rw [squelch, if_pos h, List.map_const']

theorem squelch_of_not_below {thr : F32} {a : List F32} (h : ltf (batchRms a) thr = false) : squelch thr a = a :=
  if_neg (Bool.eq_false_iff.1 h)

/-- A batch of +0.0 is its own muted form, on either side of the threshold. -/
theorem squelch_replicate_zero (thr : F32) (n : Nat) : squelch thr (List.replicate n 0) = List.replicate n 0 := by
  cases h : ltf (batchRms (List.replicate n 0)) thr
  · exact squelch_of_not_below h
  · rw [squelch_of_below h, List.length_replicate]

/-- Settles O37: a second SQUELCH meets either the batch the first one left alone, or +0.0 throughout. -/
theorem squelchMutesAndIsIdempotent : Obligations.SquelchMutesAndIsIdempotent := by
  unfold Obligations.SquelchMutesAndIsIdempotent
  refine fun thr a => ⟨rfl, squelch_of_below, squelch_of_not_below, ?_⟩
  cases h : ltf (batchRms a) thr
  · rw [squelch_of_not_below h, squelch_of_not_below h]
  · rw [squelch_of_below h, squelch_replicate_zero]

end Sys2Proof.Machine
end

section
/-! PROOFS. PROCESS and the audio port (spec/43_process.md): the FIFO (R163, R169), what PROCESS delivers (R160-R164),
POP (R165) and draining (R167, R274). -/

namespace Sys2Proof.Machine

/-! ## The newest samples (R163) -/

/-- Cutting a list to its newest `n` entries before more arrive makes no difference to the newest `n` afterwards. -/
theorem newest_append {α : Type} (n : Nat) (l a : List α) :
    (l.drop (l.length - n) ++ a).drop ((l.drop (l.length - n) ++ a).length - n) =
      (l ++ a).drop ((l ++ a).length - n) := by
  rw [← List.drop_append_of_le_length (Nat.sub_le _ _), List.drop_drop, List.length_drop, List.length_append]
  congr 1
  omega

/-- A FIFO that holds the newest samples of `sent` holds the newest of all that was sent after more appends. -/
theorem State.foldl_fifoAppend_fifo {s : State} {sent : List F32} (batches : List (List F32))
    (h : s.fifo = sent.drop (sent.length - s.params.pAudioLimit)) :
    (batches.foldl State.fifoAppend s).fifo =
      (sent ++ batches.flatten).drop ((sent ++ batches.flatten).length - s.params.pAudioLimit) := by
  induction batches generalizing s sent with
  | nil => rw [List.flatten_nil, List.append_nil]; exact h
  | cons a batches ih =>
    have ha : (s.fifoAppend a).fifo = (sent ++ a).drop ((sent ++ a).length - s.params.pAudioLimit) := by
      rw [State.fifoAppend_fifo, h]
      exact newest_append ..
    rw [List.foldl_cons, List.flatten_cons, ← List.append_assoc]
    exact ih ha

/-- Settles O38: the FIFO holds the newest samples of those sent so far, which are none at first. -/
theorem fifoKeepsTheNewestSamples : Obligations.FifoKeepsTheNewestSamples := by
  unfold Obligations.FifoKeepsTheNewestSamples
  intro s batches hempty
  exact State.foldl_fifoAppend_fifo (sent := []) batches (hempty.trans List.drop_nil.symm)

/-! ## What PROCESS delivers (R160-R164) -/

section
variable {num : Numerics} {xs : List Sample} {s : State}

theorem processSamples_of_no_audio (h : s.audioBatch num xs = []) :
    processSamples num xs s = s.runSamples xs := by
  rw [processSamples, h, State.deliver_nil]

/-- With audio, PROCESS scales the batch by the gain its RMS moved, squelches it and appends it. -/
theorem processSamples_of_audio (h : s.audioBatch num xs ≠ []) :
    processSamples num xs s = ((s.runSamples xs).agcUpdate (s.audioBatch num xs)).fifoAppend
      (squelch s.cfgSqThr (agcScale (s.agcUpdate (s.audioBatch num xs)).gain (s.audioBatch num xs))) := by
  rw [processSamples, State.deliver_of_ne_nil _ h, State.runSamples_frame]
  rfl

end

theorem processSamples_cnt (num : Numerics) (xs : List Sample) (s : State) :
    (processSamples num xs s).cnt = (s.runSamples xs).cnt := by
  rw [processSamples_frame]

/-- PROCESS on a loaded batch runs its samples (R160). -/
theorem exec_process_of_samples {s : State} {xs : List Sample} (hle : s.batch ≤ s.params.pMaxBatch)
    (hxs : s.inBuf.samples 0 s.batch = some xs) : exec .process s = .next (processSamples Config.num xs s) := by
  simp only [exec, execProcess, process, if_neg hle.not_gt, hxs]

/-- One turn of the sample loop, its two steps written out (R102, R121, R125). -/
theorem State.sampleNext_eq (s : State) (x : Sample) :
    let u := { s with delay := x :: s.delay.dropLast }
    s.sampleNext x = { u with
      cnt := if s.cnt.toNat + 1 = s.params.pDecim then 0 else s.cnt + 1
      fmValid := if s.cfgMode = .fm then true else s.fmValid
      fmPrev := if s.cfgMode = .fm then u.firOut else s.fmPrev } := by
  intro u
  rw [← State.sampleNext_cnt s x]
  by_cases hfm : s.cfgMode = .fm <;> simp [State.sampleNext, State.demodNext, State.firShift, shiftIn, u, hfm]

/-- The audio of one turn: the mode's output at a tick, from the state the filter left (R121). -/
theorem State.sampleOut_toList (num : Numerics) (s : State) (x : Sample) :
    let u := { s with delay := x :: s.delay.dropLast }
    (s.sampleOut num x).toList = if s.cnt.toNat + 1 = s.params.pDecim then [u.modeOut num u.firOut] else [] := by
  by_cases h : s.cnt.toNat + 1 = s.params.pDecim <;>
    simp [State.sampleOut, State.demodOut, State.firShift, shiftIn, State.atTick, h]

/-- Settles O39: a loaded batch has its samples, whose loop gives the audio and the counter; the delivery of that audio
gives the rest, and one turn of the loop is the filter's and the demodulator's step. -/
theorem processCompletes : Obligations.ProcessCompletes := by
  unfold Obligations.ProcessCompletes
  refine ⟨fun s hle hloaded hcnt hD => ?_, fun s x xs => ?_⟩
  · obtain ⟨xs, hxs⟩ := Option.isSome_iff_exists.1 ((Memory.samples_isSome _ _).2 hloaded)
    have hlen : xs.length = s.batch := (Memory.samples_spec hxs).1
    refine ⟨processSamples Config.num xs s, s.audioBatch Config.num xs, exec_process_of_samples hle hxs, ?_, ?_,
      fun ha => ?_, fun ha => ?_, fun ys hys => ?_, by rw [processSamples_frame]⟩
    · rw [State.audioBatch_length _ xs hcnt hD, hlen]
    · rw [processSamples_cnt, State.runSamples_cnt xs hcnt hD, hlen]
    · rw [processSamples_of_audio ha, State.runSamples_frame]
      exact ⟨rfl, rfl, rfl⟩
    · rw [processSamples_of_no_audio ha, State.runSamples_frame]
      exact ⟨rfl, rfl, rfl⟩
    · rw [Option.some.inj (hxs.symm.trans hys)]
  · simp only [decide_eq_true_eq]
    refine ⟨rfl, ?_⟩
    rw [State.audioBatch, State.sampleOut_toList, State.sampleNext_eq]

/-- Settles O40: below P_DECIM the sample loop makes no audio, so nothing is delivered. -/
theorem processWithoutTickProducesNothing : Obligations.ProcessWithoutTickProducesNothing := by
  unfold Obligations.ProcessWithoutTickProducesNothing
  intro s t hle hlt hD hexec
  rcases process_next hexec with ⟨hlong, -⟩ | ⟨-, xs, hxs, rfl⟩
  · exact absurd hlong hle.not_gt
  have hlen : xs.length = s.batch := (Memory.samples_spec hxs).1
  have hcnt : s.cnt.toNat < s.params.pDecim := by omega
  have hno : s.audioBatch Config.num xs = [] := by
    rw [← List.length_eq_zero_iff, State.audioBatch_length _ xs hcnt hD, hlen, Nat.div_eq_of_lt hlt]
  have hrun := State.runSamples_cnt xs hcnt hD
  rw [hlen, Nat.mod_eq_of_lt hlt] at hrun
  rw [processSamples_of_no_audio hno]
  refine ⟨?_, ?_, ?_, hrun⟩ <;> rw [State.runSamples_frame]

/-! ## POP (R165) -/

/-- A read of AUDIO_DATA is a pop. -/
theorem memReadNext_audioData (s : State) : memReadNext 0x104 .b4 s = s.popped := by
  have hc : accessCheck s.params 0x104 .b4 = .ok (.reg .audioData) :=
    accessCheck_of_locate rfl (locate_of_lookup s.params rfl)
  simp only [memReadNext, hc, if_true]

theorem State.popped_of_empty {s : State} (h : s.fifo = []) :
    s.popped = { s with status := s.status ||| AUDIO_UDF } := by
  simp [State.popped, h]

theorem State.popped_of_cons {s : State} {x : F32} {rest : List F32} (h : s.fifo = x :: rest) :
    s.popped = { s with fifo := rest } := by
  simp [State.popped, h]

/-- Settles O43: AUDIO_DATA reads as POP's word and leaves POP's state, on an empty FIFO and on another. -/
theorem popReturnsTheOldestSample : Obligations.PopReturnsTheOldestSample := by
  unfold Obligations.PopReturnsTheOldestSample
  intro s
  rw [memReadNext_audioData, memReadWord_reg s .audioData rfl, State.regWord, State.popWord]
  refine ⟨fun hempty => ?_, fun x rest hcons => ?_⟩
  · exact ⟨by rw [hempty]; rfl, State.popped_of_empty hempty⟩
  · exact ⟨by rw [hcons]; rfl, State.popped_of_cons hcons⟩

/-! ## Draining (R167) -/

/-- One step that serves a READER's pop of a FIFO that holds a sample. -/
theorem step_pop {s : State} {x : F32} {fifo : List F32} {rest : List Request} (hinst : s.params.isInstance = true)
    (hfifo : s.fifo = x :: fifo) (hp : s.pending = .read .reader (s.params.pBase + 0x104) .b4 :: rest) :
    step s = .next { s with pending := rest, fifo := fifo, responses := (.reader, x) :: s.responses } := by
  obtain ⟨-, hpop⟩ := popReturnsTheOldestSample { s with pending := rest }
  obtain ⟨hword, hnext⟩ := hpop x fifo hfifo
  rw [step_of_pending hinst hp]
  refine (serve_read_base_add { s with pending := rest } .reader 0x104 .b4).trans ?_
  rw [hword, hnext]

/-- Settles O44, by induction on the FIFO: each step pops its oldest sample. -/
theorem drainReturnsTheFifoInOrder : Obligations.DrainReturnsTheFifoInOrder := by
  unfold Obligations.DrainReturnsTheFifoInOrder
  intro s hinst hp
  induction hfifo : s.fifo generalizing s with
  | nil =>
    rw [hfifo] at hp
    obtain ⟨⟩ := s
    cases hfifo; cases hp; rfl
  | cons x fifo ih =>
    rw [hfifo, List.length_cons, List.replicate_succ] at hp
    let u : State := { s with
      pending := List.replicate fifo.length (.read .reader (s.params.pBase + 0x104) .b4), fifo := fifo
      responses := (.reader, x) :: s.responses }
    calc Sys2Proof.core.run (fifo.length + 1) s
        = Sys2Proof.core.run fifo.length u := run_succ_of_step (step_pop hinst hfifo hp)
      _ = .next { u with
            pending := [], fifo := []
            responses := (fifo.map fun x => (Agent.reader, x)).reverse ++ u.responses } := ih u hinst rfl rfl
      _ = _ := by simp [u]

/-! ## Events between the pops (R167, R274) -/

/-- `t` comes from `s` without an underflow and with at most `pops` samples fewer in the FIFO, if the FIFO kept its
limit. -/
structure Supplied (pops : Nat) (s t : State) : Prop where
  params : t.params = s.params
  pending : t.pending = s.pending
  fifo_le : s.fifo.length ≤ s.params.pAudioLimit → t.fifo.length ≤ s.params.pAudioLimit
  fifo_ge : s.fifo.length ≤ s.params.pAudioLimit → s.fifo.length ≤ t.fifo.length + pops
  noUnderflow : s.status &&& AUDIO_UDF = 0 → t.status &&& AUDIO_UDF = 0

/-- An update that leaves the parameters, the waiting events and the FIFO alone, and sets no AUDIO_UDF. -/
theorem Supplied.of_fifo_eq {s t : State} (hparams : t.params = s.params) (hpending : t.pending = s.pending)
    (hfifo : t.fifo = s.fifo) (hudf : s.status &&& AUDIO_UDF = 0 → t.status &&& AUDIO_UDF = 0) : Supplied 0 s t :=
  ⟨hparams, hpending, fun h => hfifo ▸ h, fun _ => (congrArg List.length hfifo).ge, hudf⟩

theorem Supplied.trans {m n : Nat} {s u t : State} (hsu : Supplied m s u) (hut : Supplied n u t) :
    Supplied (m + n) s t := by
  have hle := hut.fifo_le
  have hge := hut.fifo_ge
  rw [hsu.params] at hle hge
  refine ⟨hut.params.trans hsu.params, hut.pending.trans hsu.pending, fun h => hle (hsu.fifo_le h), fun h => ?_,
    fun h => hut.noUnderflow (hsu.noUnderflow h)⟩
  have hs := hsu.fifo_ge h
  have hu := hge (hsu.fifo_le h)
  omega

/-- The responses have no part in it. -/
theorem Supplied.answered {n : Nat} {s t : State} (h : Supplied n s t) (resp : List (Agent × Word)) :
    Supplied n s { t with responses := resp } :=
  { h with params := h.params }

/-- Setting another bit leaves AUDIO_UDF clear. -/
theorem udf_or_eq_zero {st b : Word} (hst : st &&& AUDIO_UDF = 0) (hb : b &&& AUDIO_UDF = 0) :
    (st ||| b) &&& AUDIO_UDF = 0 := by
  rw [BitVec.and_or_distrib_right, hst, hb]
  rfl

theorem ErrCode.classBit_and_udf (c : ErrCode) : c.classBit &&& AUDIO_UDF = 0 := by cases c <;> decide

theorem Supplied.record (s : State) (c : ErrCode) (info : Word) : Supplied 0 s (s.record c info) :=
  .of_fifo_eq rfl rfl rfl fun h => udf_or_eq_zero h c.classBit_and_udf

theorem Supplied.clear (s : State) (v : Word) : Supplied 0 s (s.clear v) :=
  .of_fifo_eq rfl rfl rfl fun h => by
    rw [State.clear_status, BitVec.and_assoc, BitVec.and_comm _ AUDIO_UDF, ← BitVec.and_assoc, h]
    exact BitVec.zero_and

/-- An append lengthens the FIFO or fills it (R163). -/
theorem Supplied.fifoAppend (s : State) (a : List F32) : Supplied 0 s (s.fifoAppend a) where
  params := rfl
  pending := rfl
  fifo_le _ := by rw [State.fifoAppend_length]; exact Nat.min_le_right ..
  fifo_ge _ := by rw [State.fifoAppend_length]; omega
  noUnderflow h := by
    rw [State.fifoAppend_status]
    split
    · exact udf_or_eq_zero h (by decide)
    · exact h

theorem Supplied.deliver (s : State) (a : List F32) : Supplied 0 s (s.deliver a) := by
  by_cases ha : a = []
  · rw [ha, State.deliver_nil]
    exact .of_fifo_eq rfl rfl rfl id
  · rw [State.deliver_of_ne_nil s ha]
    exact { Supplied.fifoAppend (s.agcUpdate a) _ with }

theorem Supplied.runSamples (s : State) (xs : List Sample) : Supplied 0 s (s.runSamples xs) := by
  rw [State.runSamples_frame]
  exact .of_fifo_eq rfl rfl rfl id

theorem Supplied.processSamples (num : Numerics) (xs : List Sample) (s : State) :
    Supplied 0 s (processSamples num xs s) :=
  (Supplied.runSamples s xs).trans (.deliver ..)

/-- Every command but RESET feeds the FIFO or leaves it alone. -/
theorem exec_supplied {i : Instr} {s t : State} (hi : i ≠ .reset) (h : exec i s = .next t) : Supplied 0 s t := by
  by_cases hprocess : i = .process
  · subst hprocess
    rcases process_next h with ⟨-, rfl⟩ | ⟨-, xs, -, rfl⟩
    · exact .record ..
    · exact .processSamples ..
  · cases exec_writes h with
    | rejected c info => exact .record ..
    | reset => exact absurd rfl hi
    | process => exact absurd rfl hprocess
    | _ => exact .of_fifo_eq rfl rfl rfl id

/-- A pop of a FIFO that holds a sample takes that one away (R165). -/
theorem Supplied.popped {s : State} (h : s.fifo ≠ []) : Supplied 1 s s.popped := by
  obtain ⟨x, rest, hcons⟩ := List.exists_cons_of_ne_nil h
  rw [State.popped_of_cons hcons]
  exact { params := rfl, pending := rfl, noUnderflow := id
          fifo_le := fun hle => by rw [hcons] at hle; exact (Nat.le_succ _).trans hle
          fifo_ge := fun _ => by rw [hcons]; rfl }

/-- A read that is no pop leaves the FIFO alone (R58). -/
theorem memReadNext_supplied {s : State} {off : Offset} {w : Width} (h : ¬(w = .b4 ∧ off = 0x104)) :
    Supplied 0 s (memReadNext off w s) := by
  rcases memReadNext_cases off w s with ⟨c, -, hn⟩ | ⟨hc, -⟩ | hn
  · rw [hn]
    exact .record ..
  · obtain ⟨hw, -, hloc⟩ := accessCheck_ok hc
    exact absurd ⟨hw, eq_audioData_offset hloc⟩ h
  · rw [hn]
    exact .of_fifo_eq rfl rfl rfl id

/-- A write feeds the FIFO or leaves it alone, unless it is the RESET command. -/
theorem memWrite_supplied {s t : State} {off : Offset} {w : Width} {v : Word}
    (hreset : ¬(w = .b4 ∧ off = 0x40 ∧ decode v = .ok .reset)) (h : memWrite off w v s = .next t) :
    Supplied 0 s t := by
  rcases memWrite_next h with ⟨c, -, -, rfl⟩ | ⟨target, hc, ht⟩
  · exact .record ..
  cases target with
  | cmd =>
    rcases execute_next ht with ⟨e, -, rfl⟩ | ⟨i, hdec, hexec⟩
    · exact .record ..
    · obtain ⟨l, hl, -⟩ := writeCheck_ok hc
      obtain ⟨hw, -, -⟩ := accessCheck_ok hl
      refine exec_supplied (fun hi => hreset ⟨hw, offset_of_writeCheck_cmd hc, ?_⟩) hexec
      rw [hdec, hi]
  | status => cases ht; exact .clear ..
  | _ => cases ht; exact .of_fifo_eq rfl rfl rfl id

theorem Request.isPop_read {p : Params} {a : Agent} {addr : Nat} {w : Width} :
    (Request.read a addr w).isPop p = true ↔ w = .b4 ∧ offsetOf p addr = some 0x104 := by
  cases w <;> simp [Request.isPop]

theorem Request.resets_write {p : Params} {a : Agent} {addr : Nat} {w : Width} {v : Word} :
    (Request.write a addr w v).resets p = true ↔ w = .b4 ∧ offsetOf p addr = some 0x40 ∧ decode v = .ok .reset := by
  cases w <;> cases h : decode v <;> simp [Request.resets, Request.command, h, Except.toOption]

/-- An event takes a sample only if it is a pop. -/
theorem serve_supplied {s t : State} {r : Request} (hreset : r.resets s.params = false)
    (hpop : r.isPop s.params = true → s.fifo ≠ []) (h : serve r s = .next t) :
    Supplied (if r.isPop s.params = true then 1 else 0) s t := by
  cases r with
  | read a addr w =>
    obtain ⟨off, hoff, rfl⟩ := serve_read h
    refine .answered ?_ _
    by_cases hp : (Request.read a addr w).isPop s.params = true
    · obtain ⟨rfl, hoff'⟩ := Request.isPop_read.1 hp
      obtain rfl : off = 0x104 := Option.some.inj (hoff.symm.trans hoff')
      rw [if_pos hp, memReadNext_audioData]
      exact .popped (hpop hp)
    · rw [if_neg hp]
      exact memReadNext_supplied fun ⟨hw, ho⟩ => hp (Request.isPop_read.2 ⟨hw, ho ▸ hoff⟩)
  | write a addr w v =>
    obtain ⟨off, hoff, -, hw⟩ := serve_write h
    have hno : ¬(w = .b4 ∧ off = 0x40 ∧ decode v = .ok .reset) := fun ⟨hb4, ho, hdec⟩ =>
      Bool.eq_false_iff.1 hreset (Request.resets_write.2 ⟨hb4, ho ▸ hoff, hdec⟩)
    exact (Supplied.of_fifo_eq (s := s) (t := s.nextDraw) rfl rfl rfl id).trans (memWrite_supplied hno hw)
  | powerOn => cases hreset

/-- Settles O45: each event takes at most the samples it pops, and as many are there as pops are still to come. -/
theorem drainNeverUnderflows : Obligations.DrainNeverUnderflows := by
  unfold Obligations.DrainNeverUnderflows
  intro s t hinst hle hpops hresets hudf hrun
  induction hp : s.pending generalizing s with
  | nil =>
    rw [hp] at hrun
    cases hrun
    exact ⟨hudf, Nat.sub_le _ _⟩
  | cons r rest ih =>
    rw [hp] at hrun hpops hresets
    rw [List.countP_cons] at hpops ⊢
    obtain ⟨hr, hrest⟩ := List.forall_mem_cons.1 hresets
    obtain ⟨u, hstep, hrun⟩ := run_succ_next hrun
    have hserve : serve r { s with pending := rest } = .next u := (step_of_pending hinst hp).symm.trans hstep
    have hfifo : r.isPop s.params = true → s.fifo ≠ [] := fun hpop hempty => by
      rw [hpop, hempty] at hpops
      simp at hpops
    have hsup := serve_supplied (s := { s with pending := rest }) hr hfifo hserve
    have hge : s.fifo.length ≤ u.fifo.length + if r.isPop s.params = true then 1 else 0 := hsup.fifo_ge hle
    have hu : u.params = s.params := hsup.params
    have hrest' : u.pending = rest := hsup.pending
    have key := ih u
    rw [hu, hrest'] at key
    obtain ⟨hudf', hleft⟩ := key hinst (hsup.fifo_le hle) (by omega) hrest (hsup.noUnderflow hudf) hrun rfl
    exact ⟨hudf', by omega⟩

end Sys2Proof.Machine
end

section
/-! PROOFS. The transform of SPECTRUM (spec/44_spectrum.md): the bit reversal (R185), and the block-wise stages as the
rule's loops in place (R186, R187). -/

namespace Sys2Proof.Machine

/-! ## Bit reversal (R185) -/

theorem getElem?_bitReverse {e i : Nat} {x : List Sample} (hx : x.length = 2 ^ e) (hi : i < 2 ^ e) :
    (bitReverse e x)[i]? = x[bitRev e i]? := by
  have hrev : bitRev e i < x.length := hx.symm ▸ bitRev_lt e i
  simp [bitReverse, hi, hrev]

/-- Settles O46: the two laws of `bitRev`, and the permuted list entry by entry. -/
theorem bitReversalReversesTheLowBits : Obligations.BitReversalReversesTheLowBits := by
  unfold Obligations.BitReversalReversesTheLowBits
  exact ⟨fun _ i _ hk => testBit_bitRev i hk, bitRev_lt, fun _ _ _ hx hi => getElem?_bitReverse hx hi, by decide⟩

/-! ## One block in place (R186, R187) -/

/-- The butterfly `j` of the block at `b`, for blocks of `2·h` samples: what it leaves at `b + j` and at `b + j + h`. -/
def butterfly (tw : List Sample) (stride h b : Nat) (x : List Sample) (j : Nat) : Sample × Sample :=
  bfly (x.getD (b + j) ⟨0, 0⟩) (x.getD (b + j + h) ⟨0, 0⟩) (tw.getD (j * stride) ⟨0, 0⟩)

section
variable (tw : List Sample) (F h : Nat)

theorem bflyInPlace_eq_set (b : Nat) (x : List Sample) (j : Nat) :
    bflyInPlace tw F (2 * h) b x j =
      (x.set (b + j) (butterfly tw (F / (2 * h)) h b x j).1).set (b + j + h)
        (butterfly tw (F / (2 * h)) h b x j).2 := by
  rw [bflyInPlace, Nat.mul_div_cancel_left h two_pos]
  rfl

theorem length_foldl_bflyInPlace (b : Nat) (js : List Nat) (x : List Sample) :
    (js.foldl (bflyInPlace tw F (2 * h) b) x).length = x.length := by
  induction js generalizing x with
  | nil => rfl
  | cons j js ih => rw [List.foldl_cons, ih, bflyInPlace_eq_set, List.length_set, List.length_set]

/-- After the first `n` butterflies of a block each has written its two entries, from the samples the block held at
first. -/
theorem getElem?_foldl_bflyInPlace {b n : Nat} {x : List Sample} (hn : n ≤ h) (hfit : b + 2 * h ≤ x.length) (p : Nat) :
    ((List.range n).foldl (bflyInPlace tw F (2 * h) b) x)[p]? =
      if b ≤ p ∧ p < b + n then some (butterfly tw (F / (2 * h)) h b x (p - b)).1
      else if b + h ≤ p ∧ p < b + h + n then some (butterfly tw (F / (2 * h)) h b x (p - (b + h))).2
      else x[p]? := by
  induction n generalizing p with
  | zero => rw [if_neg (by omega), if_neg (by omega)]; rfl
  | succ n ih =>
    have ih := ih (by omega)
    have hlen := length_foldl_bflyInPlace tw F h b (List.range n) x
    rw [List.range_succ, List.foldl_append, List.foldl_cons, List.foldl_nil, bflyInPlace_eq_set]
    generalize (List.range n).foldl (bflyInPlace tw F (2 * h) b) x = y at ih hlen ⊢
    have hsame : butterfly tw (F / (2 * h)) h b y n = butterfly tw (F / (2 * h)) h b x n := by
      simp only [butterfly, List.getD_eq_getElem?_getD]
      rw [ih, ih, if_neg (by omega), if_neg (by omega), if_neg (by omega), if_neg (by omega)]
    rw [hsame, List.getElem?_set, List.getElem?_set, List.length_set, hlen, ih]
    by_cases hhigh : b + n + h = p
    · subst hhigh
      rw [if_pos rfl, if_pos (by omega), if_neg (by omega), if_pos (by omega)]
      congr 3
      omega
    · rw [if_neg hhigh]
      by_cases hlow : b + n = p
      · subst hlow
        rw [if_pos rfl, if_pos (by omega), if_pos (by omega), Nat.add_sub_cancel_left]
      · have hlows : b ≤ p ∧ p < b + n ↔ b ≤ p ∧ p < b + (n + 1) := by omega
        have hhighs : b + h ≤ p ∧ p < b + h + n ↔ b + h ≤ p ∧ p < b + h + (n + 1) := by omega
        rw [if_neg hlow, if_congr hlows rfl (if_congr hhighs rfl rfl)]

theorem getElem?_bflyBlock_low (stride : Nat) (blk : List Sample) {j : Nat} (hj : j < h) :
    (bflyBlock tw stride h blk)[j]? = some (butterfly tw stride h 0 blk j).1 := by
  rw [bflyBlock, List.getElem?_append_left (by simpa using hj)]
  simp [butterfly, hj]

theorem getElem?_bflyBlock_high (stride : Nat) (blk : List Sample) {j : Nat} (hj : j < h) :
    (bflyBlock tw stride h blk)[h + j]? = some (butterfly tw stride h 0 blk j).2 := by
  rw [bflyBlock, List.getElem?_append_right (by simp)]
  simp [butterfly, hj]

/-- A butterfly reads its own block only. -/
theorem butterfly_append (stride : Nat) {blk : List Sample} (hblk : blk.length = 2 * h) (pre post : List Sample)
    {j : Nat} (hj : j < h) :
    butterfly tw stride h pre.length (pre ++ (blk ++ post)) j = butterfly tw stride h 0 blk j := by
  have hget : ∀ i, i < 2 * h → (pre ++ (blk ++ post)).getD (pre.length + i) ⟨0, 0⟩ = blk.getD i ⟨0, 0⟩ := fun i hi => by
    rw [List.getD_append_right _ _ _ _ (Nat.le_add_right ..), Nat.add_sub_cancel_left,
      List.getD_append _ _ _ _ (hblk.symm ▸ hi)]
  rw [butterfly, butterfly, Nat.add_assoc, hget _ (by omega), hget _ (by omega), Nat.zero_add]

/-- The inner loop of R187 rebuilds its block and leaves the rest of the list alone. -/
theorem blockInPlace_append {blk : List Sample} (hblk : blk.length = 2 * h) (pre post : List Sample) :
    blockInPlace tw F (2 * h) (pre ++ (blk ++ post)) pre.length =
      pre ++ (bflyBlock tw (F / (2 * h)) h blk ++ post) := by
  have hlen := bflyBlock_length tw (F / (2 * h)) h blk
  rw [blockInPlace, Nat.mul_div_cancel_left h two_pos]
  refine List.ext_getElem? fun p => ?_
  rw [getElem?_foldl_bflyInPlace tw F h (le_refl h) (by simp [hblk])]
  by_cases hpre : p < pre.length
  · rw [if_neg (by omega), if_neg (by omega), List.getElem?_append_left hpre, List.getElem?_append_left hpre]
  obtain ⟨q, rfl⟩ := Nat.exists_eq_add_of_le (Nat.not_lt.1 hpre)
  rw [List.getElem?_append_right (Nat.le_add_right ..), List.getElem?_append_right (Nat.le_add_right ..),
    Nat.add_sub_cancel_left]
  by_cases hlow : q < h
  · rw [if_pos (by omega), butterfly_append tw h _ hblk _ _ hlow,
      List.getElem?_append_left (by omega), getElem?_bflyBlock_low tw h _ blk hlow]
  by_cases hhigh : q < 2 * h
  · obtain ⟨j, rfl⟩ := Nat.exists_eq_add_of_le (Nat.not_lt.1 hlow)
    have hj : pre.length + (h + j) - (pre.length + h) = j := by omega
    rw [if_neg (by omega), if_pos (by omega), hj, butterfly_append tw h _ hblk _ _ (by omega),
      List.getElem?_append_left (by omega), getElem?_bflyBlock_high tw h _ blk (by omega)]
  · rw [if_neg (by omega), if_neg (by omega), List.getElem?_append_right (by omega),
      List.getElem?_append_right (by omega), hblk, hlen]

/-! ## The stages in place (R187) -/

/-- The loop over the blocks from number `i` on rebuilds the `n` blocks that stand there. -/
theorem foldl_blockInPlace {n : Nat} (i : Nat) {pre x : List Sample} (hpre : pre.length = i * (2 * h))
    (hx : x.length = n * (2 * h)) :
    ((List.range' i n).map (· * (2 * h))).foldl (blockInPlace tw F (2 * h)) (pre ++ x) =
      pre ++ fftStage tw (F / (2 * h)) h n x := by
  induction n generalizing i pre x with
  | zero =>
    obtain rfl : x = [] := by simpa using hx
    rfl
  | succ n ih =>
    rw [Nat.succ_mul] at hx
    have hblk : (x.take (2 * h)).length = 2 * h := by rw [List.length_take]; omega
    have hnext : (pre ++ bflyBlock tw (F / (2 * h)) h (x.take (2 * h))).length = (i + 1) * (2 * h) := by
      rw [List.length_append, bflyBlock_length, hpre, Nat.succ_mul i]
    rw [List.range'_succ, List.map_cons, List.foldl_cons, ← hpre]
    conv_lhs => rw [← List.take_append_drop (2 * h) x]
    rw [blockInPlace_append tw F h hblk, ← List.append_assoc, ih (i + 1) hnext (by rw [List.length_drop]; omega),
      List.append_assoc, fftStage]

/-- One stage over the whole list, for blocks that fill it. -/
theorem stageInPlace_eq_fftStage {x : List Sample} (hx : x.length = F / (2 * h) * (2 * h)) :
    stageInPlace tw F x (2 * h) = fftStage tw (F / (2 * h)) h (F / (2 * h)) x := by
  rw [stageInPlace, List.range_eq_range']
  exact foldl_blockInPlace tw F h 0 (pre := []) (Nat.zero_mul _).symm hx

end

/-- The stages from number `k` on, for a transform of 2^e points. -/
theorem foldl_stageInPlace (tw : List Sample) {e k left : Nat} {x : List Sample} (hk : k + left ≤ e)
    (hx : x.length = 2 ^ e) :
    ((List.range' k left).map fun k => 2 ^ (k + 1)).foldl (stageInPlace tw (2 ^ e)) x = fftStages tw e k left x := by
  induction left generalizing k x with
  | zero => rfl
  | succ left ih =>
    have hblocks : 2 ^ e / (2 * 2 ^ k) = 2 ^ (e - (k + 1)) := by
      rw [← Nat.pow_succ', Nat.pow_div (by omega) two_pos]
    have hfill : 2 ^ e / (2 * 2 ^ k) * (2 * 2 ^ k) = 2 ^ e := by
      rw [hblocks, ← Nat.pow_succ', ← Nat.pow_add, Nat.sub_add_cancel (by omega)]
    have hlen := fftStage_length tw (2 ^ e / (2 * 2 ^ k)) (2 ^ k) (2 ^ e / (2 * 2 ^ k)) x
    rw [List.range'_succ, List.map_cons, List.foldl_cons, Nat.pow_succ',
      stageInPlace_eq_fftStage tw _ _ (hx.trans hfill.symm), ih (by omega) (hlen.trans hfill), hblocks, fftStages]

theorem fft_eq_fftInPlace (tw : List Sample) (e : Nat) (x : List Sample) : fft tw e x = fftInPlace tw e x := by
  rw [fft, fftInPlace, List.range_eq_range',
    foldl_stageInPlace tw (Nat.le_of_eq (Nat.zero_add e)) (bitReverse_length e x)]

/-- Settles O47: the model's stages are those of `fftInPlace`, whose loops are the rule's. -/
theorem fftIsTheInPlaceLoop : Obligations.FftIsTheInPlaceLoop := by
  unfold Obligations.FftIsTheInPlaceLoop
  intro tw e x
  refine ⟨fft_eq_fftInPlace tw e x, ?_⟩
  rw [fft_eq_fftInPlace, fftInPlace, List.foldl_map]
  simp only [stageInPlace, List.foldl_map]
  rfl

end Sys2Proof.Machine
end

section
/-! PROOFS. SPECTRUM, SET_FFT_SIZE and the snapshot (spec/44_spectrum.md): the requested size (R197), the row, the
averages and the waterfall of an update (R183-R192, R199), and what a host reads of the copy SNAP takes (R193-R196). -/

namespace Sys2Proof

theorem Params.waterfall_le_of_wellFormed {p : Params} (h : p.wellFormed = true) :
    p.pWfDepth ≤ 65535 ∧ p.pWfDepth * (p.pFftMax / 2) ≤ 1048576 := by
  simp only [Params.wellFormed, Params.wfDepthOk, Bool.and_eq_true, fftMaxOk_iff, decide_eq_true_eq] at h
  obtain ⟨⟨⟨⟨⟨-, -, -, -, hwords⟩, -, hdepth⟩, -⟩, -⟩, -⟩ := h
  exact ⟨hdepth, hwords⟩

end Sys2Proof

namespace Sys2Proof.Machine

/-! ## The exponential average (R191) -/

theorem ema_one {avg db : F32} (havg : isFinite avg = true) (hdb : isFinite db = true)
    (h0 : isZero db = false) : ema Config.ONE avg db = db := by
  have hrest : isZero (subf Config.ONE Config.ONE) = true := by decide
  rw [ema, one_mulf hdb, zero_addf hdb (isZero_mulf_left havg hrest) h0]

theorem ema_zero {avg db : F32} (havg : isFinite avg = true) (hdb : isFinite db = true)
    (h0 : isZero avg = false) : ema 0 avg db = avg := by
  have hrest : subf Config.ONE 0 = Config.ONE := by decide
  rw [ema, hrest, one_mulf havg, addf_zero havg (isZero_mulf_left hdb rfl) h0]

/-- Settles O48: one product is the operand and the other a zero. -/
theorem emaAtTheEndsOfItsRange : Obligations.EmaAtTheEndsOfItsRange := by
  unfold Obligations.EmaAtTheEndsOfItsRange
  exact fun _ _ havg hdb => ⟨ema_one havg hdb, ema_zero havg hdb⟩

/-! ## The size (R197) -/

theorem legalFftRequest_iff {p : Params} {n : Word} :
    legalFftRequest p n = true ↔ 2 ≤ n.toNat ∧ n.toNat ≤ p.pFftMax := by
  rw [legalFftRequest, decide_eq_true_iff]

/-- Settles O26: the range check, then the size `nextPow2` gives. -/
theorem setFftSizeRoundsUp : Obligations.SetFftSizeRoundsUp := by
  unfold Obligations.SetFftSizeRoundsUp
  intro s hp
  obtain ⟨haccept, hreject⟩ :=
    checkedSet_next legalFftRequest_iff s (s.withFftSize s.cmdArg.toNat) .badFftSize
  refine ⟨fun h2 hmax => ?_, fun h => hreject (by omega)⟩
  obtain ⟨-, -, -, -, -, hpow⟩ := Params.ranges_of_wellFormed hp
  obtain ⟨e, he, hle, hmin⟩ := nextPow2_spec h2
  have hsize := (legalFftSize_nextPow2 hp (legalFftRequest_iff.2 ⟨h2, hmax⟩)).1
  have hbound := nextPow2_le h2 hpow hmax
  rw [he] at hsize hbound
  refine ⟨e, hle, hmin, hbound, _, haccept ⟨h2, hmax⟩, ?_, ?_⟩
  · rw [State.withFftSize_cfgFftSize, he, hsize]
  · rw [State.withFftSize, he]

/-! ## One update (R183-R192) -/

section
variable {num : Numerics} {F : Nat} {seg : List Sample}

theorem getElem?_segmentWindow {n : Nat} {v : Sample} {w : F32} {win : List F32} (hv : seg[n]? = some v)
    (hw : win[n]? = some w) : (segmentWindow win seg)[n]? = some ⟨mulf v.re w, mulf v.im w⟩ := by
  rw [segmentWindow, List.getElem?_zipWith, hv, hw]

theorem length_segmentWindow (hseg : seg.length = F) : (segmentWindow (winGen num F) seg).length = F := by
  rw [segmentWindow, List.length_zipWith, hseg, length_winGen, Nat.min_self]

/-- Entry `k` of the row is bin `k` of the transform in dB. -/
theorem getElem?_dbRow (hF : isPow2 F = true) {k : Nat} (hk : k < F / 2) :
    ∃ X, (fft (twGen num F) F.log2 (segmentWindow (winGen num F) seg))[k]? = some X ∧
      (dbRow num F seg)[k]? = some (toDb num X) := by
  have hbin : k < (fft (twGen num F) F.log2 (segmentWindow (winGen num F) seg)).length := by
    rw [fft_length, two_pow_log2 hF]
    omega
  refine ⟨_, List.getElem?_eq_getElem hbin, ?_⟩
  rw [dbRow, List.getElem?_map, List.getElem?_take_of_lt hk, List.getElem?_eq_getElem hbin, Option.map_some]

end

/-- SPECTRUM on a loaded batch updates with the row of its newest samples (R183). -/
theorem exec_spectrum_of_samples {s : State} {seg : List Sample} (hle : s.batch ≤ s.params.pMaxBatch)
    (hF : s.fftSize ≤ s.batch) (hseg : s.inBuf.samples (s.batch - s.fftSize) s.fftSize = some seg) :
    exec .spectrum s = .next (s.spectrumUpdate (dbRow Config.num s.fftSize seg)) := by
  simp only [exec, execSpectrum, spectrum, if_neg hle.not_gt, if_neg hF.not_gt, hseg]

/-- Settles O49: a loaded batch has its newest samples, whose row the update takes. -/
theorem spectrumCompletes : Obligations.SpectrumCompletes := by
  unfold Obligations.SpectrumCompletes
  intro s hle hF hpow hloaded F
  obtain ⟨seg, hseg⟩ := Option.isSome_iff_exists.1 ((Memory.samples_isSome _ _).2 hloaded)
  obtain ⟨hlen, hsample⟩ := Memory.samples_spec hseg
  refine ⟨segmentWindow (winGen Config.num F) seg, dbRow Config.num F seg, length_segmentWindow hlen,
    fun n hn => ?_, dbRow_length Config.num hpow seg, fun k hk => getElem?_dbRow hpow hk,
    exec_spectrum_of_samples hle hF hseg⟩
  have hv : seg[n]? = some (seg[n]'(hlen.symm ▸ hn)) := List.getElem?_eq_getElem _
  have hw := getElem?_winGen (num := Config.num) hn
  exact ⟨_, _, (hsample n hn).trans hv, hw, getElem?_segmentWindow hv hw⟩

/-! ## The waterfall (R192, R199) -/

/-- Settles O50: the waterfall is the newest rows, of which row `i` is the update's `i` before the last. -/
theorem waterfallKeepsTheNewestRows : Obligations.WaterfallKeepsTheNewestRows := by
  unfold Obligations.WaterfallKeepsTheNewestRows
  intro s rows hempty hD hlen t
  have hwf : t.wf = rows.reverse.take s.params.pWfDepth := by
    simpa [hempty] using State.foldl_spectrumUpdate_wf s rows (by simp [hempty])
  have hrow : ∀ i, i < s.params.pWfDepth → t.wf[i]? = rows[rows.length - 1 - i]? := fun i hi => by
    rw [hwf, List.getElem?_take_of_lt hi, List.getElem?_reverse (by omega)]
  refine ⟨hwf, ?_, ?_, ?_⟩
  · rw [State.wfRows, hwf, List.length_take, List.length_reverse]
    omega
  · rw [hrow 0 hD, List.getLast?_eq_getElem?, Nat.sub_zero]
  · rw [hrow _ (by omega)]
    congr 1
    omega

/-! ## The copy a host reads (R193-R195) -/

/-- Entry `j` of rows of `n` entries, laid end to end, is entry `j mod n` of row `j div n`; past the end both are the
default. -/
theorem getD_flatten_of_length {α : Type} {n : Nat} {rows : List (List α)} (hn : 0 < n)
    (hrows : ∀ row ∈ rows, row.length = n) (j : Nat) (d : α) :
    rows.flatten.getD j d = (rows.getD (j / n) []).getD (j % n) d := by
  induction rows generalizing j with
  | nil => simp
  | cons row rows ih =>
    obtain ⟨hrow, hrest⟩ := List.forall_mem_cons.1 hrows
    rw [List.flatten_cons]
    by_cases hj : j < n
    · rw [List.getD_append _ _ _ _ (hrow.symm ▸ hj), Nat.div_eq_of_lt hj, Nat.mod_eq_of_lt hj, List.getD_cons_zero]
    · have hle : n ≤ j := Nat.not_lt.1 hj
      rw [List.getD_append_right _ _ _ _ (hrow.symm ▸ hle), hrow, ih hrest, Nat.div_eq_sub_div hn hle,
        Nat.mod_eq_sub_mod hle, List.getD_cons_succ]

theorem locate_snapSpec_word {p : Params} {k : Nat} (hp : p.wellFormed = true) (hk : k < p.pFftMax / 2) :
    locate p (0x200000 + 4 * k) = some (.snapSpec k) := by
  obtain ⟨-, -, -, -, hmax, -⟩ := Params.ranges_of_wellFormed hp
  have hidx : (0x200000 + 4 * k - 0x200000) / 4 = k := by omega
  rw [locate_snapSpec (by omega) (by omega) (by omega), hidx]

theorem locate_snapWf_word {p : Params} {j : Nat} (hj : j < p.pWfDepth * (p.pFftMax / 2)) :
    locate p (0x400000 + 4 * j) = some (.snapWf j) := by
  have hidx : (0x400000 + 4 * j - 0x400000) / 4 = j := by omega
  rw [locate_snapWf (by omega) (by rwa [hidx]), hidx]

section
variable {num : Numerics} {s : State} (h : s.Inv num)
include h

theorem State.Inv.bins_pos : 0 < s.bins := by
  obtain ⟨-, h2, -⟩ := legalFftSize_iff.1 h.fft
  exact Nat.div_pos h2 two_pos

/-- The counts of the copy fit their registers. -/
theorem State.Inv.snapshot_counts :
    s.snapshot.snapBins.toNat = s.bins ∧ s.snapshot.snapRows.toNat = s.wf.length := by
  have hbins := h.bins_le_max
  have hrows := h.wf_le
  obtain ⟨-, -, -, -, hmax, -⟩ := Params.ranges_of_wellFormed h.params
  obtain ⟨hdepth, -⟩ := Params.waterfall_le_of_wellFormed h.params
  constructor
  · rw [State.snapshot_snapBins, BitVec.toNat_ofNat, Nat.mod_eq_of_lt (by omega)]
  · rw [State.snapshot_snapRows, BitVec.toNat_ofNat, State.wfRows, Nat.mod_eq_of_lt (by omega)]

/-- SNAP_SPEC reads the average, and 0 past its end (R194). -/
theorem State.Inv.snapSpec_word (k : Nat) : s.snapshot.locWord (.snapSpec k) = s.avg.getD k 0 := by
  obtain ⟨hbins, -⟩ := h.snapshot_counts
  rw [State.locWord, hbins, State.snapshot_snapSpec, ← h.avg_len]
  split
  · next hk => exact overwrite_getD hk 0
  · next hk => exact (List.getD_eq_default _ _ (Nat.not_lt.1 hk)).symm

/-- SNAP_WF reads the rows one after the other, and 0 past the last (R195). -/
theorem State.Inv.snapWf_word (j : Nat) : s.snapshot.locWord (.snapWf j) = s.wf.flatten.getD j 0 := by
  obtain ⟨hbins, hrows⟩ := h.snapshot_counts
  rw [State.locWord, hbins, hrows, State.snapshot_snapWf, ← h.flatten_length]
  split
  · next hj => exact overwrite_getD hj 0
  · next hj => exact (List.getD_eq_default _ _ (Nat.not_lt.1 hj)).symm

end

theorem memWrite_snap (s : State) (v : Word) : memWrite 0x108 .b4 v s = .next s.snapshot :=
  memWrite_reg s v .snap rfl rfl

/-- Settles O51: the write takes the copy, and each word of the windows is mapped to its entry of it. -/
theorem snapshotIsAFaithfulCopy : Obligations.SnapshotIsAFaithfulCopy := by
  unfold Obligations.SnapshotIsAFaithfulCopy
  intro s v h
  obtain ⟨-, -, -, -, hmax, -⟩ := Params.ranges_of_wellFormed h.params
  obtain ⟨-, hwords⟩ := Params.waterfall_le_of_wellFormed h.params
  refine ⟨s.snapshot, memWrite_snap s v, rfl, memReadWord_reg _ .snapBins rfl, memReadWord_reg _ .snapWfRows rfl,
    fun k hk => ?_, fun j hj => ?_⟩
  · exact (memReadWord_ofNat s.snapshot (by omega) (by omega) (locate_snapSpec_word h.params hk)).trans
      (h.snapSpec_word k)
  · rw [← getD_flatten_of_length h.bins_pos h.row_len, ← h.snapWf_word]
    exact memReadWord_ofNat s.snapshot (by omega) (by omega) (locate_snapWf_word hj)

/-! ## Events that leave the copy alone (R196) -/

/-- `t` shows the copy SNAP takes of `s`, and still holds the spectrum that was copied. -/
structure ShowsCopy (s t : State) : Prop where
  params : t.params = s.params
  fftSize : t.cfgFftSize = s.cfgFftSize
  avg : t.avg = s.avg
  wf : t.wf = s.wf
  spec : t.snapSpec = s.snapshot.snapSpec
  waterfall : t.snapWf = s.snapshot.snapWf
  bins : t.snapBins = s.snapshot.snapBins
  rows : t.snapRows = s.snapshot.snapRows

section
variable {s t u : State}

theorem showsCopy_snapshot (s : State) : ShowsCopy s s.snapshot := ⟨rfl, rfl, rfl, rfl, rfl, rfl, rfl, rfl⟩

/-- A second SNAP copies the same values. -/
theorem ShowsCopy.snapshot (h : ShowsCopy s t) : ShowsCopy s t.snapshot :=
  { h with
    spec := by simp [h.avg, h.spec, overwrite_overwrite]
    waterfall := by simp [h.wf, h.waterfall, overwrite_overwrite]
    bins := by simp [State.bins, State.fftSize, h.fftSize]
    rows := by simp [State.wfRows, h.wf] }

/-- The model's own fields have no part in it. -/
theorem ShowsCopy.bookkeeping (h : ShowsCopy s t) (p : List Request) (r : List (Agent × Word)) (d : Nat) :
    ShowsCopy s { t with pending := p, responses := r, draws := d } :=
  { h with params := h.params }

theorem ShowsCopy.portUpdate (h : ShowsCopy s t) (hu : PortUpdate t u) : ShowsCopy s u := by
  cases hu with
  | snap => exact h.snapshot
  | _ => exact { h with params := h.params }

/-- A command other than those R196 names leaves the spectrum and its copy alone. -/
theorem ShowsCopy.exec {i : Instr} (h : ShowsCopy s t) (hreset : i ≠ .reset) (hspectrum : i ≠ .spectrum)
    (hsize : i ≠ .setFftSize) (he : Machine.exec i t = .next u) : ShowsCopy s u := by
  cases exec_writes he with
  | reset => exact absurd rfl hreset
  | spectrum => exact absurd rfl hspectrum
  | setFftSize => exact absurd rfl hsize
  | _ => exact { h with params := h.params }

end

/-- A write updates the state as the port does, or runs the command it writes to CMD. -/
theorem memWrite_command {off : Offset} {w : Width} {v : Word} {s t : State} (h : memWrite off w v s = .next t) :
    PortUpdate s t ∨ ∃ i, w = .b4 ∧ off = 0x40 ∧ decode v = .ok i ∧ exec i s = .next t := by
  by_cases hcmd : w = .b4 ∧ off = 0x40
  · obtain ⟨rfl, rfl⟩ := hcmd
    rcases execute_next ((memWrite_reg s v .cmd rfl rfl).symm.trans h) with ⟨e, -, rfl⟩ | ⟨i, hdec, hi⟩
    · exact .inl (.record ..)
    · exact .inr ⟨i, rfl, rfl, hdec, hi⟩
  · rcases memWrite_next h with ⟨c, -, -, rfl⟩ | ⟨target, hc, -⟩
    · exact .inl (.record ..)
    · obtain ⟨l, hl, -⟩ := writeCheck_ok hc
      exact (memWrite_update h).imp_right fun ⟨hoff, _⟩ => absurd ⟨(accessCheck_ok hl).1, hoff⟩ hcmd

/-- Everything serving an event other than a power-on reset can do, its bookkeeping aside. -/
theorem serve_cases {r : Request} {s t : State} (h : serve r s = .next t) (hpower : r ≠ .powerOn) :
    ∃ (d : Nat) (u : State) (resp : List (Agent × Word)),
      (PortUpdate { s with draws := d } u ∨
        ∃ i, r.command s.params = some i ∧ exec i { s with draws := d } = .next u) ∧
      t = { u with responses := resp } := by
  cases r with
  | read a addr w =>
    obtain ⟨off, -, rfl⟩ := serve_read h
    exact ⟨s.draws, _, _, .inl (memReadNext_update off w s), rfl⟩
  | write a addr w v =>
    obtain ⟨off, hoff, -, hw⟩ := serve_write h
    refine ⟨s.draws + 1, t, t.responses, (memWrite_command hw).imp_right ?_, rfl⟩
    rintro ⟨i, rfl, rfl, hdec, hi⟩
    exact ⟨i, by rw [Request.command, if_pos hoff, hdec, Except.toOption], hi⟩
  | powerOn => exact absurd rfl hpower

theorem exec_pending {i : Instr} {s t : State} (h : exec i s = .next t) : t.pending = s.pending := by
  cases exec_writes h <;> rfl

theorem PortUpdate.pending {s t : State} (h : PortUpdate s t) : t.pending = s.pending := by
  cases h <;> rfl

/-- An event outside R196's list leaves the spectrum, its copy and the other waiting events alone. -/
theorem ShowsCopy.serve {r : Request} {s t u : State} (h : ShowsCopy s t) (hr : r.touchesSpectrum s.params = false)
    (hs : Machine.serve r t = .next u) : ShowsCopy s u ∧ u.pending = t.pending := by
  simp only [Request.touchesSpectrum, Request.resets, Bool.or_eq_false_iff, decide_eq_false_iff_not] at hr
  obtain ⟨⟨⟨hpower, hreset⟩, hspectrum⟩, hsize⟩ := hr
  obtain ⟨d, x, resp, hx, rfl⟩ := serve_cases hs hpower
  have hd := h.bookkeeping t.pending t.responses d
  rcases hx with hu | ⟨i, hi, he⟩
  · exact ⟨(hd.portUpdate hu).bookkeeping x.pending resp x.draws, hu.pending⟩
  · rw [h.params] at hi
    have hx := hd.exec (fun e => hreset (e ▸ hi)) (fun e => hspectrum (e ▸ hi)) (fun e => hsize (e ▸ hi)) he
    exact ⟨hx.bookkeeping x.pending resp x.draws, (exec_pending he :)⟩

/-- So does a run over events outside that list. -/
theorem ShowsCopy.run {s t u : State} (h : ShowsCopy s t) (hr : ∀ r ∈ t.pending, r.touchesSpectrum s.params = false)
    (hrun : Sys2Proof.core.run t.pending.length t = .next u) : ShowsCopy s u := by
  induction hp : t.pending generalizing t with
  | nil =>
    rw [hp] at hrun
    cases hrun
    exact h
  | cons r rest ih =>
    rw [hp] at hr hrun
    obtain ⟨hr, hrest⟩ := List.forall_mem_cons.1 hr
    obtain ⟨x, hstep, hrun⟩ := run_succ_next hrun
    obtain ⟨hinst, -⟩ := step_next hstep
    obtain ⟨hx, hpending⟩ := (h.bookkeeping rest t.responses t.draws).serve hr
      ((step_of_pending hinst hp).symm.trans hstep)
    exact ih hx (hpending ▸ hrest) (hpending ▸ hrun) hpending

/-- Settles O52: the run keeps the copy SNAP took and the spectrum it was taken of, so a second SNAP takes the same. -/
theorem snapshotReadsAreIdempotent : Obligations.SnapshotReadsAreIdempotent := by
  unfold Obligations.SnapshotReadsAreIdempotent
  intro s t hevents hrun
  have h : ShowsCopy s t := (showsCopy_snapshot s).run hevents hrun
  refine ⟨fun k => ?_, fun j => ?_, ?_, ?_, h.bins, h.rows, h.snapshot.spec, h.snapshot.waterfall, h.snapshot.bins,
    h.snapshot.rows⟩
  · simp only [State.locWord, h.bins, h.spec]
  · simp only [State.locWord, h.bins, h.rows, h.waterfall]
  · exact (memReadWord_reg t .snapBins rfl).trans (h.bins.trans (memReadWord_reg s.snapshot .snapBins rfl).symm)
  · exact (memReadWord_reg t .snapWfRows rfl).trans (h.rows.trans (memReadWord_reg s.snapshot .snapWfRows rfl).symm)

end Sys2Proof.Machine
end

section
/-! PROOFS. The control commands (spec/45_control.md): NOP (R210) and CLEAR, the W1C write to STATUS (R212). -/

namespace Sys2Proof.Machine

/-! ## NOP (R210) -/

/-- R210, in every state: NOP is never rejected, and it answers with the state it is given. -/
@[simp] theorem exec_nop (s : State) : exec .nop s = .next s := rfl

/-- Settles O19: it is NOP's arm of `exec`. -/
theorem nopChangesNothing : Obligations.NopChangesNothing := by
  unfold Obligations.NopChangesNothing
  exact exec_nop

/-! ## CLEAR (R212) -/

/-- STATUS is a writable row of the map, and a write that reaches it is CLEAR. -/
theorem memWrite_status (s : State) (v : Word) : memWrite 0x048 .b4 v s = .next (s.clear v) :=
  memWrite_reg s v .status rfl rfl

/-- Settles O15: the write is CLEAR, whose masks `definedBits` and `errorBits` are R212's bits 0, 1, 2, 8, 9 and R232's
bits 2:0. -/
theorem statusWriteClears : Obligations.StatusWriteClears := by
  unfold Obligations.StatusWriteClears
  intro s v
  exact memWrite_status s v

end Sys2Proof.Machine
end

section
/-! PROOFS. Errors (spec/60_exceptions.md): the bus checks in their order (R235, R238), the checks of a batch length
(R234), what a command can do to STATUS and the error capture (R237, R240, R241), the capture while an error is pending
(R232, R243), and what a READER's event can reach (R246, R247, R266). -/

namespace Sys2Proof.Machine

/-! ## Bus errors (R235) -/

section
variable {s : State} {off : Offset} {w : Width} {c : ErrCode}

/-- A write that fails a check records its error and does nothing else. -/
theorem memWrite_of_writeCheck_error (v : Word) (h : writeCheck s.params off w = .error c) :
    memWrite off w v s = .next (s.recorded c.classBit c.num (off.zeroExtend 32)) := by
  rw [memWrite, h, ← State.record_eq_recorded]
  rfl

/-- An access that fails a check of every access records its error, and a read returns 0 with it. -/
theorem access_of_accessCheck_error (v : Word) (h : accessCheck s.params off w = .error c) :
    memWrite off w v s = .next (s.recorded c.classBit c.num (off.zeroExtend 32)) ∧
      memReadNext off w s = s.recorded c.classBit c.num (off.zeroExtend 32) ∧ memReadWord off w s = 0 := by
  have hw : writeCheck s.params off w = .error c := by rw [writeCheck, h]
  refine ⟨memWrite_of_writeCheck_error v hw, ?_, by rw [memReadWord, h]⟩
  rw [memReadNext, h, ← State.record_eq_recorded]
  rfl

end

section
variable {p : Params} {off : Offset}

theorem accessCheck_width {w : Width} (h : w ≠ .b4) : accessCheck p off w = .error .busWidth := if_pos h

theorem accessCheck_misaligned (ha : off.toNat % 4 ≠ 0) : accessCheck p off .b4 = .error .busMisaligned := by
  rw [accessCheck, if_neg (not_not.2 rfl), if_pos (mt (low_bits_eq_zero_iff off).1 ha)]

theorem accessCheck_unmapped (ha : off.toNat % 4 = 0) (hm : ¬mappedOffset p off.toNat) :
    accessCheck p off .b4 = .error .busUnmapped := by
  have hlow : ¬off.extractLsb' 0 2 ≠ 0 := not_not.2 ((low_bits_eq_zero_iff off).2 ha)
  rw [accessCheck, if_neg (not_not.2 rfl), if_neg hlow, (locate_eq_none ha off.isLt).2 hm]

theorem writeCheck_readOnly (ha : off.toNat % 4 = 0) (hm : mappedOffset p off.toNat)
    (hro : ¬writableOffset p off.toNat) : writeCheck p off .b4 = .error .busRoWrite := by
  obtain ⟨l, hl⟩ := Option.isSome_iff_exists.1 ((locate_isSome ha off.isLt).2 hm)
  simp only [writeCheck, accessCheck_of_locate ha hl, (locate_target hl).1.2 hro]

end

/-- Settles O7: each condition makes the check of its code fail, whose error is all the access leaves. -/
theorem busChecksInOrder : Obligations.BusChecksInOrder := by
  unfold Obligations.BusChecksInOrder
  intro s off w v raised rejected
  refine ⟨fun hw => access_of_accessCheck_error v (accessCheck_width hw), ?_, ?_, ?_⟩ <;> rintro rfl ha
  · exact access_of_accessCheck_error v (accessCheck_misaligned ha)
  · exact fun hm => access_of_accessCheck_error v (accessCheck_unmapped ha hm)
  · exact fun hm hro => memWrite_of_writeCheck_error v (writeCheck_readOnly ha hm hro)

/-! ## The length of a batch (R234, R160, R183) -/

section
variable {s : State}

theorem exec_process_of_long (h : s.params.pMaxBatch < s.batch) :
    exec .process s = .next (s.record .badBatchLen s.batchLen) := by
  rw [exec, execProcess, process, if_pos h]

theorem exec_spectrum_of_long (h : s.params.pMaxBatch < s.batch) :
    exec .spectrum s = .next (s.record .badBatchLen s.batchLen) := by
  rw [exec, execSpectrum, spectrum, if_pos h]

theorem exec_spectrum_of_undersized (hle : s.batch ≤ s.params.pMaxBatch) (hF : s.batch < s.fftSize) :
    exec .spectrum s = .next s := by
  rw [exec, execSpectrum, spectrum, if_neg hle.not_gt, if_pos hF]

/-- An empty batch has no sample, so the loop and the delivery have nothing to do. -/
theorem exec_process_of_empty (h : s.batch = 0) : exec .process s = .next s := by
  have hxs : s.inBuf.samples 0 s.batch = some [] := by rw [h]; rfl
  exact exec_process_of_samples (h ▸ Nat.zero_le _) hxs

end

/-- Settles O41: each condition selects a branch of PROCESS and of SPECTRUM. -/
theorem batchLengthChecks : Obligations.BatchLengthChecks := by
  unfold Obligations.BatchLengthChecks
  refine fun s => ⟨fun hlong => ?_, fun hempty => exec_process_of_empty (congrArg BitVec.toNat hempty),
    exec_spectrum_of_undersized⟩
  rw [exec_process_of_long hlong, exec_spectrum_of_long hlong, State.record_eq_recorded]
  exact ⟨rfl, rfl⟩

/-! ## What a command can do to STATUS and the error capture (R237, R240) -/

/-- An accepted command captures nothing, and raises no more than AUDIO_OVF (R240). -/
structure RaisesNoError (s t : State) : Prop where
  errCode : t.errCode = s.errCode
  errInfo : t.errInfo = s.errInfo
  status : t.status = s.status ∨ t.status = s.status ||| AUDIO_OVF

theorem RaisesNoError.of_eq {s t : State} (hcode : t.errCode = s.errCode) (hinfo : t.errInfo = s.errInfo)
    (hst : t.status = s.status) : RaisesNoError s t := ⟨hcode, hinfo, .inl hst⟩

/-- Only the FIFO's overflow reaches STATUS (R164). -/
theorem State.deliver_status (s : State) (a : List F32) :
    (s.deliver a).status = s.status ∨ (s.deliver a).status = s.status ||| AUDIO_OVF := by
  by_cases ha : a = []
  · rw [ha, State.deliver_nil]
    exact .inl rfl
  · rw [State.deliver_of_ne_nil s ha, State.fifoAppend_status]
    split
    · exact .inr rfl
    · exact .inl rfl

theorem processSamples_raisesNoError (num : Numerics) (xs : List Sample) (s : State) :
    RaisesNoError s (processSamples num xs s) where
  errCode := by rw [processSamples_frame]
  errInfo := by rw [processSamples_frame]
  status := by
    have hrun : (s.runSamples xs).status = s.status := by rw [State.runSamples_frame]
    exact hrun ▸ (s.runSamples xs).deliver_status (s.audioBatch num xs)

/-- Every accepted command but RESET. -/
theorem Effect.raisesNoError {i : Instr} {s t : State} (hi : i ≠ .reset) (h : Effect i s t) : RaisesNoError s t := by
  cases i with
  | reset => exact absurd rfl hi
  | nop => obtain rfl : t = s := h; exact .of_eq rfl rfl rfl
  | process => obtain ⟨-, xs, -, rfl⟩ := h; exact processSamples_raisesNoError ..
  | spectrum => obtain ⟨-, ⟨-, rfl⟩ | ⟨-, seg, -, rfl⟩⟩ := h <;> exact .of_eq rfl rfl rfl
  | setMode m => obtain rfl : t = s.setMode m := h; unfold State.setMode; split <;> exact .of_eq rfl rfl rfl
  | setBw => obtain ⟨-, -, rfl⟩ := h; exact .of_eq rfl rfl rfl
  | setSquelch | setAgcTarget | setAgcAttack | setAgcDecay | setFftSize | setAvg =>
    obtain ⟨-, rfl⟩ := h
    exact .of_eq rfl rfl rfl

/-- Bits outside a mask do not show under it. -/
theorem or_and_of_and_eq_zero {st b mask : Word} (h : b &&& mask = 0) : (st ||| b) &&& mask = st &&& mask := by
  rw [BitVec.and_or_distrib_right, h]
  exact BitVec.or_zero

/-- An accepted command leaves the bits of STATUS other than AUDIO_OVF as they were. -/
theorem RaisesNoError.status_and {s t : State} (h : RaisesNoError s t) {mask : Word} (hmask : AUDIO_OVF &&& mask = 0) :
    t.status &&& mask = s.status &&& mask := by
  rcases h.status with hst | hst <;> rw [hst]
  exact or_and_of_and_eq_zero hmask

theorem exec_reset_status {s t : State} (h : exec .reset s = .next t) : t.status = 0 := by
  cases h
  rfl

/-- Settles O16: RESET clears CFG_ERR and an accepted command leaves it, so the command was rejected. -/
theorem rejectedCommandsArePrecise : Obligations.RejectedCommandsArePrecise := by
  unfold Obligations.RejectedCommandsArePrecise
  intro i s t h hclear hset
  rcases exec_next h with heff | ⟨c, info, hclass, hcode, rfl⟩
  · exfalso
    by_cases hi : i = .reset
    · subst hi
      exact hset (by rw [exec_reset_status h]; rfl)
    · exact hset (((heff.raisesNoError hi).status_and rfl).trans hclear)
  · exact ⟨c.num, info, hcode, by rw [State.record_eq_recorded, hclass]; rfl⟩

/-- Settles O17: a rejected command sets CFG_ERR, an accepted one AUDIO_OVF at most. -/
theorem commandsRaiseOnlyCfgErrAndOverflow : Obligations.CommandsRaiseOnlyCfgErrAndOverflow := by
  unfold Obligations.CommandsRaiseOnlyCfgErrAndOverflow
  intro i s t h
  refine ⟨fun hi => ?_, ?_⟩
  · rcases exec_next h with heff | ⟨c, info, hclass, -, rfl⟩
    · exact (heff.raisesNoError hi).status_and rfl
    · rw [State.record_status, hclass]
      exact or_and_of_and_eq_zero rfl
  · rintro rfl
    rw [exec_reset_status h]
    rfl

/-! ## The capture while an error is pending (R232, R243) -/

/-- The capture of `s` stands in `t`, and no error class pending in `s` was cleared. -/
structure KeepsCapture (s t : State) : Prop where
  errCode : t.errCode = s.errCode
  errInfo : t.errInfo = s.errInfo
  pending : (s.status &&& errorBits) &&& ~~~t.status = 0

section
variable {s t : State}

/-- Setting bits of STATUS clears none. -/
theorem KeepsCapture.of_status_or {b : Word} (hcode : t.errCode = s.errCode) (hinfo : t.errInfo = s.errInfo)
    (hst : t.status = s.status ||| b) : KeepsCapture s t := by
  refine ⟨hcode, hinfo, ?_⟩
  rw [hst]
  ext i
  cases h : s.status[i] <;> simp [h]

theorem KeepsCapture.of_eq (hcode : t.errCode = s.errCode) (hinfo : t.errInfo = s.errInfo)
    (hst : t.status = s.status) : KeepsCapture s t :=
  .of_status_or hcode hinfo (hst.trans BitVec.or_zero.symm)

theorem RaisesNoError.keepsCapture (h : RaisesNoError s t) : KeepsCapture s t :=
  h.status.elim (.of_eq h.errCode h.errInfo) (.of_status_or h.errCode h.errInfo)

theorem State.popped_keepsCapture (s : State) : KeepsCapture s s.popped := by
  cases hfifo : s.fifo with
  | nil => rw [State.popped_of_empty hfifo]; exact .of_status_or rfl rfl rfl
  | cons x rest => rw [State.popped_of_cons hfifo]; exact .of_eq rfl rfl rfl

/-- A STATUS write is at STATUS. -/
theorem offset_of_writeCheck_status {p : Params} {off : Offset} {w : Width} (h : writeCheck p off w = .ok .status) :
    off = 0x48 := by
  obtain ⟨l, hl, ht⟩ := writeCheck_ok h
  obtain ⟨-, -, hloc⟩ := accessCheck_ok hl
  have key : ∀ row ∈ regMap, (Loc.reg row.2).target = some .status → row.1 = 0x48 := by decide
  cases l with
  | reg r => exact BitVec.eq_of_toNat_eq (key _ (locate_eq_reg hloc) ht)
  | _ => cases ht

variable (herr : s.noError = false)
include herr

/-- With an error pending, another one only sets its class bit. -/
theorem State.record_keepsCapture (c : ErrCode) (info : Word) : KeepsCapture s (s.record c info) := by
  refine .of_status_or ?_ ?_ (State.record_status ..)
  · rw [State.record_errCode, herr, if_neg Bool.false_ne_true]
  · rw [State.record_errInfo, herr, if_neg Bool.false_ne_true]

theorem exec_keepsCapture {i : Instr} (hi : i ≠ .reset) (h : exec i s = .next t) : KeepsCapture s t := by
  rcases exec_next h with heff | ⟨c, info, -, -, rfl⟩
  · exact (heff.raisesNoError hi).keepsCapture
  · exact State.record_keepsCapture herr c info

theorem memReadNext_keepsCapture (off : Offset) (w : Width) : KeepsCapture s (memReadNext off w s) := by
  rcases memReadNext_cases off w s with ⟨c, -, hn⟩ | ⟨-, hn⟩ | hn <;> rw [hn]
  · exact State.record_keepsCapture herr ..
  · exact s.popped_keepsCapture
  · exact .of_eq rfl rfl rfl

/-- A write changes the capture only at STATUS, or as the RESET command. -/
theorem memWrite_keepsCapture {off : Offset} {w : Width} {v : Word} (hstatus : off ≠ 0x48)
    (hreset : ¬(w = .b4 ∧ off = 0x40 ∧ decode v = .ok .reset)) (h : memWrite off w v s = .next t) :
    KeepsCapture s t := by
  rcases memWrite_next h with ⟨c, -, -, rfl⟩ | ⟨target, hc, ht⟩
  · exact State.record_keepsCapture herr ..
  cases target with
  | cmd =>
    rcases execute_next ht with ⟨e, -, rfl⟩ | ⟨i, hdec, hexec⟩
    · exact State.record_keepsCapture herr ..
    · obtain ⟨l, hl, -⟩ := writeCheck_ok hc
      have hb4 := (accessCheck_ok hl).1
      exact exec_keepsCapture herr (fun hi => hreset ⟨hb4, offset_of_writeCheck_cmd hc, hi ▸ hdec⟩) hexec
  | status => exact absurd (offset_of_writeCheck_status hc) hstatus
  | _ => cases ht; exact .of_eq rfl rfl rfl

theorem serve_keepsCapture {r : Request} (hreset : r.resets s.params = false)
    (hstatus : r.offset s.params ≠ some 0x48) (h : serve r s = .next t) : KeepsCapture s t := by
  cases r with
  | read a addr w =>
    obtain ⟨off, -, rfl⟩ := serve_read h
    exact { memReadNext_keepsCapture herr off w with }
  | write a addr w v =>
    obtain ⟨off, hoff, -, hw⟩ := serve_write h
    have hno : ¬(w = .b4 ∧ off = 0x40 ∧ decode v = .ok .reset) := fun ⟨hb4, ho, hdec⟩ =>
      Bool.eq_false_iff.1 hreset (Request.resets_write.2 ⟨hb4, ho ▸ hoff, hdec⟩)
    have hne : off ≠ 0x48 := fun ho => hstatus (ho ▸ hoff)
    exact { memWrite_keepsCapture (s := s.nextDraw) herr hne hno hw with }
  | powerOn => cases hreset

end

/-- The step that takes an event off the list serves it. -/
theorem serve_of_step {s t : State} {r : Request} {rest : List Request} (hp : s.pending = r :: rest)
    (h : step s = .next t) : serve r { s with pending := rest } = .next t :=
  (step_of_pending (step_next h).1 hp).symm.trans h

/-- Settles O18: the step serves the event, and what it may record then sets a class bit only. -/
theorem firstErrorCaptureIsKept : Obligations.FirstErrorCaptureIsKept := by
  unfold Obligations.FirstErrorCaptureIsKept
  intro s t r rest hp hstep hreset hstatus herr
  have hkept : KeepsCapture { s with pending := rest } t :=
    serve_keepsCapture (State.noError_eq_false_iff.2 herr) hreset hstatus (serve_of_step hp hstep)
  exact ⟨hkept.errCode, hkept.errInfo, hkept.pending⟩

/-! ## The READER (R246, R247, R266) -/

/-- A READER's write goes on only to STATUS or SNAP. -/
theorem not_feedOnly_of_readerMayNot {p : Params} {off : Offset} {w : Width} {target : Target}
    (h : readerMayNot p .reader off w = false) (hc : writeCheck p off w = .ok target) : target.feedOnly = false := by
  simpa only [readerMayNot, hc] using h

/-- All a READER's access may change: the FIFO, STATUS, the error capture, the snapshot and the model's own fields. -/
def ReaderUpdate (s t : State) : Prop :=
  t = { s with
    fifo := t.fifo, status := t.status, errCode := t.errCode, errInfo := t.errInfo, snapSpec := t.snapSpec
    snapWf := t.snapWf, snapBins := t.snapBins, snapRows := t.snapRows
    responses := t.responses, draws := t.draws }

theorem serve_readerUpdate {s t : State} {r : Request} (hr : r.agent? = some .reader) (h : serve r s = .next t) :
    ReaderUpdate s t := by
  cases r with
  | read a addr w =>
    obtain ⟨off, -, rfl⟩ := serve_read h
    rcases memReadNext_cases off w s with ⟨c, -, hn⟩ | ⟨-, hn⟩ | hn <;> rw [hn] <;> rfl
  | write a addr w v =>
    obtain rfl : a = .reader := Option.some.inj hr
    obtain ⟨off, -, hmay, hw⟩ := serve_write h
    rcases memWrite_next hw with ⟨c, -, -, rfl⟩ | ⟨target, hc, ht⟩
    · rfl
    have hfeed := not_feedOnly_of_readerMayNot hmay hc
    cases target with
    | status | snap => cases ht; rfl
    | _ => cases hfeed
  | powerOn => cases hr

theorem mappedOffset_of_writable {p : Params} {o : Nat} (h : writableOffset p o) : mappedOffset p o := by
  have key : ∀ a ∈ [0x040, 0x044, 0x048, 0x054, 0x108], a ∈ registerOffsets := by decide
  exact h.elim (fun hreg => .inl (key o hreg)) fun hin => .inr (.inr (.inr (.inl hin)))

theorem writableOffset_of_feedOnly {p : Params} {o : Nat} (h : feedOnlyOffset p o) : writableOffset p o := by
  have key : ∀ a ∈ [0x040, 0x044, 0x054], a ∈ [0x040, 0x044, 0x048, 0x054, 0x108] := by decide
  exact h.imp_left (key o)

/-- At a FEED location the READER's write passes its checks, and has no move (R266). -/
theorem readerMayNot_feedOnly {p : Params} {off : Offset} (ha : off.toNat % 4 = 0)
    (hf : feedOnlyOffset p off.toNat) : readerMayNot p .reader off .b4 = true := by
  have hwrite := writableOffset_of_feedOnly hf
  obtain ⟨l, hl⟩ := Option.isSome_iff_exists.1 ((locate_isSome ha off.isLt).2 (mappedOffset_of_writable hwrite))
  obtain ⟨hro, hfeed⟩ := locate_target hl
  obtain ⟨target, ht⟩ := Option.ne_none_iff_exists'.1 (mt hro.1 (not_not.2 hwrite))
  simp only [readerMayNot, writeCheck_of_locate ha hl ht]
  exact (hfeed target ht).2 hf

/-- Settles O14: a READER's event is a read, or a write that fails its checks or reaches STATUS or SNAP. -/
theorem readerCannotDisturbTheStream : Obligations.ReaderCannotDisturbTheStream := by
  unfold Obligations.ReaderCannotDisturbTheStream
  refine ⟨fun s t r rest hp hr hstep => ?_, fun s off v rest hinst hp ha hf => ?_⟩
  · exact serve_readerUpdate hr (serve_of_step hp hstep)
  · rw [step_of_pending hinst hp]
    simp only [serve, offsetOf_base_add, readerMayNot_feedOnly ha hf, if_true]

end Sys2Proof.Machine
end

section
/-! PROOFS. Reset and hazards (spec/70_reset_and_hazards.md): the state after reset (R265), and the two data-path
commands on one batch, in either order (R272). -/

namespace Sys2Proof.Machine

/-! ## The state after reset (R265) -/

/-- Settles O54: every reset value is legal under R5 and R6, and the reference instance keeps them. -/
theorem invariantHoldsAtReset : Obligations.InvariantHoldsAtReset := by
  unfold Obligations.InvariantHoldsAtReset
  obtain ⟨hreference, -⟩ := isInstance_iff.1 reference_isInstance
  exact ⟨fun _ _ hp => .powerOn hp, .powerOn hreference⟩

/-! ## PROCESS leaves what SPECTRUM reads (R168, R272) -/

section
variable (num : Numerics) (xs : List Sample) (s : State)

@[simp] theorem processSamples_params : (processSamples num xs s).params = s.params := by
  rw [processSamples_frame]

@[simp] theorem processSamples_batch : (processSamples num xs s).batch = s.batch := by
  rw [processSamples_frame]
  rfl

@[simp] theorem processSamples_fftSize : (processSamples num xs s).fftSize = s.fftSize := by
  rw [processSamples_frame]
  rfl

@[simp] theorem processSamples_inBuf : (processSamples num xs s).inBuf = s.inBuf := by
  rw [processSamples_frame]

end

/-! ## The two effects act on separate items (R272) -/

section
variable (s : State) (db : List F32)

theorem State.spectrumUpdate_runSamples (xs : List Sample) :
    (s.spectrumUpdate db).runSamples xs = (s.runSamples xs).spectrumUpdate db := by
  induction xs generalizing s with
  | nil => rfl
  | cons x xs ih => exact ih (s.sampleNext x)

theorem State.spectrumUpdate_audioBatch (num : Numerics) (xs : List Sample) :
    (s.spectrumUpdate db).audioBatch num xs = s.audioBatch num xs := by
  induction xs generalizing s with
  | nil => rfl
  | cons x xs ih => exact congrArg ((s.sampleOut num x).toList ++ ·) (ih (s.sampleNext x))

theorem State.spectrumUpdate_deliver (a : List F32) :
    (s.spectrumUpdate db).deliver a = (s.deliver a).spectrumUpdate db := by
  unfold State.deliver
  split <;> rfl

theorem processSamples_spectrumUpdate (num : Numerics) (xs : List Sample) :
    processSamples num xs (s.spectrumUpdate db) = (processSamples num xs s).spectrumUpdate db := by
  simp only [processSamples, State.spectrumUpdate_runSamples, State.spectrumUpdate_audioBatch,
    State.spectrumUpdate_deliver]

end

/-! ## Either order (R272) -/

section
variable {s u t : State}

/-- Both commands answer a batch that is too long with the same record (R234). -/
theorem exec_process_eq_exec_spectrum_of_long (h : s.params.pMaxBatch < s.batch) :
    exec .process s = exec .spectrum s :=
  (exec_process_of_long h).trans (exec_spectrum_of_long h).symm

theorem process_next_of_le (hle : s.batch ≤ s.params.pMaxBatch) (h : exec .process s = .next t) :
    ∃ xs, s.inBuf.samples 0 s.batch = some xs ∧ t = processSamples Config.num xs s := by
  rcases process_next h with ⟨hlong, -⟩ | ⟨-, heff⟩
  · exact absurd hlong hle.not_gt
  · exact heff

theorem spectrum_next_of_le (hle : s.batch ≤ s.params.pMaxBatch) (h : exec .spectrum s = .next t) :
    (s.batch < s.fftSize ∧ t = s) ∨
    (s.fftSize ≤ s.batch ∧ ∃ seg, s.inBuf.samples (s.batch - s.fftSize) s.fftSize = some seg ∧
      t = s.spectrumUpdate (dbRow Config.num s.fftSize seg)) := by
  rcases spectrum_next h with ⟨hlong, -⟩ | ⟨-, heff⟩ | ⟨-, heff⟩
  · exact absurd hlong hle.not_gt
  · exact .inl heff
  · exact .inr heff

/-- PROCESS leaves what SPECTRUM reads, so SPECTRUM answers the same before it. -/
theorem spectrum_first_of_process_first (hle : s.batch ≤ s.params.pMaxBatch) (hp : exec .process s = .next u)
    (hs : exec .spectrum u = .next t) : ∃ v, exec .spectrum s = .next v ∧ exec .process v = .next t := by
  obtain ⟨xs, hxs, rfl⟩ := process_next_of_le hle hp
  have hcases := spectrum_next_of_le (by simpa using hle) hs
  simp only [processSamples_batch, processSamples_fftSize, processSamples_inBuf] at hcases
  rcases hcases with ⟨hF, rfl⟩ | ⟨hF, seg, hseg, rfl⟩
  · exact ⟨s, exec_spectrum_of_undersized hle hF, hp⟩
  · refine ⟨_, exec_spectrum_of_samples hle hF hseg, ?_⟩
    rw [← processSamples_spectrumUpdate]
    exact exec_process_of_samples hle hxs

/-- SPECTRUM leaves what PROCESS reads, so PROCESS answers the same before it. -/
theorem process_first_of_spectrum_first (hle : s.batch ≤ s.params.pMaxBatch) (hs : exec .spectrum s = .next u)
    (hp : exec .process u = .next t) : ∃ v, exec .process s = .next v ∧ exec .spectrum v = .next t := by
  rcases spectrum_next_of_le hle hs with ⟨hF, rfl⟩ | ⟨hF, seg, hseg, rfl⟩
  · obtain ⟨xs, -, rfl⟩ := process_next_of_le hle hp
    exact ⟨_, hp, exec_spectrum_of_undersized (by simpa using hle) (by simpa using hF)⟩
  · obtain ⟨xs, hxs, rfl⟩ := process_next_of_le (s := s.spectrumUpdate _) hle hp
    refine ⟨_, exec_process_of_samples hle hxs, ?_⟩
    rw [processSamples_spectrumUpdate, ← processSamples_fftSize Config.num xs s]
    exact exec_spectrum_of_samples (by simpa using hle) (by simpa using hF) (by simpa using hseg)

end

/-- Settles O53: on a batch that is too long both commands make the same record, the second time too; on any other, each
order gives the other. -/
theorem processAndSpectrumCommute : Obligations.ProcessAndSpectrumCommute := by
  unfold Obligations.ProcessAndSpectrumCommute
  intro s t
  rcases lt_or_ge s.params.pMaxBatch s.batch with hlong | hle
  · have hagain := exec_process_eq_exec_spectrum_of_long (s := s.record .badBatchLen s.batchLen) hlong
    simp only [exec_process_of_long hlong, exec_spectrum_of_long hlong, Host.Outcome.next.injEq, exists_eq_left',
      hagain]
  · exact ⟨fun ⟨_, hp, hs⟩ => spectrum_first_of_process_first hle hp hs,
      fun ⟨_, hs, hp⟩ => process_first_of_spectrum_first hle hs hp⟩

end Sys2Proof.Machine
end
